-- ==== Sys2Proof/Word.lean ====
section
/-! DEFINITION. The fixed-width words of the hart: what the spec treats as bit vectors (R10). -/

namespace Sys2Proof

/-- One byte of memory (R35). -/
abbrev Byte := BitVec 8

/-- An XLEN-bit value (R8, R20). XLEN is 32 or 64: with XLEN = 32 the value sits in the low
32 bits and the upper 32 bits are zero (`Params.truncX` makes that form). -/
abbrev Word := BitVec 64

/-- A FLEN-bit value (R8, R24). FLEN is 32, 64 or 128: a narrower register sits in the low
FLEN bits and the upper bits are zero (`Params.truncF` makes that form). -/
abbrev FWord := BitVec 128

/-- An instruction word `inst` (R80): every instruction is 32 bits long. -/
abbrev InstWord := BitVec 32

/-- A set of accrued exception flags, NV, DZ, OF, UF, NX from bit 4 down to bit 0 (R27, R118). -/
abbrev FlagSet := BitVec 5

end Sys2Proof
end

