-- ==== Sys2Proof/Config.lean ====
section
/-! DEFINITION. The implementation parameters of R8, as plain data, and the one free value of the model.
They are "fixed for a whole run": `State` carries them in a field that no step changes, so that one step
function, and every statement over all states, covers every hart the spec allows. What the parameters mean
is in `Sys2Proof/Machine/Platform.lean`. -/

namespace Sys2Proof

/-- The parameter `XLEN`, 32 or 64 (R8, decision D1). -/
inductive Xlen where
  | rv32
  | rv64
deriving DecidableEq, Repr

/-- Which of the extensions D and Q stand beside F: the parameters `hasD` and `hasQ` of R8 together,
since `hasQ` implies `hasD`. -/
inductive FpExt where
  /-- neither D nor Q: FLEN = 32 -/
  | f
  /-- D and not Q: FLEN = 64 -/
  | fd
  /-- D and Q: FLEN = 128 -/
  | fdq
deriving DecidableEq, Repr

/-- The parameter `LEVEL` (R8): which of the two extensions the hart has. -/
inductive Level where
  | zfhmin
  | zfh
deriving DecidableEq, Repr

/-- The parameter `MISALIGNED` (R8, R53, decision D6). -/
inductive Misaligned where
  /-- a misaligned FLH or FSH raises the address-misaligned exception (the default) -/
  | trap
  /-- a misaligned FLH or FSH is two single-byte accesses -/
  | split
deriving DecidableEq, Repr

/-- The parameter `FS_TRACKING` (R8, R32, decision D11). -/
inductive FsTracking where
  /-- `FS` becomes Dirty exactly when R32 says so (the default) -/
  | precise
  /-- the over-eager hardware of R32 and U7: `FS` after a floating-point instruction is a free choice
  between its old value and 3 -/
  | eager
deriving DecidableEq, Repr

/-- The parameter `TRAP` (R8, R306, decision D12). -/
inductive TrapMode where
  /-- an exception stops the model with a trap record (the default) -/
  | fault
  /-- an exception enters the machine-mode handler at `mtvec` -/
  | mmode
deriving DecidableEq, Repr

/-- A run of `size` byte addresses that starts at `base`. -/
structure Region where
  base : Nat
  size : Nat
deriving DecidableEq, Repr

/-- The parameters of R8. `FLEN` is not a field: R8 gives it from `hasD` and `hasQ`. -/
structure Params where
  xlen : Xlen
  fp : FpExt
  level : Level
  misaligned : Misaligned
  /-- the parameter `Mem`: the byte addresses that exist, as a union of regions -/
  mem : List Region
  fsTracking : FsTracking
  trap : TrapMode
  /-- the parameter `RESET_PC` -/
  resetPc : Word
deriving DecidableEq, Repr

/-- The hart that `State.reset` describes. The spec fixes no value of XLEN, hasD, hasQ, LEVEL, Mem and RESET_PC;
this is a hart on which every row of the opcode table exists: RV64 with D and Q, Zfh, all 2^64 byte addresses,
`RESET_PC` = 0. `MISALIGNED` and `FS_TRACKING` have the spec's defaults.
DESIGN CHOICE (log entry 2): `TRAP` is `mmode`, not its default `fault`, because MRET and the trap CSRs exist only then. -/
def Params.full : Params where
  xlen := .rv64
  fp := .fdq
  level := .zfh
  misaligned := .trap
  mem := [⟨0, 2 ^ 64⟩]
  fsTracking := .precise
  trap := .mmode
  resetPc := 0

/-- FREE VALUE (log entry 5). With `FS_TRACKING` = eager, whether the n-th completed floating-point instruction leaves
`FS` Dirty; R32 and U7 leave it free, so it has no body and nothing can be proved of it. `State.freeCount` is the n. -/
opaque Config.fsTurnsDirty : Nat → Bool

end Sys2Proof
end

