-- ==== Sys2Proof/Syntax.lean ====
section
/-! DEFINITION. The instructions: one constructor of `Instr` per row of spec/opcode_table.json, the 36 of Zfh in the
order of R93 and then the 15 of the host subset in the order of the table. -/

namespace Sys2Proof

/-- The number of an integer register `x[0]` to `x[31]` (R20). -/
abbrev XReg := BitVec 5

/-- The number of a floating-point register `f[0]` to `f[31]` (R24). -/
abbrev FReg := BitVec 5

/-- The `rm` field of an instruction whose figure says "RM" (R92, R117), reserved codes included: such a word
matches its row of R93 and is turned down later, by `RM(inst)`. -/
inductive RmField where
  | rne
  | rtz
  | rdn
  | rup
  | rmm
  /-- 0b101, reserved (R98) -/
  | rsv5
  /-- 0b110, reserved (R98) -/
  | rsv6
  /-- 0b111: use the mode held in `frm` -/
  | dyn
deriving DecidableEq, Repr

/-- The instructions of the opcode table. A field named `rd`, `rs1`, `rs2` or `rs3` has type `FReg` where it indexes
`f` and `XReg` where it indexes `x` (R20, R83, R84). -/
inductive Instr where
  -- R150, R151: load and store
  | flh (rd : FReg) (rs1 : XReg) (imm : BitVec 12)
  | fsh (rs2 : FReg) (rs1 : XReg) (imm : BitVec 12)
  -- R170 to R173: fused multiply-add
  | fmaddH (rd rs1 rs2 rs3 : FReg) (rm : RmField)
  | fmsubH (rd rs1 rs2 rs3 : FReg) (rm : RmField)
  | fnmsubH (rd rs1 rs2 rs3 : FReg) (rm : RmField)
  | fnmaddH (rd rs1 rs2 rs3 : FReg) (rm : RmField)
  -- R161 to R165: arithmetic
  | faddH (rd rs1 rs2 : FReg) (rm : RmField)
  | fsubH (rd rs1 rs2 : FReg) (rm : RmField)
  | fmulH (rd rs1 rs2 : FReg) (rm : RmField)
  | fdivH (rd rs1 rs2 : FReg) (rm : RmField)
  | fsqrtH (rd rs1 : FReg) (rm : RmField)
  -- R210 to R212: sign injection
  | fsgnjH (rd rs1 rs2 : FReg)
  | fsgnjnH (rd rs1 rs2 : FReg)
  | fsgnjxH (rd rs1 rs2 : FReg)
  -- R166, R167: minimum and maximum
  | fminH (rd rs1 rs2 : FReg)
  | fmaxH (rd rs1 rs2 : FReg)
  -- R200 to R205: conversions between floating-point formats
  | fcvtSH (rd rs1 : FReg) (rm : RmField)
  | fcvtHS (rd rs1 : FReg) (rm : RmField)
  | fcvtDH (rd rs1 : FReg) (rm : RmField)
  | fcvtHD (rd rs1 : FReg) (rm : RmField)
  | fcvtQH (rd rs1 : FReg) (rm : RmField)
  | fcvtHQ (rd rs1 : FReg) (rm : RmField)
  -- R241 to R243: compares
  | fleH (rd : XReg) (rs1 rs2 : FReg)
  | fltH (rd : XReg) (rs1 rs2 : FReg)
  | feqH (rd : XReg) (rs1 rs2 : FReg)
  -- R191 to R194: half precision to integer
  | fcvtWH (rd : XReg) (rs1 : FReg) (rm : RmField)
  | fcvtWUH (rd : XReg) (rs1 : FReg) (rm : RmField)
  | fcvtLH (rd : XReg) (rs1 : FReg) (rm : RmField)
  | fcvtLUH (rd : XReg) (rs1 : FReg) (rm : RmField)
  -- R195 to R198: integer to half precision
  | fcvtHW (rd : FReg) (rs1 : XReg) (rm : RmField)
  | fcvtHWU (rd : FReg) (rs1 : XReg) (rm : RmField)
  | fcvtHL (rd : FReg) (rs1 : XReg) (rm : RmField)
  | fcvtHLU (rd : FReg) (rs1 : XReg) (rm : RmField)
  -- R220, R250, R221: moves and classify
  | fmvXH (rd : XReg) (rs1 : FReg)
  | fclassH (rd : XReg) (rs1 : FReg)
  | fmvHX (rd : FReg) (rs1 : XReg)
  -- R271 to R276: host subset, integer
  | lui (rd : XReg) (imm : BitVec 20)
  | addi (rd rs1 : XReg) (imm : BitVec 12)
  | add (rd rs1 rs2 : XReg)
  /-- `off` is the byte offset; an encoding exists only for an even one (R274) -/
  | beq (rs1 rs2 : XReg) (off : BitVec 13)
  /-- `off` as for `beq` (R275) -/
  | bne (rs1 rs2 : XReg) (off : BitVec 13)
  /-- `off` is the byte offset; an encoding exists only for an even one (R276) -/
  | jal (rd : XReg) (off : BitVec 21)
  -- R278 to R283: host subset, CSR access
  | csrrw (rd : XReg) (csr : BitVec 12) (rs1 : XReg)
  | csrrs (rd : XReg) (csr : BitVec 12) (rs1 : XReg)
  | csrrc (rd : XReg) (csr : BitVec 12) (rs1 : XReg)
  | csrrwi (rd : XReg) (csr : BitVec 12) (uimm : BitVec 5)
  | csrrsi (rd : XReg) (csr : BitVec 12) (uimm : BitVec 5)
  | csrrci (rd : XReg) (csr : BitVec 12) (uimm : BitVec 5)
  -- R284, R285, R288: host subset, environment
  | ecall
  | ebreak
  | mret
deriving DecidableEq, Repr

end Sys2Proof
end

