-- ==== Sys2Proof/Machine/Platform.lean ====
section
/-! DEFINITION. What the parameters of R8 mean: widths, arithmetic modulo 2^XLEN, which bytes exist, which
instructions exist. -/

namespace Sys2Proof

/-- XLEN (R8). -/
def Params.xbits (p : Params) : Nat :=
  match p.xlen with
  | .rv32 => 32
  | .rv64 => 64

/-- `hasD` (R8). -/
def Params.hasD (p : Params) : Bool :=
  match p.fp with
  | .f => false
  | .fd | .fdq => true

/-- `hasQ` (R8). -/
def Params.hasQ (p : Params) : Bool :=
  match p.fp with
  | .f | .fd => false
  | .fdq => true

/-- FLEN: 32, 64 or 128 (R8). -/
def Params.flen (p : Params) : Nat :=
  match p.fp with
  | .f => 32
  | .fd => 64
  | .fdq => 128

/-- `trunc_XLEN` (R11): the value modulo 2^XLEN. -/
def Params.truncX (p : Params) (v : Word) : Word := (v.setWidth p.xbits).setWidth 64

/-- `sext_XLEN` (R11). -/
def Params.sextX {n : Nat} (p : Params) (v : BitVec n) : Word := p.truncX (v.signExtend 64)

/-- `zext_XLEN` (R11). -/
def Params.zextX {n : Nat} (p : Params) (v : BitVec n) : Word := p.truncX (v.setWidth 64)

/-- The value modulo 2^FLEN: what a floating-point register can hold (R24). -/
def Params.truncF (p : Params) (v : FWord) : FWord := (v.setWidth p.flen).setWidth 128

/-- The address lies in the region. -/
def Region.contains (r : Region) (a : Nat) : Bool := r.base ≤ a && a < r.base + r.size

/-- Membership in the parameter `Mem`, a set of byte addresses in `[0, 2^XLEN)` (R8, R35). -/
def Params.inMem (p : Params) (a : Nat) : Bool := a < 2 ^ p.xbits && p.mem.any (·.contains a)

/-- Whether the instruction exists on the hart: the table of R9 for the 36 of Zfh, R288 for MRET; every other
instruction of the host subset always exists. -/
def Instr.existsOn (p : Params) : Instr → Bool
  | .flh .. | .fsh .. | .fmvXH .. | .fmvHX .. | .fcvtSH .. | .fcvtHS .. => true
  | .fcvtDH .. | .fcvtHD .. => p.hasD
  | .fcvtQH .. | .fcvtHQ .. => p.hasQ
  | .faddH .. | .fsubH .. | .fmulH .. | .fdivH .. | .fsqrtH .. | .fminH .. | .fmaxH .. | .fmaddH .. | .fmsubH ..
  | .fnmsubH .. | .fnmaddH .. | .fsgnjH .. | .fsgnjnH .. | .fsgnjxH .. | .feqH .. | .fltH .. | .fleH .. | .fclassH ..
  | .fcvtWH .. | .fcvtWUH .. | .fcvtHW .. | .fcvtHWU .. => p.level == .zfh
  | .fcvtLH .. | .fcvtLUH .. | .fcvtHL .. | .fcvtHLU .. => p.level == .zfh && p.xlen == .rv64
  | .mret => p.trap == .mmode
  | .lui .. | .addi .. | .add .. | .beq .. | .bne .. | .jal .. | .csrrw .. | .csrrs .. | .csrrc .. | .csrrwi ..
  | .csrrsi .. | .csrrci .. | .ecall | .ebreak => true

end Sys2Proof
end

