-- ==== Sys2Proof/Machine/State.lean ====
section
/-! DEFINITION. The state of one hart (the table at the head of 10_state.md), the exceptions of R300, the reasons a
step can stop, and the state after reset (R340). -/

namespace Sys2Proof.Machine

/-- Memory: the listed bytes, addresses strictly rising, no listed byte equal to what an unlisted address reads as
(`Memory.wf` in `Sys2Proof/Machine/Memory.lean`). -/
abbrev Memory := List Host.Cell

/-- A synchronous exception with its info value (R300). -/
inductive Exception where
  /-- code 0; info: the misaligned target address -/
  | instructionAddressMisaligned (target : Word)
  /-- code 1; info: `pc` -/
  | instructionAccessFault (pc : Word)
  /-- code 2; info: the instruction word (R302, decision D12) -/
  | illegalInstruction (inst : InstWord)
  /-- code 3; info: `pc` of the EBREAK -/
  | breakpoint (pc : Word)
  /-- code 4; info: the effective address -/
  | loadAddressMisaligned (addr : Word)
  /-- code 5; info: the address R55 names -/
  | loadAccessFault (addr : Word)
  /-- code 6; info: the effective address -/
  | storeAddressMisaligned (addr : Word)
  /-- code 7; info: the address R56 names -/
  | storeAccessFault (addr : Word)
  /-- code 11; info: 0 -/
  | environmentCallFromMMode
deriving DecidableEq, Repr

/-- The trap record `(E, info, pc)` that an exception leaves with `TRAP` = fault (R306); `E` carries its info. -/
structure TrapRecord where
  cause : Exception
  pc : Word
deriving DecidableEq, Repr

/-- The whole state of one hart. The privilege mode has no field: it is M and cannot change (R305). -/
structure State where
  /-- the parameters of R8, fixed for a whole run: no step changes this field -/
  params : Params
  /-- R22 -/
  pc : Word
  /-- `x[0]` to `x[31]` (R20); read and written through `State.readX` and `State.writeX` only -/
  x : Vector Word 32
  /-- `f[0]` to `f[31]` (R24); read and written through `State.readF` and `State.writeF` only -/
  f : Vector FWord 32
  /-- the 8 live bits of `fcsr`: `frm` in bits 7:5, `fflags` in bits 4:0 (R26); `fcsr[31:8]` is hardwired to zero (R33) -/
  fcsr : BitVec 8
  /-- `mstatus.FS` (R31), the one field of `mstatus` the machine holds -/
  fs : BitVec 2
  /-- R35 -/
  mem : Memory
  /-- the model's own field: the byte addresses stored to since the program was loaded, strictly rising; a fetch of one
  is refused, as R63 demands -/
  stored : List Nat
  /-- `TRAP` = fault: the trap record, once an exception has stopped the machine (R306) -/
  trap : Option TrapRecord
  /-- `TRAP` = mmode: R286, R307 -/
  mtvec : Word
  mepc : Word
  mcause : Word
  mtval : Word
  /-- the model's own field: how many free values of `Config.fsTurnsDirty` have been used -/
  freeCount : Nat
deriving DecidableEq, Repr

/-- Why the machine stops with a fault. -/
inductive Fault where
  /-- Raised by `step`, never by an instruction: with `TRAP` = fault an exception has left its record and "No further
  instruction executes" (R306). SAFE: the machine of the spec stops here too. -/
  | stopped (record : TrapRecord)
deriving DecidableEq, Repr

/-- Why the model gives a step no meaning. -/
inductive Refusal where
  /-- Raised by an arm of `exec` whose instruction has no meaning yet (no arm is, now). SAFE: the model stops where the
  hardware goes on. -/
  | notModelled (mnemonic : String)
  /-- Raised by `step` when one of the four bytes to fetch, the first of them at `addr`, was stored to by the program:
  R63 wants a fault or a refusal here, not the old or the new bytes. SAFE: the model stops where the hardware goes on. -/
  | fetchOfStoredByte (addr : Nat)
deriving DecidableEq, Repr

/-- The outcome of one step of this machine. -/
abbrev Result := Host.Outcome State Fault Refusal

/-- The state after reset (R340, R37) of a hart with the parameters `p`: `pc` is `RESET_PC` and there is no trap record.
R340 leaves every other register and the memory unspecified; DESIGN CHOICE (log entries 3 and 4): all are zero. -/
def State.resetWith (p : Params) : State where
  params := p
  pc := p.truncX p.resetPc
  x := Vector.replicate 32 0
  f := Vector.replicate 32 0
  fcsr := 0
  fs := 0
  mem := []
  stored := []
  trap := none
  mtvec := 0
  mepc := 0
  mcause := 0
  mtval := 0
  freeCount := 0

/-- The state after reset of the hart `Params.full`. -/
def State.reset : State := State.resetWith Params.full

end Sys2Proof.Machine
end

