-- ==== Sys2Proof/Machine/Memory.lean ====
section
/-! DEFINITION. Reading and writing bytes, half-words and instruction words of memory, and the record of the bytes
stored to. -/

namespace Sys2Proof.Machine

/-- What an address that memory does not list reads as. R340 leaves it unspecified; DESIGN CHOICE (log entry 4): 0. -/
def unlistedByte : Byte := 0

/-- The byte at an address. -/
def Memory.read : Memory → Nat → Byte
  | [], _ => unlistedByte
  | (b, v) :: rest, a => if a = b then v else if a < b then unlistedByte else Memory.read rest a

/-- A byte in front of cells of higher address; a byte equal to the unlisted one is not listed. -/
def Memory.cons (a : Nat) (v : Byte) (rest : Memory) : Memory := if v = unlistedByte then rest else (a, v) :: rest

/-- Memory with one byte written, in canonical form again. -/
def Memory.write : Memory → Nat → Byte → Memory
  | [], a, v => Memory.cons a v []
  | (b, u) :: rest, a, v =>
    if a < b then Memory.cons a v ((b, u) :: rest)
    else if a = b then Memory.cons a v rest
    else (b, u) :: Memory.write rest a v

/-- The canonical form: addresses strictly rising, no listed byte equal to the unlisted one. -/
def Memory.wf : Memory → Bool
  | [] => true
  | (a, v) :: rest => v != unlistedByte && rest.all (a < ·.1) && Memory.wf rest

/-- The address after `a`, modulo 2^XLEN (R13). -/
def State.addrAfter (s : State) (a : Word) : Word := s.params.truncX (a + 1)

/-- `MemRead(addr, 2)` of an access that raises nothing: little-endian (R50, R13). -/
def State.readHalf (s : State) (addr : Word) : BitVec 16 :=
  s.mem.read (s.addrAfter addr).toNat ++ s.mem.read addr.toNat

/-- A set of addresses, strictly rising, with one more in it. -/
def insertAddr (a : Nat) : List Nat → List Nat
  | [] => [a]
  | b :: rest => if a < b then a :: b :: rest else if a = b then b :: rest else b :: insertAddr a rest

/-- One byte stored by the program: memory has it, and a later fetch of it is refused (R63). -/
def State.storeByte (s : State) (a : Nat) (v : Byte) : State :=
  { s with mem := s.mem.write a v, stored := insertAddr a s.stored }

/-- `MemWrite(addr, 2, h)` of an access that raises nothing: little-endian (R50, R13). -/
def State.writeHalf (s : State) (addr : Word) (h : BitVec 16) : State :=
  (s.storeByte addr.toNat (h.extractLsb' 0 8)).storeByte (s.addrAfter addr).toNat (h.extractLsb' 8 8)

/-- The four byte addresses of the instruction at `pc`, lowest first. A fetch is made from a multiple of 4 only, so
they do not wrap (R51). -/
def fetchAddrs (pc : Word) : List Nat := [pc.toNat, pc.toNat + 1, pc.toNat + 2, pc.toNat + 3]

/-- Bytes placed from outside the program (a loader), from an address up: they are memory the program has not stored. -/
def State.loadBytes (s : State) : Nat → List Byte → State
  | _, [] => s
  | a, v :: rest => State.loadBytes { s with mem := s.mem.write a v, stored := s.stored.filter (· != a) } (a + 1) rest

end Sys2Proof.Machine
end

