-- ==== Sys2Proof/Machine/Flags.lean ====
section
/-! DEFINITION. The five exception flags, `fcsr` and its two windows, accrual, and the status field `FS`. -/

namespace Sys2Proof.Machine

/-! ### The flag masks (R118) -/

/-- invalid operation -/
def flagNV : FlagSet := 0b10000
/-- divide by zero -/
def flagDZ : FlagSet := 0b01000
/-- overflow -/
def flagOF : FlagSet := 0b00100
/-- underflow -/
def flagUF : FlagSet := 0b00010
/-- inexact -/
def flagNX : FlagSet := 0b00001
/-- no flag -/
def flagNone : FlagSet := 0

/-- The flag set `fl` if the condition holds, else no flag. -/
def flagIf (c : Bool) (fl : FlagSet) : FlagSet := if c then fl else flagNone

/-! ### `fcsr` and its windows (R26 to R28) -/

/-- `fflags`, the window on `fcsr[4:0]` (R27). -/
def State.fflags (s : State) : FlagSet := s.fcsr.extractLsb' 0 5

/-- `frm`, the window on `fcsr[7:5]` (R28). -/
def State.frm (s : State) : BitVec 3 := s.fcsr.extractLsb' 5 3

/-- `accrue(fl)`: flags are set and never cleared (R30, R12). -/
def State.accrue (s : State) (fl : FlagSet) : State := { s with fcsr := s.fcsr ||| fl.setWidth 8 }

/-! ### `FS` (R31, R32) -/

/-- The value Dirty of `FS` (R31). -/
def fsDirty : BitVec 2 := 3

/-- `FS` after a floating-point instruction that completes, where `dirty` says that it wrote an `f` register or accrued
a flag (R32). With `FS_TRACKING` = eager it is a free choice between the old value and 3, whatever
`dirty` says (log entry 5). -/
def State.fsAfter (s : State) (dirty : Bool) : BitVec 2 :=
  match s.params.fsTracking with
  | .precise => if dirty then fsDirty else s.fs
  | .eager => if Config.fsTurnsDirty s.freeCount then fsDirty else s.fs

/-- The number of free values used after a floating-point instruction that completes. -/
def State.freeCountAfter (s : State) : Nat :=
  match s.params.fsTracking with
  | .precise => s.freeCount
  | .eager => s.freeCount + 1

end Sys2Proof.Machine
end

