-- ==== Sys2Proof/Machine/Numerics.lean ====
section
/-! DEFINITION. The shared floating-point numerics of 40_numerics.md: formats, classification, exact values, rounding,
and the arithmetic functions. All arithmetic is exact, on integers scaled by powers of two and on quotients and
square roots of them; it is rounded once, by `Fp.round` (R130). -/

namespace Sys2Proof.Machine

/-- The four binary interchange formats (R110). -/
inductive Format where
  | H
  | S
  | D
  | Q
deriving DecidableEq, Repr

/-- `w`, the number of exponent bits (R110). -/
def Format.expBits : Format → Nat
  | .H => 5
  | .S => 8
  | .D => 11
  | .Q => 15

/-- `t`, the number of fraction bits (R110). -/
def Format.fracBits : Format → Nat
  | .H => 10
  | .S => 23
  | .D => 52
  | .Q => 112

/-- `k`, the total width (R110). -/
@[reducible] def Format.width : Format → Nat
  | .H => 16
  | .S => 32
  | .D => 64
  | .Q => 128

/-- The bias, which is also `emax` (R110). -/
def Format.bias (F : Format) : Int := (2 ^ (F.expBits - 1) : Nat) - 1

/-- `emin` (R110). -/
def Format.emin (F : Format) : Int := 1 - F.bias

/-- `emax` (R110). -/
def Format.emax (F : Format) : Int := F.bias

namespace Fp

/-! ### Fields and classes (R111) -/

/-- A bit pattern of a format. -/
abbrev Bits (F : Format) := BitVec F.width

/-- The sign bit `a[k-1]`. -/
def sign (F : Format) (a : Bits F) : Bool := a.getLsbD (F.width - 1)

/-- The exponent field `E`. -/
def expField (F : Format) (a : Bits F) : Nat := (a.extractLsb' F.fracBits F.expBits).toNat

/-- The fraction field `T`. -/
def fracField (F : Format) (a : Bits F) : Nat := (a.extractLsb' 0 F.fracBits).toNat

/-- The pattern with the given sign, exponent field and fraction field. -/
def pack (F : Format) (s : Bool) (E T : Nat) : Bits F :=
  BitVec.ofNat F.width (s.toNat * 2 ^ (F.width - 1) + E * 2 ^ F.fracBits + T)

/-- The exponent field of infinities and NaNs, all ones. -/
def expOnes (F : Format) : Nat := 2 ^ F.expBits - 1

def isNaN (F : Format) (a : Bits F) : Bool := expField F a == expOnes F && fracField F a != 0

/-- A quiet NaN has the most significant fraction bit set. -/
def isQNaN (F : Format) (a : Bits F) : Bool := isNaN F a && a.getLsbD (F.fracBits - 1)

def isSNaN (F : Format) (a : Bits F) : Bool := isNaN F a && !a.getLsbD (F.fracBits - 1)

def isInf (F : Format) (a : Bits F) : Bool := expField F a == expOnes F && fracField F a == 0

def isZero (F : Format) (a : Bits F) : Bool := expField F a == 0 && fracField F a == 0

def isSub (F : Format) (a : Bits F) : Bool := expField F a == 0 && fracField F a != 0

def isNormal (F : Format) (a : Bits F) : Bool := expField F a != 0 && expField F a != expOnes F

/-- `neg_F`: the sign bit inverted. -/
def neg (F : Format) (a : Bits F) : Bits F := a ^^^ BitVec.twoPow F.width (F.width - 1)

/-- The canonical NaN `cNaN_F` (R112). -/
def cNaN (F : Format) : Bits F := pack F false (expOnes F) (2 ^ (F.fracBits - 1))

/-- The infinity of the given sign. -/
def inf (F : Format) (s : Bool) : Bits F := pack F s (expOnes F) 0

/-- The zero of the given sign. -/
def zero (F : Format) (s : Bool) : Bits F := pack F s 0 0

/-- The largest finite number of the given sign. -/
def maxFinite (F : Format) (s : Bool) : Bits F := pack F s (expOnes F - 1) (2 ^ F.fracBits - 1)

/-! ### Exact values -/

/-- The exact number `num * 2^exp`. -/
structure Scaled where
  num : Int
  exp : Int
deriving DecidableEq, Repr

/-- `num` at the smaller exponent `e`, so that numbers of one exponent can be added and compared. -/
def Scaled.numAt (v : Scaled) (e : Int) : Int := v.num * (2 ^ (v.exp - e).toNat : Nat)

def Scaled.add (v u : Scaled) : Scaled :=
  let e := min v.exp u.exp
  ⟨v.numAt e + u.numAt e, e⟩

def Scaled.mul (v u : Scaled) : Scaled := ⟨v.num * u.num, v.exp + u.exp⟩

def Scaled.lt (v u : Scaled) : Bool :=
  let e := min v.exp u.exp
  v.numAt e < u.numAt e

def Scaled.eq (v u : Scaled) : Bool :=
  let e := min v.exp u.exp
  v.numAt e == u.numAt e

/-- The real value `val_F(a)` of a finite pattern (R111). -/
def val (F : Format) (a : Bits F) : Scaled :=
  let magnitude : Scaled :=
    if expField F a = 0 then ⟨fracField F a, F.emin - F.fracBits⟩
    else ⟨(2 ^ F.fracBits + fracField F a : Nat), expField F a - F.bias - F.fracBits⟩
  if sign F a then ⟨-magnitude.num, magnitude.exp⟩ else magnitude

/-- The exact magnitude of a result before rounding: `n / d * 2^e`, or the square root of `n * 2^e`. -/
inductive Magnitude where
  | quot (n d : Nat) (e : Int)
  | root (n : Nat) (e : Int)
deriving DecidableEq, Repr

/-- The absolute value of an exact number. -/
def Scaled.magnitude (v : Scaled) : Magnitude := .quot v.num.natAbs 1 v.exp

/-- Where the part `r` of a number beyond its floor lies, `0 <= r < 1`. -/
inductive Rest where
  | zero
  | belowHalf
  | half
  | aboveHalf
deriving DecidableEq, Repr

/-- A number `x >= 0` as its floor and the place of `x - floor(x)`: all that `RoundInt` asks of it (R119). -/
structure Split where
  whole : Nat
  rest : Rest
deriving DecidableEq, Repr

/-- `n * 2^k` for `k >= 0`: the numerator of `n / d * 2^k`. -/
def scaleUp (n : Nat) (k : Int) : Nat := n * 2 ^ k.toNat

/-- The split of the fraction `n / d`. -/
def splitQuot (n d : Nat) : Split :=
  let r := n % d
  ⟨n / d, if r = 0 then .zero else if 2 * r < d then .belowHalf else if 2 * r = d then .half else .aboveHalf⟩

/-- The integer square root, one bit of the result for each unit of fuel: right for `n < 4^fuel`. -/
def isqrtFuel : Nat → Nat → Nat
  | 0, _ => 0
  | fuel + 1, n =>
    let r := 2 * isqrtFuel fuel (n / 4)
    if (r + 1) * (r + 1) ≤ n then r + 1 else r

/-- The integer square root. -/
def isqrt (n : Nat) : Nat := isqrtFuel (n.log2 / 2 + 1) n

/-- The split of the square root of the fraction `n / d`, by comparing the squares of its floor `w` and of `w + 1/2`
with `n / d`. -/
def splitRoot (n d : Nat) : Split :=
  let w := isqrt (n / d)
  ⟨w, if w * w * d = n then .zero
    else if 4 * n < (2 * w + 1) * (2 * w + 1) * d then .belowHalf
    else if 4 * n = (2 * w + 1) * (2 * w + 1) * d then .half
    else .aboveHalf⟩

/-- The split of `m / 2^q`. -/
def Magnitude.split (m : Magnitude) (q : Int) : Split :=
  match m with
  | .quot n d e => splitQuot (scaleUp n (e - q)) (scaleUp d (q - e))
  | .root n e => splitRoot (scaleUp n (e - 2 * q)) (scaleUp 1 (2 * q - e))

/-- `floor(log2(n / d))` for positive `n` and `d`. -/
def floorLog2Quot (n d : Nat) : Int :=
  let g : Int := (n.log2 : Int) - d.log2
  if scaleUp n (-g) < scaleUp d g then g - 1 else g

/-- `floor(log2(m))` for a positive magnitude (R120). -/
def Magnitude.floorLog2 (m : Magnitude) : Int :=
  match m with
  | .quot n d e => floorLog2Quot n d + e
  | .root n e => ((n.log2 : Int) + e) / 2

end Fp

/-! ### Rounding modes (R117) -/

/-- An effective rounding mode. -/
inductive RoundingMode where
  | RNE
  | RTZ
  | RDN
  | RUP
  | RMM
deriving DecidableEq, Repr

/-- The rounding mode of a code; 5, 6 and 7 are none (R117). -/
def RoundingMode.ofBits (b : BitVec 3) : Option RoundingMode :=
  match b.toNat with
  | 0 => some .RNE
  | 1 => some .RTZ
  | 2 => some .RDN
  | 3 => some .RUP
  | 4 => some .RMM
  | _ => none

namespace Fp

/-! ### Rounding (R119 to R122) -/

/-- Whether `RoundInt(rm, s, x)` is `floor(x) + 1` rather than `floor(x)`: the table of R119. -/
def roundsUp (rm : RoundingMode) (s : Bool) (x : Split) : Bool :=
  match rm with
  | .RNE => x.rest == .aboveHalf || (x.rest == .half && x.whole % 2 == 1)
  | .RTZ => false
  | .RDN => s && x.rest != .zero
  | .RUP => !s && x.rest != .zero
  | .RMM => x.rest == .half || x.rest == .aboveHalf

/-- `RoundInt(rm, s, x)` (R119). -/
def roundInt (rm : RoundingMode) (s : Bool) (x : Split) : Nat := if roundsUp rm s x then x.whole + 1 else x.whole

/-- `c * 2^e < 2^b`. -/
def belowPow2 (c : Nat) (e b : Int) : Bool := scaleUp c (e - b) < scaleUp 1 (b - e)

/-- `Overflow_F(rm, s)` (R121). -/
def overflow (F : Format) (rm : RoundingMode) (s : Bool) : Bits F :=
  match rm, s with
  | .RNE, _ | .RMM, _ => inf F s
  | .RTZ, _ => maxFinite F s
  | .RDN, false => maxFinite F false
  | .RDN, true => inf F true
  | .RUP, false => inf F false
  | .RUP, true => maxFinite F true

/-- Step 4 of `Round_F`: the pattern of `(-1)^s * r * 2^q`, where `0 <= r <= 2^(t+1)` (R120). -/
def encodeRounded (F : Format) (s : Bool) (r : Nat) (q : Int) : Bits F :=
  if r < 2 ^ F.fracBits then pack F s 0 r
  else if r = 2 ^ (F.fracBits + 1) then pack F s (q + 1 + F.fracBits + F.bias).toNat 0
  else pack F s (q + F.fracBits + F.bias).toNat (r - 2 ^ F.fracBits)

/-- `Round_F(rm, s, m)` for a magnitude `m > 0` (R120). Tininess is detected after rounding (R122). -/
def round (F : Format) (rm : RoundingMode) (s : Bool) (m : Magnitude) : Bits F × FlagSet :=
  let e := m.floorLog2
  -- step 1: as if the exponent range were unbounded
  let qu := e - F.fracBits
  let ru := roundInt rm s (m.split qu)
  let tiny := belowPow2 ru qu F.emin
  -- step 2: overflow
  if !belowPow2 ru qu (F.emax + 1) then (overflow F rm s, flagOF ||| flagNX)
  else
    -- step 3: to the quantum the format has at this size
    let q := max e F.emin - F.fracBits
    let x := m.split q
    let inexact := x.rest != .zero
    (encodeRounded F s (roundInt rm s x) q, flagIf inexact flagNX ||| flagIf (tiny && inexact) flagUF)

/-! ### The arithmetic functions (R123 to R129) -/

/-- NV if an operand is a signaling NaN (R123). -/
def nvIf (c : Bool) : FlagSet := flagIf c flagNV

/-- `RmZero_F(rm)` (R124). -/
def rmZero (F : Format) (rm : RoundingMode) : Bits F := zero F (rm == .RDN)

/-- An exact sum rounded, with the sign rule of R124 for an exact zero: the last two rows of R125 and of R129. -/
def roundSum (F : Format) (rm : RoundingMode) (v : Scaled) : Bits F × FlagSet :=
  if v.num = 0 then (rmZero F rm, flagNone) else round F rm (v.num < 0) v.magnitude

/-- `Add_F(rm, x, y)` (R125). -/
def add (F : Format) (rm : RoundingMode) (x y : Bits F) : Bits F × FlagSet :=
  if isNaN F x || isNaN F y then (cNaN F, nvIf (isSNaN F x || isSNaN F y))
  else if isInf F x && isInf F y && sign F x != sign F y then (cNaN F, flagNV)
  else if isInf F x then (x, flagNone)
  else if isInf F y then (y, flagNone)
  else if isZero F x && isZero F y && sign F x == sign F y then (x, flagNone)
  else if isZero F x && isZero F y then (rmZero F rm, flagNone)
  else roundSum F rm ((val F x).add (val F y))

/-- `Sub_F(rm, x, y)` (R125). -/
def sub (F : Format) (rm : RoundingMode) (x y : Bits F) : Bits F × FlagSet := add F rm x (neg F y)

/-- `Mul_F(rm, x, y)` (R126). -/
def mul (F : Format) (rm : RoundingMode) (x y : Bits F) : Bits F × FlagSet :=
  let s := sign F x ^^ sign F y
  if isNaN F x || isNaN F y then (cNaN F, nvIf (isSNaN F x || isSNaN F y))
  else if (isInf F x && isZero F y) || (isZero F x && isInf F y) then (cNaN F, flagNV)
  else if isInf F x || isInf F y then (inf F s, flagNone)
  else if isZero F x || isZero F y then (zero F s, flagNone)
  else round F rm s ((val F x).mul (val F y)).magnitude

/-- The exact quotient of the absolute values of two numbers, the second not zero. -/
def Scaled.quotient (v u : Scaled) : Magnitude := .quot v.num.natAbs u.num.natAbs (v.exp - u.exp)

/-- `Div_F(rm, x, y)` (R127). -/
def div (F : Format) (rm : RoundingMode) (x y : Bits F) : Bits F × FlagSet :=
  let s := sign F x ^^ sign F y
  if isNaN F x || isNaN F y then (cNaN F, nvIf (isSNaN F x || isSNaN F y))
  else if (isInf F x && isInf F y) || (isZero F x && isZero F y) then (cNaN F, flagNV)
  else if isInf F x then (inf F s, flagNone)
  else if isInf F y then (zero F s, flagNone)
  else if isZero F y then (inf F s, flagDZ)
  else if isZero F x then (zero F s, flagNone)
  else round F rm s ((val F x).quotient (val F y))

/-- `Sqrt_F(rm, x)` (R128). -/
def sqrt (F : Format) (rm : RoundingMode) (x : Bits F) : Bits F × FlagSet :=
  if isSNaN F x then (cNaN F, flagNV)
  else if isNaN F x then (cNaN F, flagNone)
  else if isZero F x then (x, flagNone)
  else if sign F x then (cNaN F, flagNV)
  else if isInf F x then (x, flagNone)
  else round F rm false (.root (val F x).num.natAbs (val F x).exp)

/-- `Fma_F(rm, x, y, z)`, x * y + z rounded once (R129). -/
def fma (F : Format) (rm : RoundingMode) (x y z : Bits F) : Bits F × FlagSet :=
  let sp := sign F x ^^ sign F y
  let productInf := isInf F x || isInf F y
  let productZero := isZero F x || isZero F y
  if (isInf F x && isZero F y) || (isZero F x && isInf F y) then (cNaN F, flagNV)
  else if isNaN F x || isNaN F y || isNaN F z then (cNaN F, nvIf (isSNaN F x || isSNaN F y || isSNaN F z))
  else if productInf && isInf F z && sp != sign F z then (cNaN F, flagNV)
  else if productInf then (inf F sp, flagNone)
  else if isInf F z then (z, flagNone)
  else if productZero && isZero F z && sp == sign F z then (zero F sp, flagNone)
  else if productZero && isZero F z then (rmZero F rm, flagNone)
  else roundSum F rm (((val F x).mul (val F y)).add (val F z))

/-! ### Minimum, maximum, comparison (R166, R167, R240) -/

/-- The value of a pattern that is not a NaN, as an extended real: `ord(v)` of R166. -/
inductive ExtVal where
  | negInf
  | fin (v : Scaled)
  | posInf
deriving DecidableEq, Repr

/-- `ord(v)` (R166). -/
def ord (F : Format) (a : Bits F) : ExtVal :=
  if isInf F a then (if sign F a then .negInf else .posInf) else .fin (val F a)

/-- The order of extended reals: minus infinity, the finite values, plus infinity. -/
def ExtVal.lt : ExtVal → ExtVal → Bool
  | .negInf, .negInf => false
  | .negInf, _ => true
  | .fin v, .fin u => v.lt u
  | .fin _, .posInf => true
  | _, _ => false

/-- Equality of extended reals; -0 and +0 both have the value 0. -/
def ExtVal.eq : ExtVal → ExtVal → Bool
  | .negInf, .negInf => true
  | .posInf, .posInf => true
  | .fin v, .fin u => v.eq u
  | _, _ => false

/-- FMIN's result and flags (R166). -/
def minNum (F : Format) (a b : Bits F) : Bits F × FlagSet :=
  let fl := nvIf (isSNaN F a || isSNaN F b)
  if isNaN F a && isNaN F b then (cNaN F, fl)
  else if isNaN F a then (b, fl)
  else if isNaN F b then (a, fl)
  else if (ord F a).lt (ord F b) then (a, fl)
  else if (ord F b).lt (ord F a) then (b, fl)
  else if sign F a then (a, fl)
  else (b, fl)

/-- FMAX's result and flags (R167). -/
def maxNum (F : Format) (a b : Bits F) : Bits F × FlagSet :=
  let fl := nvIf (isSNaN F a || isSNaN F b)
  if isNaN F a && isNaN F b then (cNaN F, fl)
  else if isNaN F a then (b, fl)
  else if isNaN F b then (a, fl)
  else if (ord F b).lt (ord F a) then (a, fl)
  else if (ord F a).lt (ord F b) then (b, fl)
  else if !sign F a then (a, fl)
  else (b, fl)

/-- The three comparisons of R240. -/
inductive Comparison where
  | EQ
  | LT
  | LE
deriving DecidableEq, Repr

/-- `Cmp_op(a, b)`: the outcome and the flags (R240). -/
def compare (F : Format) (op : Comparison) (a b : Bits F) : Bool × FlagSet :=
  if isNaN F a || isNaN F b then (false, nvIf (op != .EQ || isSNaN F a || isSNaN F b))
  else
    match op with
    | .EQ => ((ord F a).eq (ord F b), flagNone)
    | .LT => ((ord F a).lt (ord F b), flagNone)
    | .LE => ((ord F a).lt (ord F b) || (ord F a).eq (ord F b), flagNone)

/-! ### Classification (R250) -/

/-- The index `k` of the class of R250 that a pattern belongs to. -/
def classIndex (F : Format) (a : Bits F) : Nat :=
  if isSNaN F a then 8
  else if isQNaN F a then 9
  else if sign F a then
    if isInf F a then 0 else if isNormal F a then 1 else if isSub F a then 2 else 3
  else if isZero F a then 4 else if isSub F a then 5 else if isNormal F a then 6 else 7

/-! ### Conversions (R190, R199, R206) -/

/-- `ToInt(rm, a, N, signed)` with the least and greatest integers of the target type (R190). -/
def toInt (F : Format) (rm : RoundingMode) (a : Bits F) (lo hi : Int) : Int × FlagSet :=
  if isNaN F a then (hi, flagNV)
  else if isInf F a && !sign F a then (hi, flagNV)
  else if isInf F a then (lo, flagNV)
  else
    let x := (val F a).magnitude.split 0
    let r : Int := roundInt rm (sign F a) x
    let v := if sign F a then -r else r
    if v < lo then (lo, flagNV) else if v > hi then (hi, flagNV) else (v, flagIf (x.rest != .zero) flagNX)

/-- `FromInt(rm, n)` (R199). -/
def fromInt (F : Format) (rm : RoundingMode) (n : Int) : Bits F × FlagSet :=
  if n = 0 then (zero F false, flagNone) else round F rm (n < 0) (Scaled.magnitude ⟨n, 0⟩)

/-- `Cvt(G <- F)` (R206). -/
def convert (F G : Format) (rm : RoundingMode) (a : Bits F) : Bits G × FlagSet :=
  if isSNaN F a then (cNaN G, flagNV)
  else if isQNaN F a then (cNaN G, flagNone)
  else if isInf F a then (inf G (sign F a), flagNone)
  else if isZero F a then (zero G (sign F a), flagNone)
  else round G rm (sign F a) (val F a).magnitude

end Fp

end Sys2Proof.Machine
end

