-- ==== Sys2Proof/WellFormed.lean ====
section
/-! DEFINITION. Which terms of `Instr` have an encoding. -/

namespace Sys2Proof

/-- An instruction is well formed when the encoding can hold its operands. The register, immediate and rounding-mode
fields fill their bits exactly; the one thing a term can say that no word says is an odd branch or jump offset,
since bit 0 of those offsets is not encoded and reads as 0 (R274 to R276). -/
def Instr.wellFormed : Instr → Bool
  | .beq _ _ off => !off.getLsbD 0
  | .bne _ _ off => !off.getLsbD 0
  | .jal _ off => !off.getLsbD 0
  | .flh .. | .fsh .. | .fmaddH .. | .fmsubH .. | .fnmsubH .. | .fnmaddH .. | .faddH .. | .fsubH .. | .fmulH ..
  | .fdivH .. | .fsqrtH .. | .fsgnjH .. | .fsgnjnH .. | .fsgnjxH .. | .fminH .. | .fmaxH .. | .fcvtSH .. | .fcvtHS ..
  | .fcvtDH .. | .fcvtHD .. | .fcvtQH .. | .fcvtHQ .. | .fleH .. | .fltH .. | .feqH .. | .fcvtWH .. | .fcvtWUH ..
  | .fcvtLH .. | .fcvtLUH .. | .fcvtHW .. | .fcvtHWU .. | .fcvtHL .. | .fcvtHLU .. | .fmvXH .. | .fclassH ..
  | .fmvHX .. | .lui .. | .addi .. | .add .. | .csrrw .. | .csrrs .. | .csrrc .. | .csrrwi .. | .csrrsi ..
  | .csrrci .. | .ecall | .ebreak | .mret => true

end Sys2Proof
end

