-- ==== Sys2Proof/Decode.lean ====
section
/-! DEFINITION. Decoding instruction words by the mask and match table of R93 and of file 47, and the encoder, written
from the format figures R81 to R84 and the layouts of file 47. -/

namespace Sys2Proof

/-! ### The fields of an instruction word (R81 to R84, R91) -/

def opcodeField (w : InstWord) : BitVec 7 := w.extractLsb' 0 7

def rdField (w : InstWord) : BitVec 5 := w.extractLsb' 7 5

def funct3Field (w : InstWord) : BitVec 3 := w.extractLsb' 12 3

def rs1Field (w : InstWord) : BitVec 5 := w.extractLsb' 15 5

def rs2Field (w : InstWord) : BitVec 5 := w.extractLsb' 20 5

def funct7Field (w : InstWord) : BitVec 7 := w.extractLsb' 25 7

def rs3Field (w : InstWord) : BitVec 5 := w.extractLsb' 27 5

/-- The 12-bit immediate of FLH and ADDI, and the CSR address of the CSR instructions: `inst[31:20]`. -/
def immI (w : InstWord) : BitVec 12 := w.extractLsb' 20 12

/-- The 12-bit immediate of FSH: `{inst[31:25], inst[11:7]}` (R91). -/
def immS (w : InstWord) : BitVec 12 := w.extractLsb' 25 7 ++ w.extractLsb' 7 5

/-- The branch offset: `{inst[31], inst[7], inst[30:25], inst[11:8], 0b0}` (R274). -/
def immB (w : InstWord) : BitVec 13 :=
  w.extractLsb' 31 1 ++ w.extractLsb' 7 1 ++ w.extractLsb' 25 6 ++ w.extractLsb' 8 4 ++ 0#1

/-- The upper immediate of LUI: `inst[31:12]` (R271). -/
def immU (w : InstWord) : BitVec 20 := w.extractLsb' 12 20

/-- The jump offset: `{inst[31], inst[19:12], inst[20], inst[30:21], 0b0}` (R276). -/
def immJ (w : InstWord) : BitVec 21 :=
  w.extractLsb' 31 1 ++ w.extractLsb' 12 8 ++ w.extractLsb' 20 1 ++ w.extractLsb' 21 10 ++ 0#1

/-- The code of a rounding-mode field (R117). -/
def RmField.toBits : RmField → BitVec 3
  | .rne => 0b000
  | .rtz => 0b001
  | .rdn => 0b010
  | .rup => 0b011
  | .rmm => 0b100
  | .rsv5 => 0b101
  | .rsv6 => 0b110
  | .dyn => 0b111

/-- The rounding-mode field of a code (R117). -/
def RmField.ofBits (b : BitVec 3) : RmField :=
  match b.toNat with
  | 0 => .rne
  | 1 => .rtz
  | 2 => .rdn
  | 3 => .rup
  | 4 => .rmm
  | 5 => .rsv5
  | 6 => .rsv6
  | _ => .dyn

def rmField (w : InstWord) : RmField := RmField.ofBits (funct3Field w)

/-! ### The opcode map -/

/-- One row of the opcode map: a word `w` is the instruction exactly when `w &&& mask = pattern` (R93), and `build`
reads its operands. -/
structure OpcodeRow where
  mnemonic : String
  pattern : InstWord
  mask : InstWord
  build : InstWord → Instr

/-- The row's instruction is the one `w` stands for (R93). -/
def OpcodeRow.accepts (r : OpcodeRow) (w : InstWord) : Bool := w &&& r.mask == r.pattern

/-- R93, the load and store rows and the fused multiply-add rows. -/
def memoryAndFusedRows : List OpcodeRow := [
  ⟨"FLH", 0x00001007, 0x0000707F, fun w => .flh (rdField w) (rs1Field w) (immI w)⟩,
  ⟨"FSH", 0x00001027, 0x0000707F, fun w => .fsh (rs2Field w) (rs1Field w) (immS w)⟩,
  ⟨"FMADD.H", 0x04000043, 0x0600007F,
    fun w => .fmaddH (rdField w) (rs1Field w) (rs2Field w) (rs3Field w) (rmField w)⟩,
  ⟨"FMSUB.H", 0x04000047, 0x0600007F,
    fun w => .fmsubH (rdField w) (rs1Field w) (rs2Field w) (rs3Field w) (rmField w)⟩,
  ⟨"FNMSUB.H", 0x0400004B, 0x0600007F,
    fun w => .fnmsubH (rdField w) (rs1Field w) (rs2Field w) (rs3Field w) (rmField w)⟩,
  ⟨"FNMADD.H", 0x0400004F, 0x0600007F,
    fun w => .fnmaddH (rdField w) (rs1Field w) (rs2Field w) (rs3Field w) (rmField w)⟩]

/-- R93, the OP-FP rows from FADD.H to FMAX.H. -/
def computationalRows : List OpcodeRow := [
  ⟨"FADD.H", 0x04000053, 0xFE00007F, fun w => .faddH (rdField w) (rs1Field w) (rs2Field w) (rmField w)⟩,
  ⟨"FSUB.H", 0x0C000053, 0xFE00007F, fun w => .fsubH (rdField w) (rs1Field w) (rs2Field w) (rmField w)⟩,
  ⟨"FMUL.H", 0x14000053, 0xFE00007F, fun w => .fmulH (rdField w) (rs1Field w) (rs2Field w) (rmField w)⟩,
  ⟨"FDIV.H", 0x1C000053, 0xFE00007F, fun w => .fdivH (rdField w) (rs1Field w) (rs2Field w) (rmField w)⟩,
  ⟨"FSQRT.H", 0x5C000053, 0xFFF0007F, fun w => .fsqrtH (rdField w) (rs1Field w) (rmField w)⟩,
  ⟨"FSGNJ.H", 0x24000053, 0xFE00707F, fun w => .fsgnjH (rdField w) (rs1Field w) (rs2Field w)⟩,
  ⟨"FSGNJN.H", 0x24001053, 0xFE00707F, fun w => .fsgnjnH (rdField w) (rs1Field w) (rs2Field w)⟩,
  ⟨"FSGNJX.H", 0x24002053, 0xFE00707F, fun w => .fsgnjxH (rdField w) (rs1Field w) (rs2Field w)⟩,
  ⟨"FMIN.H", 0x2C000053, 0xFE00707F, fun w => .fminH (rdField w) (rs1Field w) (rs2Field w)⟩,
  ⟨"FMAX.H", 0x2C001053, 0xFE00707F, fun w => .fmaxH (rdField w) (rs1Field w) (rs2Field w)⟩]

/-- R93, the OP-FP rows that convert, move, compare and classify. -/
def convertAndCompareRows : List OpcodeRow := [
  ⟨"FCVT.S.H", 0x40200053, 0xFFF0007F, fun w => .fcvtSH (rdField w) (rs1Field w) (rmField w)⟩,
  ⟨"FCVT.H.S", 0x44000053, 0xFFF0007F, fun w => .fcvtHS (rdField w) (rs1Field w) (rmField w)⟩,
  ⟨"FCVT.D.H", 0x42200053, 0xFFF0007F, fun w => .fcvtDH (rdField w) (rs1Field w) (rmField w)⟩,
  ⟨"FCVT.H.D", 0x44100053, 0xFFF0007F, fun w => .fcvtHD (rdField w) (rs1Field w) (rmField w)⟩,
  ⟨"FCVT.Q.H", 0x46200053, 0xFFF0007F, fun w => .fcvtQH (rdField w) (rs1Field w) (rmField w)⟩,
  ⟨"FCVT.H.Q", 0x44300053, 0xFFF0007F, fun w => .fcvtHQ (rdField w) (rs1Field w) (rmField w)⟩,
  ⟨"FLE.H", 0xA4000053, 0xFE00707F, fun w => .fleH (rdField w) (rs1Field w) (rs2Field w)⟩,
  ⟨"FLT.H", 0xA4001053, 0xFE00707F, fun w => .fltH (rdField w) (rs1Field w) (rs2Field w)⟩,
  ⟨"FEQ.H", 0xA4002053, 0xFE00707F, fun w => .feqH (rdField w) (rs1Field w) (rs2Field w)⟩,
  ⟨"FCVT.W.H", 0xC4000053, 0xFFF0007F, fun w => .fcvtWH (rdField w) (rs1Field w) (rmField w)⟩,
  ⟨"FCVT.WU.H", 0xC4100053, 0xFFF0007F, fun w => .fcvtWUH (rdField w) (rs1Field w) (rmField w)⟩,
  ⟨"FCVT.L.H", 0xC4200053, 0xFFF0007F, fun w => .fcvtLH (rdField w) (rs1Field w) (rmField w)⟩,
  ⟨"FCVT.LU.H", 0xC4300053, 0xFFF0007F, fun w => .fcvtLUH (rdField w) (rs1Field w) (rmField w)⟩,
  ⟨"FCVT.H.W", 0xD4000053, 0xFFF0007F, fun w => .fcvtHW (rdField w) (rs1Field w) (rmField w)⟩,
  ⟨"FCVT.H.WU", 0xD4100053, 0xFFF0007F, fun w => .fcvtHWU (rdField w) (rs1Field w) (rmField w)⟩,
  ⟨"FCVT.H.L", 0xD4200053, 0xFFF0007F, fun w => .fcvtHL (rdField w) (rs1Field w) (rmField w)⟩,
  ⟨"FCVT.H.LU", 0xD4300053, 0xFFF0007F, fun w => .fcvtHLU (rdField w) (rs1Field w) (rmField w)⟩,
  ⟨"FMV.X.H", 0xE4000053, 0xFFF0707F, fun w => .fmvXH (rdField w) (rs1Field w)⟩,
  ⟨"FCLASS.H", 0xE4001053, 0xFFF0707F, fun w => .fclassH (rdField w) (rs1Field w)⟩,
  ⟨"FMV.H.X", 0xF4000053, 0xFFF0707F, fun w => .fmvHX (rdField w) (rs1Field w)⟩]

/-- The 36 rows of R93. -/
def zfhRows : List OpcodeRow := memoryAndFusedRows ++ computationalRows ++ convertAndCompareRows

/-- The 15 rows of the host subset (R271 to R276, R278 to R285, R288). -/
def hostRows : List OpcodeRow := [
  ⟨"LUI", 0x00000037, 0x0000007F, fun w => .lui (rdField w) (immU w)⟩,
  ⟨"ADDI", 0x00000013, 0x0000707F, fun w => .addi (rdField w) (rs1Field w) (immI w)⟩,
  ⟨"ADD", 0x00000033, 0xFE00707F, fun w => .add (rdField w) (rs1Field w) (rs2Field w)⟩,
  ⟨"BEQ", 0x00000063, 0x0000707F, fun w => .beq (rs1Field w) (rs2Field w) (immB w)⟩,
  ⟨"BNE", 0x00001063, 0x0000707F, fun w => .bne (rs1Field w) (rs2Field w) (immB w)⟩,
  ⟨"JAL", 0x0000006F, 0x0000007F, fun w => .jal (rdField w) (immJ w)⟩,
  ⟨"CSRRW", 0x00001073, 0x0000707F, fun w => .csrrw (rdField w) (immI w) (rs1Field w)⟩,
  ⟨"CSRRS", 0x00002073, 0x0000707F, fun w => .csrrs (rdField w) (immI w) (rs1Field w)⟩,
  ⟨"CSRRC", 0x00003073, 0x0000707F, fun w => .csrrc (rdField w) (immI w) (rs1Field w)⟩,
  ⟨"CSRRWI", 0x00005073, 0x0000707F, fun w => .csrrwi (rdField w) (immI w) (rs1Field w)⟩,
  ⟨"CSRRSI", 0x00006073, 0x0000707F, fun w => .csrrsi (rdField w) (immI w) (rs1Field w)⟩,
  ⟨"CSRRCI", 0x00007073, 0x0000707F, fun w => .csrrci (rdField w) (immI w) (rs1Field w)⟩,
  ⟨"ECALL", 0x00000073, 0xFFFFFFFF, fun _ => .ecall⟩,
  ⟨"EBREAK", 0x00100073, 0xFFFFFFFF, fun _ => .ebreak⟩,
  ⟨"MRET", 0x30200073, 0xFFFFFFFF, fun _ => .mret⟩]

/-- Every row, the 36 of Zfh first (decision D13). -/
def opcodeRows : List OpcodeRow := zfhRows ++ hostRows

/-! ### Decoding (R94, R97) -/

/-- Why bytes do not decode. None of these is a stop of the machine: a fetched word that no row accepts raises
`IllegalInstruction` (R301 cause 1). -/
inductive DecodeError where
  /-- fewer than the four bytes of an instruction (R80) -/
  | truncated
  /-- LOAD-FP or STORE-FP with a `width` this extension does not define (R97) -/
  | reservedWidth (w : InstWord)
  /-- a fused multiply-add opcode with a `fmt` other than H -/
  | reservedFusedFormat (w : InstWord)
  /-- an OP-FP word that no row accepts (R97) -/
  | reservedOpFp (w : InstWord)
  /-- SYSTEM, ADDI's, ADD's or the branches' opcode with fields that no row of the host subset has -/
  | outsideHostSubset (w : InstWord)
  /-- any other word: an encoding of the base ISA or of another extension, outside the spec (U16) -/
  | outsideSpec (w : InstWord)
deriving DecidableEq, Repr

/-- The name of the space a word that no row accepts lies in (R86, R97). -/
def undecodable (w : InstWord) : DecodeError :=
  match (opcodeField w).toNat with
  | 0x07 | 0x27 => .reservedWidth w
  | 0x43 | 0x47 | 0x4B | 0x4F => .reservedFusedFormat w
  | 0x53 => .reservedOpFp w
  | 0x13 | 0x33 | 0x63 | 0x73 => .outsideHostSubset w
  | _ => .outsideSpec w

/-- R94 step 1: find the row that accepts the word. Whether the instruction exists on the hart is asked later, where
the parameters are known. -/
def decodeWord (w : InstWord) : Except DecodeError Instr :=
  match opcodeRows.find? (·.accepts w) with
  | some row => .ok (row.build w)
  | none => .error (undecodable w)

/-- The word of four bytes, lowest address first: instruction fetch is little-endian (R51). -/
def wordOfBytes (b0 b1 b2 b3 : Byte) : InstWord := b3 ++ b2 ++ b1 ++ b0

/-- The four bytes of a word, lowest address first (R51). -/
def bytesOfWord (w : InstWord) : List Byte :=
  [w.extractLsb' 0 8, w.extractLsb' 8 8, w.extractLsb' 16 8, w.extractLsb' 24 8]

/-- Decodes the instruction at the head of a byte list and answers the bytes after it. -/
def decode : List Byte → Except DecodeError (Instr × List Byte)
  | b0 :: b1 :: b2 :: b3 :: rest =>
    match decodeWord (wordOfBytes b0 b1 b2 b3) with
    | .ok i => .ok (i, rest)
    | .error e => .error e
  | _ => .error .truncated

/-- The instruction read from an instruction of the opcode table whose low `nbits` bits are `w` and whose other bits
are 0: the word is laid out as memory holds it and given to `decode`. -/
def decodeTableWord (nbits w : Nat) : Option Instr :=
  match decode (bytesOfWord (BitVec.ofNat 32 (w % 2 ^ nbits))) with
  | .ok (i, _) => some i
  | .error _ => none

/-! ### Encoding -/

/-- The I-type layout (R81). -/
def encodeI (imm : BitVec 12) (rs1 : BitVec 5) (f3 : BitVec 3) (rd : BitVec 5) (op : BitVec 7) : InstWord :=
  imm ++ rs1 ++ f3 ++ rd ++ op

/-- The S-type layout (R82). -/
def encodeS (imm : BitVec 12) (rs2 rs1 : BitVec 5) (f3 : BitVec 3) (op : BitVec 7) : InstWord :=
  imm.extractLsb' 5 7 ++ rs2 ++ rs1 ++ f3 ++ imm.extractLsb' 0 5 ++ op

/-- The R-type layout, `funct7` being `{funct5, fmt}` in an OP-FP instruction (R83). -/
def encodeR (f7 : BitVec 7) (rs2 rs1 : BitVec 5) (f3 : BitVec 3) (rd : BitVec 5) (op : BitVec 7) : InstWord :=
  f7 ++ rs2 ++ rs1 ++ f3 ++ rd ++ op

/-- The U-type layout (file 47). -/
def encodeU (imm : BitVec 20) (rd : BitVec 5) (op : BitVec 7) : InstWord := imm ++ rd ++ op

/-- The B-type layout (file 47); bit 0 of the offset has no place in the word. -/
def encodeB (off : BitVec 13) (rs2 rs1 : BitVec 5) (f3 : BitVec 3) : InstWord :=
  off.extractLsb' 12 1 ++ off.extractLsb' 5 6 ++ rs2 ++ rs1 ++ f3 ++ off.extractLsb' 1 4 ++ off.extractLsb' 11 1 ++
    0b1100011#7

/-- The J-type layout (file 47); bit 0 of the offset has no place in the word. -/
def encodeJ (off : BitVec 21) (rd : BitVec 5) : InstWord :=
  off.extractLsb' 20 1 ++ off.extractLsb' 1 10 ++ off.extractLsb' 11 1 ++ off.extractLsb' 12 8 ++ rd ++ 0b1101111#7

/-- An OP-FP instruction with `fmt` = H, the format code 0b10 of Table 15.1 (R83, R85). -/
def encodeOpFpH (funct5 rs2 rs1 : BitVec 5) (rm : BitVec 3) (rd : BitVec 5) : InstWord :=
  encodeR (funct5 ++ 0b10#2) rs2 rs1 rm rd 0b1010011

/-- A conversion between floating-point formats: `fmt` is the result's format code and `rs2` the source's (R83, R88, R90). -/
def encodeFcvtFp (fmt : BitVec 2) (source : BitVec 5) (rs1 : BitVec 5) (rm : BitVec 3) (rd : BitVec 5) : InstWord :=
  encodeR (0b01000#5 ++ fmt) source rs1 rm rd 0b1010011

/-- A fused multiply-add with `fmt` = H (R84). -/
def encodeFused (rs3 rs2 rs1 : BitVec 5) (rm : BitVec 3) (rd : BitVec 5) (op : BitVec 7) : InstWord :=
  encodeR (rs3 ++ 0b10#2) rs2 rs1 rm rd op

/-- A CSR instruction (R277). -/
def encodeCsr (csr : BitVec 12) (source : BitVec 5) (f3 : BitVec 3) (rd : BitVec 5) : InstWord :=
  encodeI csr source f3 rd 0b1110011

/-- The word of an instruction: the formats of R81 to R84 and file 47 with the codes of R86 to R90. -/
def encode : Instr → InstWord
  | .flh rd rs1 imm => encodeI imm rs1 0b001 rd 0b0000111
  | .fsh rs2 rs1 imm => encodeS imm rs2 rs1 0b001 0b0100111
  | .fmaddH rd rs1 rs2 rs3 rm => encodeFused rs3 rs2 rs1 rm.toBits rd 0b1000011
  | .fmsubH rd rs1 rs2 rs3 rm => encodeFused rs3 rs2 rs1 rm.toBits rd 0b1000111
  | .fnmsubH rd rs1 rs2 rs3 rm => encodeFused rs3 rs2 rs1 rm.toBits rd 0b1001011
  | .fnmaddH rd rs1 rs2 rs3 rm => encodeFused rs3 rs2 rs1 rm.toBits rd 0b1001111
  | .faddH rd rs1 rs2 rm => encodeOpFpH 0b00000 rs2 rs1 rm.toBits rd
  | .fsubH rd rs1 rs2 rm => encodeOpFpH 0b00001 rs2 rs1 rm.toBits rd
  | .fmulH rd rs1 rs2 rm => encodeOpFpH 0b00010 rs2 rs1 rm.toBits rd
  | .fdivH rd rs1 rs2 rm => encodeOpFpH 0b00011 rs2 rs1 rm.toBits rd
  | .fsqrtH rd rs1 rm => encodeOpFpH 0b01011 0b00000 rs1 rm.toBits rd
  | .fsgnjH rd rs1 rs2 => encodeOpFpH 0b00100 rs2 rs1 0b000 rd
  | .fsgnjnH rd rs1 rs2 => encodeOpFpH 0b00100 rs2 rs1 0b001 rd
  | .fsgnjxH rd rs1 rs2 => encodeOpFpH 0b00100 rs2 rs1 0b010 rd
  | .fminH rd rs1 rs2 => encodeOpFpH 0b00101 rs2 rs1 0b000 rd
  | .fmaxH rd rs1 rs2 => encodeOpFpH 0b00101 rs2 rs1 0b001 rd
  | .fcvtSH rd rs1 rm => encodeFcvtFp 0b00 0b00010 rs1 rm.toBits rd
  | .fcvtHS rd rs1 rm => encodeFcvtFp 0b10 0b00000 rs1 rm.toBits rd
  | .fcvtDH rd rs1 rm => encodeFcvtFp 0b01 0b00010 rs1 rm.toBits rd
  | .fcvtHD rd rs1 rm => encodeFcvtFp 0b10 0b00001 rs1 rm.toBits rd
  | .fcvtQH rd rs1 rm => encodeFcvtFp 0b11 0b00010 rs1 rm.toBits rd
  | .fcvtHQ rd rs1 rm => encodeFcvtFp 0b10 0b00011 rs1 rm.toBits rd
  | .fleH rd rs1 rs2 => encodeOpFpH 0b10100 rs2 rs1 0b000 rd
  | .fltH rd rs1 rs2 => encodeOpFpH 0b10100 rs2 rs1 0b001 rd
  | .feqH rd rs1 rs2 => encodeOpFpH 0b10100 rs2 rs1 0b010 rd
  | .fcvtWH rd rs1 rm => encodeOpFpH 0b11000 0b00000 rs1 rm.toBits rd
  | .fcvtWUH rd rs1 rm => encodeOpFpH 0b11000 0b00001 rs1 rm.toBits rd
  | .fcvtLH rd rs1 rm => encodeOpFpH 0b11000 0b00010 rs1 rm.toBits rd
  | .fcvtLUH rd rs1 rm => encodeOpFpH 0b11000 0b00011 rs1 rm.toBits rd
  | .fcvtHW rd rs1 rm => encodeOpFpH 0b11010 0b00000 rs1 rm.toBits rd
  | .fcvtHWU rd rs1 rm => encodeOpFpH 0b11010 0b00001 rs1 rm.toBits rd
  | .fcvtHL rd rs1 rm => encodeOpFpH 0b11010 0b00010 rs1 rm.toBits rd
  | .fcvtHLU rd rs1 rm => encodeOpFpH 0b11010 0b00011 rs1 rm.toBits rd
  | .fmvXH rd rs1 => encodeOpFpH 0b11100 0b00000 rs1 0b000 rd
  | .fclassH rd rs1 => encodeOpFpH 0b11100 0b00000 rs1 0b001 rd
  | .fmvHX rd rs1 => encodeOpFpH 0b11110 0b00000 rs1 0b000 rd
  | .lui rd imm => encodeU imm rd 0b0110111
  | .addi rd rs1 imm => encodeI imm rs1 0b000 rd 0b0010011
  | .add rd rs1 rs2 => encodeR 0b0000000 rs2 rs1 0b000 rd 0b0110011
  | .beq rs1 rs2 off => encodeB off rs2 rs1 0b000
  | .bne rs1 rs2 off => encodeB off rs2 rs1 0b001
  | .jal rd off => encodeJ off rd
  | .csrrw rd csr rs1 => encodeCsr csr rs1 0b001 rd
  | .csrrs rd csr rs1 => encodeCsr csr rs1 0b010 rd
  | .csrrc rd csr rs1 => encodeCsr csr rs1 0b011 rd
  | .csrrwi rd csr uimm => encodeCsr csr uimm 0b101 rd
  | .csrrsi rd csr uimm => encodeCsr csr uimm 0b110 rd
  | .csrrci rd csr uimm => encodeCsr csr uimm 0b111 rd
  | .ecall => 0x00000073
  | .ebreak => 0x00100073
  | .mret => 0x30200073

end Sys2Proof
end

