-- ==== Sys2Proof/Machine/Ops.lean ====
section
/-! DEFINITION. The named operations over registers and traps: reading and writing `x` and `f`, taking an exception and
returning from one, and the ways an instruction completes. -/

namespace Sys2Proof.Machine

/-! ### Register files (R12, R20, R24) -/

/-- `x[r]`: `x[0]` reads as zero (R20). -/
def State.readX (s : State) (r : XReg) : Word := if r = 0 then 0 else s.params.truncX s.x[r.toNat]

/-- `x[r] <- v`: a write to `x[0]` is discarded (R20). -/
def State.writeX (s : State) (r : XReg) (v : Word) : State :=
  if r = 0 then s else { s with x := s.x.set r.toNat (s.params.truncX v) }

/-- `f[r]`: all 32 are ordinary registers (R24). -/
def State.readF (s : State) (r : FReg) : FWord := s.params.truncF s.f[r.toNat]

/-- `f[r] <- v`. That it makes the floating-point state dirty is said where the instruction completes (R12, R32). -/
def State.writeF (s : State) (r : FReg) (v : FWord) : State :=
  { s with f := s.f.set r.toNat (s.params.truncF v) }

/-! ### Exceptions (R300, R306, R307, R309) -/

/-- The code recorded in `mcause` (R300). -/
def Exception.code : Exception → Nat
  | .instructionAddressMisaligned _ => 0
  | .instructionAccessFault _ => 1
  | .illegalInstruction _ => 2
  | .breakpoint _ => 3
  | .loadAddressMisaligned _ => 4
  | .loadAccessFault _ => 5
  | .storeAddressMisaligned _ => 6
  | .storeAccessFault _ => 7
  | .environmentCallFromMMode => 11

/-- The info value recorded in `mtval`, before its zero extension to XLEN bits (R300, R302). -/
def Exception.info : Exception → Word
  | .instructionAddressMisaligned target => target
  | .instructionAccessFault pc => pc
  | .illegalInstruction inst => inst.setWidth 64
  | .breakpoint pc => pc
  | .loadAddressMisaligned addr => addr
  | .loadAccessFault addr => addr
  | .storeAddressMisaligned addr => addr
  | .storeAccessFault addr => addr
  | .environmentCallFromMMode => 0

/-- A value with bits 1:0 cleared: what `mtvec` and `mepc` hold of a value written to them (R286). -/
def clearLow2 (v : Word) : Word := v &&& ~~~3#64

/-- `raise E(info)` at the instruction at `pc`: the one operation that takes an exception. With `TRAP` = fault the
record is left and the next step stops (R306); with `TRAP` = mmode the handler is entered (R307). Nothing else changes.
DEDUCED (log entries 6 and 7): the record is a next state; bits 1:0 of `mepc` are cleared. -/
def State.raise (s : State) (e : Exception) : State :=
  match s.params.trap with
  | .fault => { s with trap := some ⟨e, s.pc⟩ }
  | .mmode =>
    { s with
      mepc := clearLow2 s.pc
      mcause := s.params.truncX (BitVec.ofNat 64 e.code)
      mtval := s.params.truncX e.info
      pc := s.mtvec }

/-- The return from an exception: `pc <- mepc` and nothing else (R288, R309). -/
def State.returnFromTrap (s : State) : State := { s with pc := s.mepc }

/-- `raise IllegalInstruction(inst)`, where `inst` is the word of the instruction being executed (R301).
DEDUCED (log entry 8): that word is `encode i`. -/
def State.illegal (s : State) (i : Instr) : State := s.raise (.illegalInstruction (encode i))

/-! ### Completing an instruction -/

/-- `pc + 4` modulo 2^XLEN (R22, decision D2). -/
def State.nextPc (s : State) : Word := s.params.truncX (s.pc + 4)

/-- `pc <- pc + 4`. -/
def State.advance (s : State) : State := { s with pc := s.nextPc }

/-- A floating-point instruction completes: `FS` as R32 says, `dirty` telling whether it wrote an `f` register or
accrued a flag, and `pc <- pc + 4`. -/
def State.completeFp (s : State) (dirty : Bool) : State :=
  { s with fs := s.fsAfter dirty, freeCount := s.freeCountAfter, pc := s.nextPc }

/-- The write-back of a floating-point instruction whose destination is `f[rd]` (R16 step 6). -/
def State.finishF (s : State) (rd : FReg) (v : FWord) (fl : FlagSet) : State :=
  ((s.writeF rd v).accrue fl).completeFp true

/-- The write-back of a floating-point instruction whose destination is `x[rd]` (R16 step 6): `FS` turns dirty only if a
flag was set. -/
def State.finishX (s : State) (rd : XReg) (v : Word) (fl : FlagSet) : State :=
  ((s.writeX rd v).accrue fl).completeFp (fl != flagNone)

end Sys2Proof.Machine
end

