-- ==== Sys2Proof/Machine/Operands.lean ====
section
/-! DEFINITION. Operand forms: NaN boxing, the effective rounding mode, the effective address and its checks, branch
targets, and the gate every floating-point instruction passes. -/

namespace Sys2Proof.Machine

/-! ### NaN boxing (R113 to R115) -/

/-- `box_F(v)`: the register image with ones above the value, up to FLEN (R113). -/
def box (p : Params) (F : Format) (v : Fp.Bits F) : FWord := (BitVec.allOnes (p.flen - F.width) ++ v).setWidth 128

/-- `unbox_F(v)`: the low bits, or the canonical NaN where the bits from the format's width up to FLEN are not all ones
(R114). -/
def unbox (p : Params) (F : Format) (v : FWord) : Fp.Bits F :=
  if v.extractLsb' F.width (p.flen - F.width) = BitVec.allOnes (p.flen - F.width) then v.setWidth F.width
  else Fp.cNaN F

/-- `unbox_F(f[r])`: an operand that is checked (R115). -/
def State.operand (s : State) (F : Format) (r : FReg) : Fp.Bits F := unbox s.params F (s.readF r)

/-- `f[r][15:0]`: FSH and FMV.X.H do not check the box (R115). -/
def State.rawHalf (s : State) (r : FReg) : BitVec 16 := (s.readF r).setWidth 16

/-! ### The gate (R16 steps 1 to 3, R94) -/

/-- `RM(inst)`: the effective rounding mode, or none where the code is reserved or `frm` holds 5, 6 or 7 (R117, R98). -/
def State.roundingMode (s : State) (rm : RmField) : Option RoundingMode :=
  RoundingMode.ofBits (if rm = .dyn then s.frm else rm.toBits)

/-- A floating-point instruction: it must exist on the hart (R9) and the unit must be on, `require_fp()` (R116);
otherwise it raises `IllegalInstruction`. -/
def State.whenFpOn (s : State) (i : Instr) (body : State) : State :=
  if i.existsOn s.params && s.fs != 0 then body else s.illegal i

/-- The same for an instruction with a rounding mode, which must be valid too (R117). -/
def State.whenRounding (s : State) (i : Instr) (rm : RmField) (body : RoundingMode → State) : State :=
  s.whenFpOn i
    (match s.roundingMode rm with
    | some r => body r
    | none => s.illegal i)

/-! ### Addresses (R52 to R56) -/

/-- The effective address of FLH and FSH, modulo 2^XLEN (R52). -/
def State.effectiveAddr (s : State) (rs1 : XReg) (imm : BitVec 12) : Word :=
  s.params.truncX (s.readX rs1 + s.params.sextX imm)

/-- What the checks of R53 to R56 say of a 2-byte access. -/
inductive HalfAccess where
  | permitted
  /-- misaligned, and `MISALIGNED` = trap -/
  | misaligned
  /-- a byte is outside `Mem`; the info value to report -/
  | outside (a : Word)
deriving DecidableEq, Repr

/-- The checks on a 2-byte access at `addr`: misaligned first (R303, decision D14), then `Mem`. An aligned access that
misses a byte reports `addr`; a misaligned one under `MISALIGNED` = split reports the first missing byte (R55).
DEDUCED (log entry 9): the order among hardware's choices is the spec's decision. -/
def State.checkHalf (s : State) (addr : Word) : HalfAccess :=
  let first := s.params.inMem addr.toNat
  let second := s.params.inMem (s.addrAfter addr).toNat
  if addr.getLsbD 0 then
    match s.params.misaligned with
    | .trap => .misaligned
    | .split => if !first then .outside addr else if !second then .outside (s.addrAfter addr) else .permitted
  else if first && second then .permitted
  else .outside addr

/-- The target of a branch or jump: `pc + off` modulo 2^XLEN (R274, R276). -/
def State.branchTarget {n : Nat} (s : State) (off : BitVec n) : Word := s.params.truncX (s.pc + s.params.sextX off)

/-! ### Integer operands of the conversions (R199) -/

/-- `sint(x[r][31:0])`. -/
def State.signed32 (s : State) (r : XReg) : Int := ((s.readX r).setWidth 32).toInt

/-- `uint(x[r][31:0])`. -/
def State.unsigned32 (s : State) (r : XReg) : Int := ((s.readX r).setWidth 32).toNat

/-- `sint(x[r])`, of an instruction that exists only with XLEN = 64. -/
def State.signed64 (s : State) (r : XReg) : Int := (s.readX r).toInt

/-- `uint(x[r])`, of an instruction that exists only with XLEN = 64. -/
def State.unsigned64 (s : State) (r : XReg) : Int := (s.readX r).toNat

end Sys2Proof.Machine
end

