-- ==== Sys2Proof/Machine/Compare.lean ====
section
/-! DEFINITION. The compares (44_compare.md) and FCLASS.H (45_classify.md). -/

namespace Sys2Proof.Machine

/-- R240: the outcome, 0 or 1, goes to `x[rd]`. -/
def State.compareHalf (s : State) (i : Instr) (rd : XReg) (rs1 rs2 : FReg) (op : Fp.Comparison) : State :=
  s.whenFpOn i
    (let result := Fp.compare .H op (s.operand .H rs1) (s.operand .H rs2)
    s.finishX rd (s.params.zextX (BitVec.ofBool result.1)) result.2)

/-- R241 -/
def execFeqH (rd : XReg) (rs1 rs2 : FReg) (s : State) : Result :=
  .next (s.compareHalf (.feqH rd rs1 rs2) rd rs1 rs2 .EQ)

/-- R242 -/
def execFltH (rd : XReg) (rs1 rs2 : FReg) (s : State) : Result :=
  .next (s.compareHalf (.fltH rd rs1 rs2) rd rs1 rs2 .LT)

/-- R243 -/
def execFleH (rd : XReg) (rs1 rs2 : FReg) (s : State) : Result :=
  .next (s.compareHalf (.fleH rd rs1 rs2) rd rs1 rs2 .LE)

/-- R250: one bit of bits 9..0 is set; no flag. -/
def execFclassH (rd : XReg) (rs1 : FReg) (s : State) : Result :=
  .next (s.whenFpOn (.fclassH rd rs1)
    (s.finishX rd (s.params.zextX (BitVec.twoPow 64 (Fp.classIndex .H (s.operand .H rs1)))) flagNone))

end Sys2Proof.Machine
end

