-- ==== Sys2Proof/Machine/Computational.lean ====
section
/-! DEFINITION. The half-precision computational instructions (42_computational.md). -/

namespace Sys2Proof.Machine

/-! ### Shared shapes -/

/-- R160: the two-operand arithmetic instructions. -/
def State.arith2 (s : State) (i : Instr) (rd rs1 rs2 : FReg) (rm : RmField)
    (op : RoundingMode → Fp.Bits .H → Fp.Bits .H → Fp.Bits .H × FlagSet) : State :=
  s.whenRounding i rm fun r =>
    let result := op r (s.operand .H rs1) (s.operand .H rs2)
    s.finishF rd (box s.params .H result.1) result.2

/-- R166, R167: the two-operand instructions whose `rm` field is a selector. -/
def State.select2 (s : State) (i : Instr) (rd rs1 rs2 : FReg)
    (op : Fp.Bits .H → Fp.Bits .H → Fp.Bits .H × FlagSet) : State :=
  s.whenFpOn i
    (let result := op (s.operand .H rs1) (s.operand .H rs2)
    s.finishF rd (box s.params .H result.1) result.2)

/-- The operand negated if the instruction says so (R169). -/
def negIf (n : Bool) (a : Fp.Bits .H) : Fp.Bits .H := if n then Fp.neg .H a else a

/-- R169: the fused multiply-add instructions; `n1` negates the product's first factor and `n3` the addend, before
the one rounding. -/
def State.fused (s : State) (i : Instr) (rd rs1 rs2 rs3 : FReg) (rm : RmField) (n1 n3 : Bool) : State :=
  s.whenRounding i rm fun r =>
    let result := Fp.fma .H r (negIf n1 (s.operand .H rs1)) (s.operand .H rs2) (negIf n3 (s.operand .H rs3))
    s.finishF rd (box s.params .H result.1) result.2

/-! ### The instructions -/

/-- R161 -/
def execFaddH (rd rs1 rs2 : FReg) (rm : RmField) (s : State) : Result :=
  .next (s.arith2 (.faddH rd rs1 rs2 rm) rd rs1 rs2 rm (Fp.add .H))

/-- R162 -/
def execFsubH (rd rs1 rs2 : FReg) (rm : RmField) (s : State) : Result :=
  .next (s.arith2 (.fsubH rd rs1 rs2 rm) rd rs1 rs2 rm (Fp.sub .H))

/-- R163 -/
def execFmulH (rd rs1 rs2 : FReg) (rm : RmField) (s : State) : Result :=
  .next (s.arith2 (.fmulH rd rs1 rs2 rm) rd rs1 rs2 rm (Fp.mul .H))

/-- R164 -/
def execFdivH (rd rs1 rs2 : FReg) (rm : RmField) (s : State) : Result :=
  .next (s.arith2 (.fdivH rd rs1 rs2 rm) rd rs1 rs2 rm (Fp.div .H))

/-- R165 -/
def execFsqrtH (rd rs1 : FReg) (rm : RmField) (s : State) : Result :=
  .next (s.whenRounding (.fsqrtH rd rs1 rm) rm fun r =>
    let result := Fp.sqrt .H r (s.operand .H rs1)
    s.finishF rd (box s.params .H result.1) result.2)

/-- R166 -/
def execFminH (rd rs1 rs2 : FReg) (s : State) : Result :=
  .next (s.select2 (.fminH rd rs1 rs2) rd rs1 rs2 (Fp.minNum .H))

/-- R167 -/
def execFmaxH (rd rs1 rs2 : FReg) (s : State) : Result :=
  .next (s.select2 (.fmaxH rd rs1 rs2) rd rs1 rs2 (Fp.maxNum .H))

/-- R170: `(rs1 * rs2) + rs3` -/
def execFmaddH (rd rs1 rs2 rs3 : FReg) (rm : RmField) (s : State) : Result :=
  .next (s.fused (.fmaddH rd rs1 rs2 rs3 rm) rd rs1 rs2 rs3 rm false false)

/-- R171: `(rs1 * rs2) - rs3` -/
def execFmsubH (rd rs1 rs2 rs3 : FReg) (rm : RmField) (s : State) : Result :=
  .next (s.fused (.fmsubH rd rs1 rs2 rs3 rm) rd rs1 rs2 rs3 rm false true)

/-- R172: `-(rs1 * rs2) + rs3` -/
def execFnmsubH (rd rs1 rs2 rs3 : FReg) (rm : RmField) (s : State) : Result :=
  .next (s.fused (.fnmsubH rd rs1 rs2 rs3 rm) rd rs1 rs2 rs3 rm true false)

/-- R173: `-(rs1 * rs2) - rs3` -/
def execFnmaddH (rd rs1 rs2 rs3 : FReg) (rm : RmField) (s : State) : Result :=
  .next (s.fused (.fnmaddH rd rs1 rs2 rs3 rm) rd rs1 rs2 rs3 rm true true)

end Sys2Proof.Machine
end

