-- ==== Sys2Proof/Machine/Convert.lean ====
section
/-! DEFINITION. The conversions (43_convert_move.md sections 1 to 3). -/

namespace Sys2Proof.Machine

/-! ### Shared shapes -/

/-- R190: half precision to an N-bit integer of the range `lo` to `hi`; a 32-bit result is sign-extended to XLEN bits,
an unsigned one too. -/
def State.halfToInt (s : State) (i : Instr) (rd : XReg) (rs1 : FReg) (rm : RmField) (n : Nat) (lo hi : Int) : State :=
  s.whenRounding i rm fun r =>
    let result := Fp.toInt .H r (s.operand .H rs1) lo hi
    s.finishX rd (s.params.sextX (BitVec.ofInt n result.1)) result.2

/-- R199: an integer to half precision. -/
def State.intToHalf (s : State) (i : Instr) (rd : FReg) (rm : RmField) (n : Int) : State :=
  s.whenRounding i rm fun r =>
    let result := Fp.fromInt .H r n
    s.finishF rd (box s.params .H result.1) result.2

/-- R206: format `F` to format `G`. -/
def State.convertFp (s : State) (i : Instr) (F G : Format) (rd rs1 : FReg) (rm : RmField) : State :=
  s.whenRounding i rm fun r =>
    let result := Fp.convert F G r (s.operand F rs1)
    s.finishF rd (box s.params G result.1) result.2

/-! ### Half precision to integer -/

/-- R191 -/
def execFcvtWH (rd : XReg) (rs1 : FReg) (rm : RmField) (s : State) : Result :=
  .next (s.halfToInt (.fcvtWH rd rs1 rm) rd rs1 rm 32 (-0x80000000) 0x7FFFFFFF)

/-- R192 -/
def execFcvtWUH (rd : XReg) (rs1 : FReg) (rm : RmField) (s : State) : Result :=
  .next (s.halfToInt (.fcvtWUH rd rs1 rm) rd rs1 rm 32 0 0xFFFFFFFF)

/-- R193 -/
def execFcvtLH (rd : XReg) (rs1 : FReg) (rm : RmField) (s : State) : Result :=
  .next (s.halfToInt (.fcvtLH rd rs1 rm) rd rs1 rm 64 (-0x8000000000000000) 0x7FFFFFFFFFFFFFFF)

/-- R194 -/
def execFcvtLUH (rd : XReg) (rs1 : FReg) (rm : RmField) (s : State) : Result :=
  .next (s.halfToInt (.fcvtLUH rd rs1 rm) rd rs1 rm 64 0 0xFFFFFFFFFFFFFFFF)

/-! ### Integer to half precision -/

/-- R195 -/
def execFcvtHW (rd : FReg) (rs1 : XReg) (rm : RmField) (s : State) : Result :=
  .next (s.intToHalf (.fcvtHW rd rs1 rm) rd rm (s.signed32 rs1))

/-- R196 -/
def execFcvtHWU (rd : FReg) (rs1 : XReg) (rm : RmField) (s : State) : Result :=
  .next (s.intToHalf (.fcvtHWU rd rs1 rm) rd rm (s.unsigned32 rs1))

/-- R197 -/
def execFcvtHL (rd : FReg) (rs1 : XReg) (rm : RmField) (s : State) : Result :=
  .next (s.intToHalf (.fcvtHL rd rs1 rm) rd rm (s.signed64 rs1))

/-- R198 -/
def execFcvtHLU (rd : FReg) (rs1 : XReg) (rm : RmField) (s : State) : Result :=
  .next (s.intToHalf (.fcvtHLU rd rs1 rm) rd rm (s.unsigned64 rs1))

/-! ### Between floating-point formats -/

/-- R200 -/
def execFcvtSH (rd rs1 : FReg) (rm : RmField) (s : State) : Result :=
  .next (s.convertFp (.fcvtSH rd rs1 rm) .H .S rd rs1 rm)

/-- R201 -/
def execFcvtHS (rd rs1 : FReg) (rm : RmField) (s : State) : Result :=
  .next (s.convertFp (.fcvtHS rd rs1 rm) .S .H rd rs1 rm)

/-- R202 -/
def execFcvtDH (rd rs1 : FReg) (rm : RmField) (s : State) : Result :=
  .next (s.convertFp (.fcvtDH rd rs1 rm) .H .D rd rs1 rm)

/-- R203 -/
def execFcvtHD (rd rs1 : FReg) (rm : RmField) (s : State) : Result :=
  .next (s.convertFp (.fcvtHD rd rs1 rm) .D .H rd rs1 rm)

/-- R204 -/
def execFcvtQH (rd rs1 : FReg) (rm : RmField) (s : State) : Result :=
  .next (s.convertFp (.fcvtQH rd rs1 rm) .H .Q rd rs1 rm)

/-- R205 -/
def execFcvtHQ (rd rs1 : FReg) (rm : RmField) (s : State) : Result :=
  .next (s.convertFp (.fcvtHQ rd rs1 rm) .Q .H rd rs1 rm)

end Sys2Proof.Machine
end

