-- ==== Sys2Proof/Machine/Csr.lean ====
section
/-! DEFINITION. The CSR map (R286) and the six CSR instructions (R277 to R283). -/

namespace Sys2Proof.Machine

/-- The CSRs of the map (R286). -/
inductive Csr where
  | fflags
  | frm
  | fcsr
  | mstatus
  | mtvec
  | mepc
  | mcause
  | mtval
deriving DecidableEq, Repr

/-- The CSR at an address (R286). -/
def Csr.ofAddr (addr : BitVec 12) : Option Csr :=
  match addr.toNat with
  | 0x001 => some .fflags
  | 0x002 => some .frm
  | 0x003 => some .fcsr
  | 0x300 => some .mstatus
  | 0x305 => some .mtvec
  | 0x341 => some .mepc
  | 0x342 => some .mcause
  | 0x343 => some .mtval
  | _ => none

/-- Whether an access to the CSR is allowed: the three floating-point CSRs need `FS` not 0 (R29), the trap CSRs
exist only with `TRAP` = mmode (R286). -/
def State.csrAllowed (s : State) : Csr → Bool
  | .fflags | .frm | .fcsr => s.fs != 0
  | .mstatus => true
  | .mtvec | .mepc | .mcause | .mtval => s.params.trap == .mmode

/-- `{SD, zeros(XLEN-16), FS, zeros(13)}`: SD, bit XLEN-1, is 1 exactly when `FS` = 3 (R286, R31). -/
def State.mstatusValue (s : State) : Word :=
  (s.fs.setWidth 64 <<< 13) ||| (if s.fs = fsDirty then BitVec.twoPow 64 (s.params.xbits - 1) else 0)

/-- The value a CSR reads as (R286). -/
def State.readCsr (s : State) : Csr → Word
  | .fflags => s.params.zextX s.fflags
  | .frm => s.params.zextX s.frm
  | .fcsr => s.params.zextX s.fcsr
  | .mstatus => s.mstatusValue
  | .mtvec => s.mtvec
  | .mepc => s.mepc
  | .mcause => s.mcause
  | .mtval => s.mtval

/-- The effect of writing a value to a CSR (R286). A write to one of the three floating-point CSRs makes `FS` dirty,
whatever the value (R29). -/
def State.writeCsr (s : State) (c : Csr) (v : Word) : State :=
  match c with
  | .fflags => { s with fcsr := s.frm ++ v.extractLsb' 0 5, fs := fsDirty }
  | .frm => { s with fcsr := v.extractLsb' 0 3 ++ s.fflags, fs := fsDirty }
  | .fcsr => { s with fcsr := v.extractLsb' 0 8, fs := fsDirty }
  | .mstatus => { s with fs := v.extractLsb' 13 2 }
  | .mtvec => { s with mtvec := clearLow2 (s.params.truncX v) }
  | .mepc => { s with mepc := clearLow2 (s.params.truncX v) }
  | .mcause => { s with mcause := s.params.truncX v }
  | .mtval => { s with mtval := s.params.truncX v }

/-- `CsrOp` (R277): the read gives the value before the write; without `write` nothing is written, and then `FS` stays. -/
def State.csrOp (s : State) (i : Instr) (addr : BitVec 12) (rd : XReg) (read write : Bool) (newVal : Word → Word) :
    State :=
  match Csr.ofAddr addr with
  | none => s.illegal i
  | some c =>
    if s.csrAllowed c then
      let old := s.readCsr c
      let written := if write then s.writeCsr c (newVal old) else s
      (if read then written.writeX rd old else written).advance
    else s.illegal i

/-- R278 -/
def execCsrrw (rd : XReg) (csr : BitVec 12) (rs1 : XReg) (s : State) : Result :=
  .next (s.csrOp (.csrrw rd csr rs1) csr rd (rd != 0) true fun _ => s.readX rs1)

/-- R279: whether it writes is decided by the register number, not the value. -/
def execCsrrs (rd : XReg) (csr : BitVec 12) (rs1 : XReg) (s : State) : Result :=
  .next (s.csrOp (.csrrs rd csr rs1) csr rd true (rs1 != 0) fun old => old ||| s.readX rs1)

/-- R280 -/
def execCsrrc (rd : XReg) (csr : BitVec 12) (rs1 : XReg) (s : State) : Result :=
  .next (s.csrOp (.csrrc rd csr rs1) csr rd true (rs1 != 0) fun old => old &&& ~~~(s.readX rs1))

/-- R281 -/
def execCsrrwi (rd : XReg) (csr : BitVec 12) (uimm : BitVec 5) (s : State) : Result :=
  .next (s.csrOp (.csrrwi rd csr uimm) csr rd (rd != 0) true fun _ => s.params.zextX uimm)

/-- R282 -/
def execCsrrsi (rd : XReg) (csr : BitVec 12) (uimm : BitVec 5) (s : State) : Result :=
  .next (s.csrOp (.csrrsi rd csr uimm) csr rd true (uimm != 0) fun old => old ||| s.params.zextX uimm)

/-- R283 -/
def execCsrrci (rd : XReg) (csr : BitVec 12) (uimm : BitVec 5) (s : State) : Result :=
  .next (s.csrOp (.csrrci rd csr uimm) csr rd true (uimm != 0) fun old => old &&& ~~~(s.params.zextX uimm))

end Sys2Proof.Machine
end

