-- ==== Sys2Proof/Machine/Environment.lean ====
section
/-! DEFINITION. ECALL, EBREAK and MRET (47_host_subset.md section 3). -/

namespace Sys2Proof.Machine

/-- R284 -/
def execEcall (s : State) : Result := .next (s.raise .environmentCallFromMMode)

/-- R285 -/
def execEbreak (s : State) : Result := .next (s.raise (.breakpoint s.pc))

/-- R288: with `TRAP` = fault the instruction does not exist. -/
def execMret (s : State) : Result :=
  .next (if Instr.existsOn s.params .mret then s.returnFromTrap else s.illegal .mret)

end Sys2Proof.Machine
end

