-- ==== Sys2Proof/Machine/HostInteger.lean ====
section
/-! DEFINITION. The integer instructions of the host subset (47_host_subset.md section 1). None of them touches `f`,
`fcsr` or `FS` (R270). -/

namespace Sys2Proof.Machine

/-- R271: the 32-bit value is sign-extended from its bit 31. -/
def execLui (rd : XReg) (imm : BitVec 20) (s : State) : Result :=
  .next (s.writeX rd (s.params.sextX (imm ++ 0#12))).advance

/-- R272 -/
def execAddi (rd rs1 : XReg) (imm : BitVec 12) (s : State) : Result :=
  .next (s.writeX rd (s.readX rs1 + s.params.sextX imm)).advance

/-- R273 -/
def execAdd (rd rs1 rs2 : XReg) (s : State) : Result :=
  .next (s.writeX rd (s.readX rs1 + s.readX rs2)).advance

/-- A taken branch or a jump to `target`, with `pc` not yet written in `done`: a target with bit 1 set raises and nothing
is written (R274, R276). -/
def State.jumpTo (s : State) (target : Word) (done : State) : State :=
  if target.getLsbD 1 then s.raise (.instructionAddressMisaligned target) else { done with pc := target }

/-- R274, R275: a branch taken if the condition holds. -/
def State.branch (s : State) (taken : Bool) (off : BitVec 13) : State :=
  if taken then s.jumpTo (s.branchTarget off) s else s.advance

/-- R274 -/
def execBeq (rs1 rs2 : XReg) (off : BitVec 13) (s : State) : Result :=
  .next (s.branch (s.readX rs1 == s.readX rs2) off)

/-- R275 -/
def execBne (rs1 rs2 : XReg) (off : BitVec 13) (s : State) : Result :=
  .next (s.branch (s.readX rs1 != s.readX rs2) off)

/-- R276 -/
def execJal (rd : XReg) (off : BitVec 21) (s : State) : Result :=
  .next (s.jumpTo (s.branchTarget off) (s.writeX rd s.nextPc))

end Sys2Proof.Machine
end

