-- ==== Sys2Proof/Machine/LoadStore.lean ====
section
/-! DEFINITION. FLH and FSH (41_load_store.md). -/

namespace Sys2Proof.Machine

/-- R150. The 16 bits are loaded as they are, boxed; no flag. -/
def execFlh (rd : FReg) (rs1 : XReg) (imm : BitVec 12) (s : State) : Result :=
  let addr := s.effectiveAddr rs1 imm
  .next (s.whenFpOn (.flh rd rs1 imm)
    (match s.checkHalf addr with
    | .misaligned => s.raise (.loadAddressMisaligned addr)
    | .outside a => s.raise (.loadAccessFault a)
    | .permitted => s.finishF rd (box s.params .H (s.readHalf addr)) flagNone))

/-- R151. The low 16 bits are stored as they are, with no box check; no flag, and no `f` register is written. -/
def execFsh (rs2 : FReg) (rs1 : XReg) (imm : BitVec 12) (s : State) : Result :=
  let addr := s.effectiveAddr rs1 imm
  .next (s.whenFpOn (.fsh rs2 rs1 imm)
    (match s.checkHalf addr with
    | .misaligned => s.raise (.storeAddressMisaligned addr)
    | .outside a => s.raise (.storeAccessFault a)
    | .permitted => (s.writeHalf addr (s.rawHalf rs2)).completeFp false))

end Sys2Proof.Machine
end

