-- ==== Sys2Proof/Machine/SignMove.lean ====
section
/-! DEFINITION. Sign injection and the moves between the register files (43_convert_move.md sections 4 and 5). -/

namespace Sys2Proof.Machine

/-- R209: the result has the low 15 bits of the first operand and a sign made of the two signs; no rounding mode, no
flag, nothing canonicalised. -/
def State.signInject (s : State) (i : Instr) (rd rs1 rs2 : FReg) (signOf : Bool → Bool → Bool) : State :=
  s.whenFpOn i
    (let a := s.operand .H rs1
    let b := s.operand .H rs2
    let result : Fp.Bits .H := BitVec.ofBool (signOf (Fp.sign .H a) (Fp.sign .H b)) ++ a.setWidth 15
    s.finishF rd (box s.params .H result) flagNone)

/-- R210 -/
def execFsgnjH (rd rs1 rs2 : FReg) (s : State) : Result :=
  .next (s.signInject (.fsgnjH rd rs1 rs2) rd rs1 rs2 fun _ b => b)

/-- R211 -/
def execFsgnjnH (rd rs1 rs2 : FReg) (s : State) : Result :=
  .next (s.signInject (.fsgnjnH rd rs1 rs2) rd rs1 rs2 fun _ b => !b)

/-- R212 -/
def execFsgnjxH (rd rs1 rs2 : FReg) (s : State) : Result :=
  .next (s.signInject (.fsgnjxH rd rs1 rs2) rd rs1 rs2 fun a b => a ^^ b)

/-- R220: bit 15 is copied into the bits above; the box is not checked. -/
def execFmvXH (rd : XReg) (rs1 : FReg) (s : State) : Result :=
  .next (s.whenFpOn (.fmvXH rd rs1) (s.finishX rd (s.params.sextX (s.rawHalf rs1)) flagNone))

/-- R221: the low 16 bits of `x[rs1]`, boxed. -/
def execFmvHX (rd : FReg) (rs1 : XReg) (s : State) : Result :=
  .next (s.whenFpOn (.fmvHX rd rs1) (s.finishF rd (box s.params .H ((s.readX rs1).setWidth 16)) flagNone))

end Sys2Proof.Machine
end

