-- ==== Sys2Proof/Machine/Dispatch.lean ====
section
/-! DEFINITION. One arm per instruction. -/

namespace Sys2Proof.Machine

def exec (i : Instr) (s : State) : Host.Outcome State Fault Refusal :=
  match i with
  | .flh rd rs1 imm => Sys2Proof.Machine.execFlh rd rs1 imm s
  | .fsh rs2 rs1 imm => Sys2Proof.Machine.execFsh rs2 rs1 imm s
  | .fmaddH rd rs1 rs2 rs3 rm => Sys2Proof.Machine.execFmaddH rd rs1 rs2 rs3 rm s
  | .fmsubH rd rs1 rs2 rs3 rm => Sys2Proof.Machine.execFmsubH rd rs1 rs2 rs3 rm s
  | .fnmsubH rd rs1 rs2 rs3 rm => Sys2Proof.Machine.execFnmsubH rd rs1 rs2 rs3 rm s
  | .fnmaddH rd rs1 rs2 rs3 rm => Sys2Proof.Machine.execFnmaddH rd rs1 rs2 rs3 rm s
  | .faddH rd rs1 rs2 rm => Sys2Proof.Machine.execFaddH rd rs1 rs2 rm s
  | .fsubH rd rs1 rs2 rm => Sys2Proof.Machine.execFsubH rd rs1 rs2 rm s
  | .fmulH rd rs1 rs2 rm => Sys2Proof.Machine.execFmulH rd rs1 rs2 rm s
  | .fdivH rd rs1 rs2 rm => Sys2Proof.Machine.execFdivH rd rs1 rs2 rm s
  | .fsqrtH rd rs1 rm => Sys2Proof.Machine.execFsqrtH rd rs1 rm s
  | .fsgnjH rd rs1 rs2 => Sys2Proof.Machine.execFsgnjH rd rs1 rs2 s
  | .fsgnjnH rd rs1 rs2 => Sys2Proof.Machine.execFsgnjnH rd rs1 rs2 s
  | .fsgnjxH rd rs1 rs2 => Sys2Proof.Machine.execFsgnjxH rd rs1 rs2 s
  | .fminH rd rs1 rs2 => Sys2Proof.Machine.execFminH rd rs1 rs2 s
  | .fmaxH rd rs1 rs2 => Sys2Proof.Machine.execFmaxH rd rs1 rs2 s
  | .fcvtSH rd rs1 rm => Sys2Proof.Machine.execFcvtSH rd rs1 rm s
  | .fcvtHS rd rs1 rm => Sys2Proof.Machine.execFcvtHS rd rs1 rm s
  | .fcvtDH rd rs1 rm => Sys2Proof.Machine.execFcvtDH rd rs1 rm s
  | .fcvtHD rd rs1 rm => Sys2Proof.Machine.execFcvtHD rd rs1 rm s
  | .fcvtQH rd rs1 rm => Sys2Proof.Machine.execFcvtQH rd rs1 rm s
  | .fcvtHQ rd rs1 rm => Sys2Proof.Machine.execFcvtHQ rd rs1 rm s
  | .fleH rd rs1 rs2 => Sys2Proof.Machine.execFleH rd rs1 rs2 s
  | .fltH rd rs1 rs2 => Sys2Proof.Machine.execFltH rd rs1 rs2 s
  | .feqH rd rs1 rs2 => Sys2Proof.Machine.execFeqH rd rs1 rs2 s
  | .fcvtWH rd rs1 rm => Sys2Proof.Machine.execFcvtWH rd rs1 rm s
  | .fcvtWUH rd rs1 rm => Sys2Proof.Machine.execFcvtWUH rd rs1 rm s
  | .fcvtLH rd rs1 rm => Sys2Proof.Machine.execFcvtLH rd rs1 rm s
  | .fcvtLUH rd rs1 rm => Sys2Proof.Machine.execFcvtLUH rd rs1 rm s
  | .fcvtHW rd rs1 rm => Sys2Proof.Machine.execFcvtHW rd rs1 rm s
  | .fcvtHWU rd rs1 rm => Sys2Proof.Machine.execFcvtHWU rd rs1 rm s
  | .fcvtHL rd rs1 rm => Sys2Proof.Machine.execFcvtHL rd rs1 rm s
  | .fcvtHLU rd rs1 rm => Sys2Proof.Machine.execFcvtHLU rd rs1 rm s
  | .fmvXH rd rs1 => Sys2Proof.Machine.execFmvXH rd rs1 s
  | .fclassH rd rs1 => Sys2Proof.Machine.execFclassH rd rs1 s
  | .fmvHX rd rs1 => Sys2Proof.Machine.execFmvHX rd rs1 s
  | .lui rd imm => Sys2Proof.Machine.execLui rd imm s
  | .addi rd rs1 imm => Sys2Proof.Machine.execAddi rd rs1 imm s
  | .add rd rs1 rs2 => Sys2Proof.Machine.execAdd rd rs1 rs2 s
  | .beq rs1 rs2 off => Sys2Proof.Machine.execBeq rs1 rs2 off s
  | .bne rs1 rs2 off => Sys2Proof.Machine.execBne rs1 rs2 off s
  | .jal rd off => Sys2Proof.Machine.execJal rd off s
  | .csrrw rd csr rs1 => Sys2Proof.Machine.execCsrrw rd csr rs1 s
  | .csrrs rd csr rs1 => Sys2Proof.Machine.execCsrrs rd csr rs1 s
  | .csrrc rd csr rs1 => Sys2Proof.Machine.execCsrrc rd csr rs1 s
  | .csrrwi rd csr uimm => Sys2Proof.Machine.execCsrrwi rd csr uimm s
  | .csrrsi rd csr uimm => Sys2Proof.Machine.execCsrrsi rd csr uimm s
  | .csrrci rd csr uimm => Sys2Proof.Machine.execCsrrci rd csr uimm s
  | .ecall => Sys2Proof.Machine.execEcall s
  | .ebreak => Sys2Proof.Machine.execEbreak s
  | .mret => Sys2Proof.Machine.execMret s

end Sys2Proof.Machine
end

