-- ==== Sys2Proof/Machine/Fetch.lean ====
section
/-! DEFINITION. Fetching an instruction (R51, R63) and placing one where it is fetched. -/

namespace Sys2Proof.Machine

/-- What the fetch at `pc` gives. -/
inductive Fetched where
  /-- the four bytes, lowest address first -/
  | bytes (b0 b1 b2 b3 : Byte)
  | raises (e : Exception)
  /-- a byte to fetch was stored to by the program; the first such address -/
  | selfModified (addr : Nat)
deriving DecidableEq, Repr

/-- `MemFetch(pc)`: misaligned first, then `Mem` (R51, R303), then the refusal of self-modifying code (R63).
DESIGN CHOICE (log entry 10): a refusal, and the lowest stored byte is named. -/
def State.fetch (s : State) : Fetched :=
  if s.pc.extractLsb' 0 2 != 0 then .raises (.instructionAddressMisaligned s.pc)
  else if !(fetchAddrs s.pc).all s.params.inMem then .raises (.instructionAccessFault s.pc)
  else
    match (fetchAddrs s.pc).find? (s.stored.contains ·) with
    | some a => .selfModified a
    | none =>
      let a := s.pc.toNat
      .bytes (s.mem.read a) (s.mem.read (a + 1)) (s.mem.read (a + 2)) (s.mem.read (a + 3))

/-- The state with an instruction word placed at `pc` from outside, as a loader does. -/
def State.placeWord (s : State) (w : InstWord) : State := s.loadBytes s.pc.toNat (bytesOfWord w)

end Sys2Proof.Machine
end

