-- ==== Sys2Proof/Machine/Step.lean ====
section
/-! DEFINITION. One step of the machine. -/

namespace Sys2Proof.Machine

/-- One step: a machine that has stopped stays stopped (R306); otherwise the instruction at `pc` is fetched (R51), decoded
and executed (R94), a word that no row accepts raising `IllegalInstruction` (R301 cause 1). -/
def step (s : State) : Host.Outcome State Fault Refusal :=
  match s.trap with
  | some record => .fault (.stopped record)
  | none =>
    match s.fetch with
    | .raises e => .next (s.raise e)
    | .selfModified a => .refused (.fetchOfStoredByte a)
    | .bytes b0 b1 b2 b3 =>
      match decode [b0, b1, b2, b3] with
      | .ok (i, _) => exec i s
      | .error _ => .next (s.raise (.illegalInstruction (wordOfBytes b0 b1 b2 b3)))

/-- The state with the low `nbits` bits of `w` placed as the instruction at `pc`, the word's other bits 0: what a loader
that puts one instruction there does. It changes the four bytes at `pc` and their marks in `stored`, nothing else.
DESIGN CHOICE (log entry 11): a program is loaded from outside the machine. -/
def State.withFetchWord (s : State) (nbits w : Nat) : State := s.placeWord (BitVec.ofNat 32 (w % 2 ^ nbits))

end Sys2Proof.Machine
end

