-- ==== Sys2Proof/Safety.lean ====
section
/-! DEFINITION. The terms the claims use: the invariant of a good state, what an instruction leaves unchanged, and the
real value that the exact numbers of `Sys2Proof/Machine/Numerics.lean` stand for. The machine itself uses none of them. -/

namespace Sys2Proof

/-! ### Kinds of instructions -/

/-- The 36 instructions of the extension (R5), as against the host subset. -/
def Instr.isZfh : Instr → Bool
  | .lui .. | .addi .. | .add .. | .beq .. | .bne .. | .jal .. | .csrrw .. | .csrrs .. | .csrrc .. | .csrrwi ..
  | .csrrsi .. | .csrrci .. | .ecall | .ebreak | .mret => false
  | .flh .. | .fsh .. | .fmaddH .. | .fmsubH .. | .fnmsubH .. | .fnmaddH .. | .faddH .. | .fsubH .. | .fmulH ..
  | .fdivH .. | .fsqrtH .. | .fsgnjH .. | .fsgnjnH .. | .fsgnjxH .. | .fminH .. | .fmaxH .. | .fcvtSH .. | .fcvtHS ..
  | .fcvtDH .. | .fcvtHD .. | .fcvtQH .. | .fcvtHQ .. | .fleH .. | .fltH .. | .feqH .. | .fcvtWH .. | .fcvtWUH ..
  | .fcvtLH .. | .fcvtLUH .. | .fcvtHW .. | .fcvtHWU .. | .fcvtHL .. | .fcvtHLU .. | .fmvXH .. | .fclassH ..
  | .fmvHX .. => true

/-- The six instructions of Zicsr (R29). -/
def Instr.isCsr : Instr → Bool
  | .csrrw .. | .csrrs .. | .csrrc .. | .csrrwi .. | .csrrsi .. | .csrrci .. => true
  | _ => false

/-- The rounding-mode field of an instruction whose figure says "RM" (R92). -/
def Instr.rmField? : Instr → Option RmField
  | .fmaddH _ _ _ _ rm | .fmsubH _ _ _ _ rm | .fnmsubH _ _ _ _ rm | .fnmaddH _ _ _ _ rm => some rm
  | .faddH _ _ _ rm | .fsubH _ _ _ rm | .fmulH _ _ _ rm | .fdivH _ _ _ rm | .fsqrtH _ _ rm => some rm
  | .fcvtSH _ _ rm | .fcvtHS _ _ rm | .fcvtDH _ _ rm | .fcvtHD _ _ rm | .fcvtQH _ _ rm | .fcvtHQ _ _ rm => some rm
  | .fcvtWH _ _ rm | .fcvtWUH _ _ rm | .fcvtLH _ _ rm | .fcvtLUH _ _ rm => some rm
  | .fcvtHW _ _ rm | .fcvtHWU _ _ rm | .fcvtHL _ _ rm | .fcvtHLU _ _ rm => some rm
  | _ => none

/-- The destination of an instruction that writes a half-precision result to `f[rd]` (R113). -/
def Instr.halfDest? : Instr → Option FReg
  | .flh rd _ _ | .fmvHX rd _ => some rd
  | .fmaddH rd _ _ _ _ | .fmsubH rd _ _ _ _ | .fnmsubH rd _ _ _ _ | .fnmaddH rd _ _ _ _ => some rd
  | .faddH rd _ _ _ | .fsubH rd _ _ _ | .fmulH rd _ _ _ | .fdivH rd _ _ _ | .fsqrtH rd _ _ => some rd
  | .fsgnjH rd _ _ | .fsgnjnH rd _ _ | .fsgnjxH rd _ _ | .fminH rd _ _ | .fmaxH rd _ _ => some rd
  | .fcvtHS rd _ _ | .fcvtHD rd _ _ | .fcvtHQ rd _ _ => some rd
  | .fcvtHW rd _ _ | .fcvtHWU rd _ _ | .fcvtHL rd _ _ | .fcvtHLU rd _ _ => some rd
  | _ => none

/-- The instruction writes an `f` register when it completes (R32). -/
def Instr.writesF : Instr → Bool
  | .fcvtSH .. | .fcvtDH .. | .fcvtQH .. => true
  | i => i.halfDest?.isSome

/-- The base register and the offset of an instruction that reaches memory (R52). -/
def Instr.access? : Instr → Option (XReg × BitVec 12)
  | .flh _ rs1 imm | .fsh _ rs1 imm => some (rs1, imm)
  | _ => none

namespace Machine

/-! ### The invariant of a good state -/

/-- The value has no bit at or above XLEN. -/
def State.fitsX (s : State) (v : Word) : Prop := s.params.truncX v = v

/-- What every state that a run reaches satisfies, if `RESET_PC` is a multiple of 4. -/
structure State.Inv (s : State) : Prop where
  /-- `x[0]` holds zero (R20) -/
  x0 : s.x[0] = 0
  /-- every register is XLEN or FLEN bits wide (R20, R22, R24, R286) -/
  xWidth : ∀ r : XReg, s.fitsX s.x[r.toNat]
  fWidth : ∀ r : FReg, s.params.truncF s.f[r.toNat] = s.f[r.toNat]
  pcWidth : s.fitsX s.pc
  trapWidth : s.fitsX s.mtvec ∧ s.fitsX s.mepc ∧ s.fitsX s.mcause ∧ s.fitsX s.mtval
  /-- `pc` is a multiple of 4 (R23), and so are `mtvec` and `mepc` (R286, R307) -/
  pcAligned : s.pc.extractLsb' 0 2 = 0
  trapAligned : s.mtvec.extractLsb' 0 2 = 0 ∧ s.mepc.extractLsb' 0 2 = 0
  /-- memory is in its canonical form and lists only bytes that exist (R35) -/
  memWf : s.mem.wf = true
  memExists : ∀ c ∈ s.mem, s.params.inMem c.1 = true
  /-- the addresses stored to are strictly rising and exist -/
  storedSorted : s.stored.Pairwise (· < ·)
  storedExists : ∀ a ∈ s.stored, s.params.inMem a = true
  /-- only a machine with `TRAP` = fault has a trap record (R306) -/
  recordMode : s.trap.isSome → s.params.trap = .fault

/-! ### What an instruction leaves unchanged -/

/-- Memory, read byte by byte, and the marks of the bytes stored to. -/
def SameMemory (s t : State) : Prop := (∀ a, t.mem.read a = s.mem.read a) ∧ t.stored = s.stored

/-- The trap record and the trap CSRs. -/
def SameTrapState (s t : State) : Prop :=
  t.trap = s.trap ∧ t.mtvec = s.mtvec ∧ t.mepc = s.mepc ∧ t.mcause = s.mcause ∧ t.mtval = s.mtval

/-- An instruction of the extension completed, wrote `v` to `f[rd]` and accrued `fl`; nothing else changed but `FS` and
`pc`, which are as R32 and R22 say. With eager tracking `FS` is the free choice of log entry 5. -/
structure WroteF (s t : State) (rd : FReg) (v : FWord) (fl : FlagSet) : Prop where
  dest : t.readF rd = v
  otherF : ∀ r, r ≠ rd → t.readF r = s.readF r
  sameX : ∀ r, t.readX r = s.readX r
  flags : t.fflags = s.fflags ||| fl
  frm : t.frm = s.frm
  fs : t.fs = s.fsAfter true
  fsPrecise : s.params.fsTracking = .precise → t.fs = 3
  pc : t.pc = s.nextPc
  memory : SameMemory s t
  traps : SameTrapState s t
  params : t.params = s.params

/-- An instruction of the extension completed, wrote `v` to `x[rd]`, or discarded it if `rd` = 0, and accrued `fl`;
nothing else changed but `FS`, which turns dirty only with a flag (R32), and `pc`. With eager tracking `FS` is the free
choice of log entry 5. -/
structure WroteX (s t : State) (rd : XReg) (v : Word) (fl : FlagSet) : Prop where
  dest : t.readX rd = if rd = 0 then 0 else v
  otherX : ∀ r, r ≠ rd → t.readX r = s.readX r
  sameF : ∀ r, t.readF r = s.readF r
  flags : t.fflags = s.fflags ||| fl
  frm : t.frm = s.frm
  fs : t.fs = s.fsAfter (fl != flagNone)
  fsPrecise : s.params.fsTracking = .precise → t.fs = if fl = flagNone then s.fs else 3
  pc : t.pc = s.nextPc
  memory : SameMemory s t
  traps : SameTrapState s t
  params : t.params = s.params

/-- An instruction of the host subset completed and wrote `v` to `x[rd]`, or discarded it if `rd` = 0; `pc` is `target`,
and nothing else changed (R270). -/
structure WroteHostX (s t : State) (rd : XReg) (v : Word) (target : Word) : Prop where
  dest : t.readX rd = if rd = 0 then 0 else v
  otherX : ∀ r, r ≠ rd → t.readX r = s.readX r
  sameF : ∀ r, t.readF r = s.readF r
  fcsr : t.fcsr = s.fcsr
  fs : t.fs = s.fs
  pc : t.pc = target
  memory : SameMemory s t
  traps : SameTrapState s t
  params : t.params = s.params

/-- Everything but the trap record, the trap CSRs and `pc` is unchanged: what an exception leaves alone (R14, R306). -/
structure SameButTrap (s t : State) : Prop where
  sameX : ∀ r, t.readX r = s.readX r
  sameF : ∀ r, t.readF r = s.readF r
  fcsr : t.fcsr = s.fcsr
  fs : t.fs = s.fs
  memory : SameMemory s t
  params : t.params = s.params

/-- What an access to a CSR that is mapped and allowed leaves: `x[rd]` holds the old value, or nothing is written to `x`
if `rd` = 0; the CSRs are those of `w`; `pc` has moved on and nothing else changed (R277). -/
structure AccessedCsr (s t w : State) (rd : XReg) (old : Word) : Prop where
  dest : t.readX rd = if rd = 0 then 0 else old
  otherX : ∀ r, r ≠ rd → t.readX r = s.readX r
  sameF : ∀ r, t.readF r = s.readF r
  fcsr : t.fcsr = w.fcsr
  fs : t.fs = w.fs
  mtvec : t.mtvec = w.mtvec
  mepc : t.mepc = w.mepc
  mcause : t.mcause = w.mcause
  mtval : t.mtval = w.mtval
  pc : t.pc = s.nextPc
  memory : SameMemory s t
  trap : t.trap = s.trap
  params : t.params = s.params

/-- An instruction of the extension may execute: it exists on the hart (R9) and the unit is on (R116). -/
def Enabled (s : State) (i : Instr) : Prop := i.existsOn s.params = true ∧ s.fs ≠ 0

/-- An instruction of the extension completes without an exception: it may execute, its rounding mode is valid (R117)
and its memory access, if it makes one, is permitted (R53 to R56). -/
structure Completes (s : State) (i : Instr) : Prop where
  enabled : Enabled s i
  rounding : ∀ rm, i.rmField? = some rm → s.roundingMode rm ≠ none
  access : ∀ rs1 imm, i.access? = some (rs1, imm) → s.checkHalf (s.effectiveAddr rs1 imm) = .permitted

/-- The state with the five accrued flags cleared: what an instruction sets from there is what it accrues. -/
def State.flagsCleared (s : State) : State := { s with fcsr := s.frm ++ 0#5 }

/-! ### What stands at `pc` -/

/-- The machine has not stopped, `pc` is a multiple of 4 and the four bytes of the instruction exist and were not stored
to (R51, R63): the fetch gives them. -/
structure Runnable (s : State) : Prop where
  running : s.trap = none
  aligned : s.pc.extractLsb' 0 2 = 0
  exist : ∀ k < 4, s.params.inMem (s.pc.toNat + k) = true
  unstored : ∀ k < 4, s.pc.toNat + k ∉ s.stored

/-- `{mem[pc+3], mem[pc+2], mem[pc+1], mem[pc]}` (R51). -/
def wordAt (s : State) : InstWord :=
  s.mem.read (s.pc.toNat + 3) ++ s.mem.read (s.pc.toNat + 2) ++ s.mem.read (s.pc.toNat + 1) ++ s.mem.read s.pc.toNat

/-- The state of a hart that differs in its `LEVEL` only. -/
def State.withLevel (s : State) (l : Level) : State := { s with params := { s.params with level := l } }

/-! ### Values as the spec speaks of them

The relations below say in terms of rational and real numbers what 40_numerics.md and the instruction files say of the
results; the machine computes them in `Sys2Proof/Machine/Numerics.lean` on integers. -/

namespace Fp

/-- The number a `Scaled` stands for. -/
def Scaled.toRat (v : Scaled) : ℚ := v.num * 2 ^ v.exp

/-- The real number `x` is the magnitude `m`: the quotient, or the non-negative root. -/
def Magnitude.IsValue (m : Magnitude) (x : ℝ) : Prop :=
  match m with
  | .quot n d e => d ≠ 0 ∧ x = (n : ℝ) / d * 2 ^ e
  | .root n e => 0 ≤ x ∧ x ^ 2 = (n : ℝ) * 2 ^ e

/-- A pattern that is neither a NaN nor an infinity (R111). -/
def isFinite (F : Format) (a : Bits F) : Bool := isZero F a || isSub F a || isNormal F a

/-- `val_F(a)`, of a finite pattern (R111). -/
def valQ (F : Format) (a : Bits F) : ℚ := (val F a).toRat

/-- `ord(a)`, of a pattern that is not a NaN (R166, R240): minus infinity, a value, or plus infinity. -/
def ordQ (F : Format) (a : Bits F) : WithBot (WithTop ℚ) :=
  if isInf F a then (if sign F a then ⊥ else ((⊤ : WithTop ℚ) : WithBot (WithTop ℚ)))
  else ((valQ F a : WithTop ℚ) : WithBot (WithTop ℚ))

/-- The pattern has this sign, exponent field and fraction field (R111). -/
def HasFields (F : Format) (a : Bits F) (s : Bool) (E T : Nat) : Prop :=
  sign F a = s ∧ expField F a = E ∧ fracField F a = T

/-- The condition of R119 under which `n + 1` is the result, `n` being the floor and `r` the rest. -/
def RoundsUp (rm : RoundingMode) (s : Bool) (n : ℕ) (r : ℝ) : Prop :=
  match rm with
  | .RNE => 1 / 2 < r ∨ (r = 1 / 2 ∧ n % 2 = 1)
  | .RTZ => False
  | .RDN => s = true ∧ 0 < r
  | .RUP => s = false ∧ 0 < r
  | .RMM => 1 / 2 ≤ r

/-- `k` is `RoundInt(rm, s, x)` (R119). -/
def IsRoundInt (rm : RoundingMode) (s : Bool) (x : ℝ) (k : ℕ) : Prop :=
  ∃ n : ℕ, (n : ℝ) ≤ x ∧ x < n + 1 ∧
    ((RoundsUp rm s n (x - n) ∧ k = n + 1) ∨ (¬ RoundsUp rm s n (x - n) ∧ k = n))

/-- `out` is `Round_F(rm, s, m)` (R120), for a real `m > 0`: `e` and `ru` are those of its step 1, `r` that of step 3. -/
def IsRounded (F : Format) (rm : RoundingMode) (s : Bool) (m : ℝ) (out : Bits F × FlagSet) : Prop :=
  ∃ (e : ℤ) (ru : ℕ), (2 : ℝ) ^ e ≤ m ∧ m < (2 : ℝ) ^ (e + 1) ∧
    IsRoundInt rm s (m / (2 : ℝ) ^ (e - F.fracBits)) ru ∧
    ((2 : ℝ) ^ (F.emax + 1) ≤ ru * (2 : ℝ) ^ (e - F.fracBits) →
      out = (overflow F rm s, flagOF ||| flagNX)) ∧
    (ru * (2 : ℝ) ^ (e - F.fracBits) < (2 : ℝ) ^ (F.emax + 1) →
      ∃ (q : ℤ) (r : ℕ) (tiny inexact : Bool),
        q = max e F.emin - F.fracBits ∧
        IsRoundInt rm s (m / (2 : ℝ) ^ q) r ∧
        (tiny = true ↔ ru * (2 : ℝ) ^ (e - F.fracBits) < (2 : ℝ) ^ F.emin) ∧
        (inexact = true ↔ r * (2 : ℝ) ^ q ≠ m) ∧
        out.2 = flagIf inexact flagNX ||| flagIf (tiny && inexact) flagUF ∧
        (r < 2 ^ F.fracBits → HasFields F out.1 s 0 r) ∧
        (2 ^ F.fracBits ≤ r → r < 2 ^ (F.fracBits + 1) →
          HasFields F out.1 s (q + F.fracBits + F.bias).toNat (r - 2 ^ F.fracBits)) ∧
        (2 ^ (F.fracBits + 1) ≤ r →
          r = 2 ^ (F.fracBits + 1) ∧ HasFields F out.1 s (q + 1 + F.fracBits + F.bias).toNat 0))

/-- `v` rounded with its own sign; an exact zero is `RmZero_F(rm)` (the last two rows of R125 and of R129). -/
def IsRoundedSum (F : Format) (rm : RoundingMode) (v : ℚ) (out : Bits F × FlagSet) : Prop :=
  (v = 0 → out = (if rm = .RDN then zero F true else zero F false, flagNone)) ∧
  (v ≠ 0 → IsRounded F rm (decide (v < 0)) ((|v| : ℚ) : ℝ) out)

/-- `out` is `ToInt(rm, a, N, signed)` (R190), `lo` and `hi` being the least and greatest integers of the type. -/
def IsToInt (F : Format) (rm : RoundingMode) (a : Bits F) (lo hi : ℤ) (out : ℤ × FlagSet) : Prop :=
  if isNaN F a then out = (hi, flagNV)
  else if isInf F a then out = (if sign F a then lo else hi, flagNV)
  else ∃ r : ℕ, IsRoundInt rm (sign F a) ((|valQ F a| : ℚ) : ℝ) r ∧
    let v : ℤ := if sign F a then -(r : ℤ) else r
    (v < lo → out = (lo, flagNV)) ∧ (hi < v → out = (hi, flagNV)) ∧
    (lo ≤ v → v ≤ hi → out = (v, if (r : ℚ) ≠ |valQ F a| then flagNX else flagNone))

/-- `out` is `FromInt(rm, n)` in the format (R199). -/
def IsFromInt (F : Format) (rm : RoundingMode) (n : ℤ) (out : Bits F × FlagSet) : Prop :=
  (n = 0 → out = (zero F false, flagNone)) ∧ (n ≠ 0 → IsRounded F rm (decide (n < 0)) ((|n| : ℤ) : ℝ) out)

/-- `out` is `Cvt_{G<-F}(rm, a)` (R206). -/
def IsConverted (F G : Format) (rm : RoundingMode) (a : Bits F) (out : Bits G × FlagSet) : Prop :=
  if isSNaN F a then out = (cNaN G, flagNV)
  else if isQNaN F a then out = (cNaN G, flagNone)
  else if isInf F a then out = (inf G (sign F a), flagNone)
  else if isZero F a then out = (zero G (sign F a), flagNone)
  else IsRounded G rm (sign F a) ((|valQ F a| : ℚ) : ℝ) out

end Fp

end Machine

/-! ### Which flags an instruction can set -/

/-- The flags an instruction of the extension can set: the table of R30. -/
def Instr.flagMask : Instr → FlagSet
  | .flh .. | .fsh .. | .fmvXH .. | .fmvHX .. | .fsgnjH .. | .fsgnjnH .. | .fsgnjxH .. | .fclassH .. => 0b00000
  | .faddH .. | .fsubH .. | .fmulH .. | .fmaddH .. | .fmsubH .. | .fnmsubH .. | .fnmaddH .. => 0b10111
  | .fdivH .. => 0b11111
  | .fsqrtH .. => 0b10001
  | .fminH .. | .fmaxH .. | .feqH .. | .fltH .. | .fleH .. => 0b10000
  | .fcvtWH .. | .fcvtWUH .. | .fcvtLH .. | .fcvtLUH .. => 0b10001
  | .fcvtHW .. | .fcvtHWU .. | .fcvtHL .. | .fcvtHLU .. => 0b00101
  | .fcvtSH .. | .fcvtDH .. | .fcvtQH .. => 0b10000
  | .fcvtHS .. | .fcvtHD .. | .fcvtHQ .. => 0b10111
  | .lui .. | .addi .. | .add .. | .beq .. | .bne .. | .jal .. | .csrrw .. | .csrrs .. | .csrrc .. | .csrrwi ..
  | .csrrsi .. | .csrrci .. | .ecall | .ebreak | .mret => 0b00000

end Sys2Proof
end

