-- ==== Sys2Proof/Certificates/Slice0/Obligations.lean ====
section
/-! DEFINITION. The statements about the model, file by file of the spec. `OBLIGATIONS.json` gives each its tier, its
words and the rules it rests on. -/

open Sys2Proof Sys2Proof.Machine

/-! ### 30_encoding.md: encoding and decoding -/

/-- R93: no word satisfies two rows of the opcode map, host rows included. -/
def Obligations.OpcodeRowsAreDisjoint : Prop :=
  ∀ (w : InstWord) (j k : Nat) (rj rk : OpcodeRow), opcodeRows[j]? = some rj → opcodeRows[k]? = some rk →
    rj.accepts w = true → rk.accepts w = true → j = k

/-- Every well-formed instruction, with every operand the encoding admits, is read back from its bytes, whatever bytes
follow. -/
def Obligations.DecodeOfEncode : Prop :=
  ∀ (i : Instr) (rest : List Byte), i.wellFormed = true → decode (bytesOfWord (encode i) ++ rest) = .ok (i, rest)

/-- No bit of a word that decodes is dropped: the instruction is well formed and its encoding is the word. -/
def Obligations.EncodeOfDecode : Prop :=
  ∀ (w : InstWord) (i : Instr), decodeWord w = .ok i → i.wellFormed = true ∧ encode i = w

/-- The example words that the instruction rules give decode to the instructions the rules write beside them. -/
def Obligations.ExampleWordsDecode : Prop :=
  decodeWord 0x00611087 = .ok (.flh 1 2 6) ∧
  decodeWord 0xFE111F27 = .ok (.fsh 1 2 0xFFE) ∧
  decodeWord 0x042081D3 = .ok (.faddH 3 1 2 .rne) ∧
  decodeWord 0x0C20F1D3 = .ok (.fsubH 3 1 2 .dyn) ∧
  decodeWord 0x1C208243 = .ok (.fmaddH 4 1 2 3 .rne) ∧
  decodeWord 0x5C0081D3 = .ok (.fsqrtH 3 1 .rne) ∧
  decodeWord 0xC40092D3 = .ok (.fcvtWH 5 1 .rtz) ∧
  decodeWord 0x44108153 = .ok (.fcvtHD 2 1 .rne) ∧
  decodeWord 0xA420A2D3 = .ok (.feqH 5 1 2) ∧
  decodeWord 0xE40082D3 = .ok (.fmvXH 5 1) ∧
  decodeWord 0xE40092D3 = .ok (.fclassH 5 1) ∧
  decodeWord 0x000022B7 = .ok (.lui 5 2) ∧
  decodeWord 0xFE029CE3 = .ok (.bne 5 0 0x1FF8) ∧
  decodeWord 0xFF5FF06F = .ok (.jal 0 0x1FFFF4) ∧
  decodeWord 0x3002A073 = .ok (.csrrs 0 0x300 5)

/-- R244: the unused `rm` selectors of the compare group decode to nothing, and a step on such a word raises. -/
def Obligations.ReservedCompareSelectorsRaise : Prop :=
  ∀ w : InstWord, w.extractLsb' 0 7 = 0b1010011 → w.extractLsb' 25 2 = 0b10 → w.extractLsb' 27 5 = 0b10100 →
    0b011 ≤ (w.extractLsb' 12 3).toNat →
    (∀ i, decodeWord w ≠ .ok i) ∧
    ∀ s, Runnable s → wordAt s = w → step s = .next (s.raise (.illegalInstruction w))

/-- R251: the unused `rm` and `rs2` selectors of the FMV.X.H and FCLASS.H group decode to nothing, and a step on such a
word raises. -/
def Obligations.ReservedMoveSelectorsRaise : Prop :=
  ∀ w : InstWord, w.extractLsb' 0 7 = 0b1010011 → w.extractLsb' 25 2 = 0b10 → w.extractLsb' 27 5 = 0b11100 →
    (0b010 ≤ (w.extractLsb' 12 3).toNat ∨ w.extractLsb' 20 5 ≠ 0) →
    (∀ i, decodeWord w ≠ .ok i) ∧
    ∀ s, Runnable s → wordAt s = w → step s = .next (s.raise (.illegalInstruction w))

/-! ### 20_memory.md and 60_exceptions.md: fetching, stepping, trapping -/

/-- A step at a state whose instruction can be fetched is `exec` of the instruction its four bytes decode to, at that
state: the step adds nothing around it. -/
def Obligations.StepRunsDecodedInstruction : Prop :=
  ∀ (s : State) (i : Instr), Runnable s → decodeWord (wordAt s) = .ok i → step s = exec i s

/-- R301 cause 1: a fetched word that no row accepts raises `IllegalInstruction` with the word. -/
def Obligations.StepRaisesOnUndecodedWord : Prop :=
  ∀ s : State, Runnable s → (∀ i, decodeWord (wordAt s) ≠ .ok i) →
    step s = .next (s.raise (.illegalInstruction (wordAt s)))

/-- R51: what a fetch gives, and when it raises. The stored bytes that `Runnable` rules out are R63's. -/
def Obligations.FetchReadsFourBytesOrRaises : Prop :=
  ∀ s : State,
    (Runnable s → ∃ b0 b1 b2 b3, s.fetch = .bytes b0 b1 b2 b3 ∧ wordOfBytes b0 b1 b2 b3 = wordAt s) ∧
    (s.trap = none → s.pc.extractLsb' 0 2 ≠ 0 → step s = .next (s.raise (.instructionAddressMisaligned s.pc))) ∧
    (s.trap = none → s.pc.extractLsb' 0 2 = 0 → (∃ k < 4, s.params.inMem (s.pc.toNat + k) = false) →
      step s = .next (s.raise (.instructionAccessFault s.pc)))

/-- R63: the bytes of a completed FSH are marked, a mark is never lost, and a step that would fetch a marked byte is
refused. R63 asks for a fault or a refusal; that it is a refusal is the model's choice (log entry 10). -/
def Obligations.FetchOfStoredByteIsRefused : Prop :=
  (∀ (s t : State) (rs2 : FReg) (rs1 : XReg) (imm : BitVec 12), Enabled s (.fsh rs2 rs1 imm) →
    s.checkHalf (s.effectiveAddr rs1 imm) = .permitted → exec (.fsh rs2 rs1 imm) s = .next t →
    (s.effectiveAddr rs1 imm).toNat ∈ t.stored ∧ (s.addrAfter (s.effectiveAddr rs1 imm)).toNat ∈ t.stored) ∧
  (∀ s t : State, step s = .next t → ∀ a ∈ s.stored, a ∈ t.stored) ∧
  (∀ s : State, s.trap = none → s.pc.extractLsb' 0 2 = 0 → (∀ k < 4, s.params.inMem (s.pc.toNat + k) = true) →
    (∃ k < 4, s.pc.toNat + k ∈ s.stored) →
    ∃ k < 4, s.pc.toNat + k ∈ s.stored ∧ step s = .refused (.fetchOfStoredByte (s.pc.toNat + k)))

/-- R300: the code and the info value of every exception. -/
def Obligations.ExceptionCodesAndInfo : Prop :=
  ∀ (a : Word) (w : InstWord),
    ((Exception.instructionAddressMisaligned a).code, (Exception.instructionAddressMisaligned a).info) = (0, a) ∧
    ((Exception.instructionAccessFault a).code, (Exception.instructionAccessFault a).info) = (1, a) ∧
    ((Exception.illegalInstruction w).code, (Exception.illegalInstruction w).info) = (2, w.setWidth 64) ∧
    ((Exception.breakpoint a).code, (Exception.breakpoint a).info) = (3, a) ∧
    ((Exception.loadAddressMisaligned a).code, (Exception.loadAddressMisaligned a).info) = (4, a) ∧
    ((Exception.loadAccessFault a).code, (Exception.loadAccessFault a).info) = (5, a) ∧
    ((Exception.storeAddressMisaligned a).code, (Exception.storeAddressMisaligned a).info) = (6, a) ∧
    ((Exception.storeAccessFault a).code, (Exception.storeAccessFault a).info) = (7, a) ∧
    (Exception.environmentCallFromMMode.code, Exception.environmentCallFromMMode.info) = (11, 0)

/-- R306, R307: taking an exception. With `TRAP` = fault the machine stops with the record; with `TRAP` = mmode it goes on
at the handler; in both, `x`, `f`, `fcsr`, `FS` and memory keep their values. -/
def Obligations.RaiseTakesTheException : Prop :=
  ∀ (s : State) (e : Exception),
    SameButTrap s (s.raise e) ∧
    (s.params.trap = .fault →
      s.raise e = { s with trap := some ⟨e, s.pc⟩ } ∧ step (s.raise e) = .fault (.stopped ⟨e, s.pc⟩)) ∧
    (s.params.trap = .mmode → s.pc.extractLsb' 0 2 = 0 →
      s.raise e =
        { s with
          mepc := s.pc
          mcause := BitVec.ofNat 64 e.code
          mtval := s.params.truncX e.info
          pc := s.mtvec } ∧
      (s.raise e).mcause.getLsbD (s.params.xbits - 1) = false)

/-- R288: MRET. -/
def Obligations.MretReturns : Prop :=
  (∀ w, decodeWord w = .ok .mret ↔ w = 0x30200073) ∧
  ∀ s : State,
    (s.params.trap = .mmode → exec .mret s = .next { s with pc := s.mepc }) ∧
    (s.params.trap = .fault → exec .mret s = .next (s.raise (.illegalInstruction 0x30200073)))

/-- R284, R285: ECALL and EBREAK take their exceptions; ECALL's `pc` is not advanced. -/
def Obligations.EcallAndEbreakRaise : Prop :=
  (∀ w, decodeWord w = .ok .ecall ↔ w = 0x00000073) ∧
  (∀ w, decodeWord w = .ok .ebreak ↔ w = 0x00100073) ∧
  ∀ s : State,
    exec .ecall s = .next (s.raise .environmentCallFromMMode) ∧
    (Exception.environmentCallFromMMode.code = 11 ∧ Exception.environmentCallFromMMode.info = 0) ∧
    (s.params.trap = .fault → (s.raise .environmentCallFromMMode).pc = s.pc) ∧
    (s.params.trap = .mmode → s.pc.extractLsb' 0 2 = 0 → (s.raise .environmentCallFromMMode).mepc = s.pc) ∧
    exec .ebreak s = .next (s.raise (.breakpoint s.pc)) ∧
    ((Exception.breakpoint s.pc).code = 3 ∧ (Exception.breakpoint s.pc).info = s.pc)

/-- R9 and R301 cause 2: which instruction exists under which parameters, row by row (R288 for MRET; the rest of the host
subset always exists), and that one that does not exist raises. -/
def Obligations.AbsentInstructionsRaise : Prop :=
  (∀ (i : Instr) (p : Params), i.existsOn p = true ↔
    match i with
    | .flh .. | .fsh .. | .fmvXH .. | .fmvHX .. | .fcvtSH .. | .fcvtHS .. => True
    | .fcvtDH .. | .fcvtHD .. => p.fp = .fd ∨ p.fp = .fdq
    | .fcvtQH .. | .fcvtHQ .. => p.fp = .fdq
    | .faddH .. | .fsubH .. | .fmulH .. | .fdivH .. | .fsqrtH .. | .fminH .. | .fmaxH .. | .fmaddH .. | .fmsubH ..
    | .fnmsubH .. | .fnmaddH .. | .fsgnjH .. | .fsgnjnH .. | .fsgnjxH .. | .feqH .. | .fltH .. | .fleH ..
    | .fclassH .. | .fcvtWH .. | .fcvtWUH .. | .fcvtHW .. | .fcvtHWU .. => p.level = .zfh
    | .fcvtLH .. | .fcvtLUH .. | .fcvtHL .. | .fcvtHLU .. => p.level = .zfh ∧ p.xlen = .rv64
    | .mret => p.trap = .mmode
    | .lui .. | .addi .. | .add .. | .beq .. | .bne .. | .jal .. | .csrrw .. | .csrrs .. | .csrrc .. | .csrrwi ..
    | .csrrsi .. | .csrrci .. | .ecall | .ebreak => True) ∧
  (∀ p : Params, (p.hasD = true ↔ p.fp = .fd ∨ p.fp = .fdq) ∧ (p.hasQ = true ↔ p.fp = .fdq) ∧
    (p.xlen = .rv32 → p.xbits = 32) ∧ (p.xlen = .rv64 → p.xbits = 64)) ∧
  ∀ (i : Instr) (s : State), i.existsOn s.params = false → exec i s = .next (s.raise (.illegalInstruction (encode i)))

/-- R116: with `FS` = 0 every instruction of the extension raises. -/
def Obligations.FloatingPointOffRaises : Prop :=
  ∀ (i : Instr) (s : State), i.isZfh = true → s.fs = 0 → exec i s = .next (s.raise (.illegalInstruction (encode i)))

/-- R98: the reserved rounding modes, and DYN with 5, 6 or 7 in `frm`, raise, on every instruction with an "RM" field. -/
def Obligations.InvalidRoundingModesRaise : Prop :=
  ∀ (i : Instr) (rm : RmField) (s : State), i.rmField? = some rm →
    (rm.toBits = 0b101 ∨ rm.toBits = 0b110 ∨ (rm.toBits = 0b111 ∧ 5 ≤ s.frm.toNat)) →
    exec i s = .next (s.raise (.illegalInstruction (encode i)))

/-- R117: the effective rounding mode of every `rm` code and every `frm` value. -/
def Obligations.RoundingModeTable : Prop :=
  ∀ s : State,
    s.roundingMode (RmField.ofBits 0b000) = some .RNE ∧ s.roundingMode (RmField.ofBits 0b001) = some .RTZ ∧
    s.roundingMode (RmField.ofBits 0b010) = some .RDN ∧ s.roundingMode (RmField.ofBits 0b011) = some .RUP ∧
    s.roundingMode (RmField.ofBits 0b100) = some .RMM ∧ s.roundingMode (RmField.ofBits 0b101) = none ∧
    s.roundingMode (RmField.ofBits 0b110) = none ∧
    (s.frm = 0 → s.roundingMode (RmField.ofBits 0b111) = some .RNE) ∧
    (s.frm = 1 → s.roundingMode (RmField.ofBits 0b111) = some .RTZ) ∧
    (s.frm = 2 → s.roundingMode (RmField.ofBits 0b111) = some .RDN) ∧
    (s.frm = 3 → s.roundingMode (RmField.ofBits 0b111) = some .RUP) ∧
    (s.frm = 4 → s.roundingMode (RmField.ofBits 0b111) = some .RMM) ∧
    (5 ≤ s.frm.toNat → s.roundingMode (RmField.ofBits 0b111) = none)

/-! ### 46_zfhmin.md -/

/-- R255, R256: which of the 36 a Zfhmin hart has, that each of those behaves as on a Zfh hart, and that the others
raise. -/
def Obligations.ZfhminIsASubset : Prop :=
  ∀ (i : Instr) (s : State), i.isZfh = true → s.params.level = .zfhmin →
    (i.existsOn s.params = true ↔
      match i with
      | .flh .. | .fsh .. | .fmvXH .. | .fmvHX .. | .fcvtSH .. | .fcvtHS .. => True
      | .fcvtDH .. | .fcvtHD .. => s.params.hasD = true
      | .fcvtQH .. | .fcvtHQ .. => s.params.hasQ = true
      | _ => False) ∧
    (i.existsOn s.params = true → i.existsOn (s.withLevel .zfh).params = true ∧
      ∀ t, exec i s = .next t → exec i (s.withLevel .zfh) = .next (t.withLevel .zfh)) ∧
    (i.existsOn s.params = false → exec i s = .next (s.raise (.illegalInstruction (encode i))))

/-! ### 10_state.md and 70_reset_and_hazards.md: the machine as a whole -/

/-- Every step keeps the invariant, from every state, on every hart. -/
def Obligations.StepKeepsInvariant : Prop :=
  ∀ s t : State, s.Inv → step s = .next t → t.Inv

/-- The state after reset of every hart whose `RESET_PC` is a multiple of 4 has the invariant. It rests on the model's
choices for reset (log entries 2, 3 and 4). -/
def Obligations.ResetMeetsInvariant : Prop :=
  State.reset.Inv ∧ ∀ p : Params, p.resetPc.extractLsb' 0 2 = 0 → (State.resetWith p).Inv

/-- R340: the values that reset gives; the model's choices for the others are not stated here. -/
def Obligations.ResetValues : Prop :=
  ∀ p : Params, (State.resetWith p).params = p ∧ (State.resetWith p).pc = p.truncX p.resetPc ∧
    (State.resetWith p).readX 0 = 0 ∧ (State.resetWith p).trap = none

/-- R8: the parameters are fixed for a whole run. -/
def Obligations.ParametersNeverChange : Prop :=
  ∀ s t : State, step s = .next t → t.params = s.params

/-- R30: an instruction of the extension sets flags of its row of the table and clears none; the host instructions that
are no CSR access leave `fcsr` alone. -/
def Obligations.FlagsAccrueByTable : Prop :=
  ∀ (i : Instr) (s t : State), i.isCsr = false → exec i s = .next t →
    t.frm = s.frm ∧ ∃ fl : FlagSet, fl &&& ~~~ i.flagMask = 0 ∧ t.fflags = s.fflags ||| fl

/-- Of all instructions only FSH writes memory. -/
def Obligations.OnlyFshWritesMemory : Prop :=
  ∀ (i : Instr) (s t : State), (∀ rs2 rs1 imm, i ≠ .fsh rs2 rs1 imm) → exec i s = .next t →
    t.mem = s.mem ∧ t.stored = s.stored

/-- R32, U7: with either `FS_TRACKING`, `FS` after an instruction of the extension is its old value or 3; an instruction
of the host subset that is no CSR access leaves it alone. With precise tracking it is 3 exactly where the instruction
completed and wrote an `f` register or accrued a flag, which is what it sets from cleared flags (`u`), and unchanged
otherwise, after FSH among others. The eager setting is the model's form of U7 (log entry 5). -/
def Obligations.FsIsOldOrDirty : Prop :=
  ∀ (i : Instr) (s t : State), exec i s = .next t →
    (i.isZfh = true → t.fs = s.fs ∨ t.fs = 3) ∧
    (i.isZfh = false → i.isCsr = false → t.fs = s.fs) ∧
    (∀ rs2 rs1 imm, i = .fsh rs2 rs1 imm → s.params.fsTracking = .precise → t.fs = s.fs) ∧
    (∀ u, exec i s.flagsCleared = .next u → i.isZfh = true → s.params.fsTracking = .precise →
      (Completes s i → (i.writesF = true ∨ u.fflags ≠ 0) → t.fs = 3) ∧
      ((¬ Completes s i ∨ (i.writesF = false ∧ u.fflags = 0)) → t.fs = s.fs))

/-- R113: an instruction that writes a half-precision result either raised or left `f[rd]` boxed. -/
def Obligations.HalfResultsAreBoxed : Prop :=
  ∀ (i : Instr) (rd : FReg) (s t : State), i.halfDest? = some rd → exec i s = .next t →
    (∃ e, t = s.raise e) ∨
    (t.readF rd).extractLsb' 16 (s.params.flen - 16) = BitVec.allOnes (s.params.flen - 16)

/-! ### 41_load_store.md -/

/-- R52: the effective address of FLH and FSH. -/
def Obligations.EffectiveAddressWraps : Prop :=
  ∀ (s : State) (rs1 : XReg) (imm : BitVec 12),
    ((s.effectiveAddr rs1 imm).toNat : ℤ) = ((s.readX rs1).toNat + imm.toInt) % 2 ^ s.params.xbits

/-- R150, R55: FLH, the load it makes, and each exception in the order checked. -/
def Obligations.FlhLoadsOrRaises : Prop :=
  (∀ w : InstWord, w &&& 0x0000707F = 0x00001007 →
    decodeWord w = .ok (.flh (w.extractLsb' 7 5) (w.extractLsb' 15 5) (w.extractLsb' 20 12))) ∧
  ∀ (s : State) (rd : FReg) (rs1 : XReg) (imm : BitVec 12),
    let i : Instr := .flh rd rs1 imm
    let a := s.effectiveAddr rs1 imm
    let a1 := s.params.truncX (a + 1)
    (s.fs = 0 → exec i s = .next (s.raise (.illegalInstruction (encode i)))) ∧
    (s.fs ≠ 0 →
      (a.getLsbD 0 = true → s.params.misaligned = .trap → exec i s = .next (s.raise (.loadAddressMisaligned a))) ∧
      (a.getLsbD 0 = false → (s.params.inMem a.toNat = false ∨ s.params.inMem a1.toNat = false) →
        exec i s = .next (s.raise (.loadAccessFault a))) ∧
      (a.getLsbD 0 = true → s.params.misaligned = .split → s.params.inMem a.toNat = false →
        exec i s = .next (s.raise (.loadAccessFault a))) ∧
      (a.getLsbD 0 = true → s.params.misaligned = .split → s.params.inMem a.toNat = true →
        s.params.inMem a1.toNat = false → exec i s = .next (s.raise (.loadAccessFault a1))) ∧
      ((a.getLsbD 0 = false ∨ s.params.misaligned = .split) → s.params.inMem a.toNat = true →
        s.params.inMem a1.toNat = true →
        ∃ t, exec i s = .next t ∧
          WroteF s t rd (box s.params .H (s.mem.read a1.toNat ++ s.mem.read a.toNat)) flagNone))

/-- R151, R56: FSH, the two bytes it stores and no others, and each exception in the order checked. The premise on memory
is a clause of the invariant. `FS` is unchanged with precise tracking (R32); with eager tracking it is the free choice of
log entry 5. -/
def Obligations.FshStoresOrRaises : Prop :=
  (∀ w : InstWord, w &&& 0x0000707F = 0x00001027 →
    decodeWord w =
      .ok (.fsh (w.extractLsb' 20 5) (w.extractLsb' 15 5) (w.extractLsb' 25 7 ++ w.extractLsb' 7 5))) ∧
  ∀ (s : State) (rs2 : FReg) (rs1 : XReg) (imm : BitVec 12),
    let i : Instr := .fsh rs2 rs1 imm
    let a := s.effectiveAddr rs1 imm
    let a1 := s.params.truncX (a + 1)
    (s.fs = 0 → exec i s = .next (s.raise (.illegalInstruction (encode i)))) ∧
    (s.fs ≠ 0 →
      (a.getLsbD 0 = true → s.params.misaligned = .trap → exec i s = .next (s.raise (.storeAddressMisaligned a))) ∧
      (a.getLsbD 0 = false → (s.params.inMem a.toNat = false ∨ s.params.inMem a1.toNat = false) →
        exec i s = .next (s.raise (.storeAccessFault a))) ∧
      (a.getLsbD 0 = true → s.params.misaligned = .split → s.params.inMem a.toNat = false →
        exec i s = .next (s.raise (.storeAccessFault a))) ∧
      (a.getLsbD 0 = true → s.params.misaligned = .split → s.params.inMem a.toNat = true →
        s.params.inMem a1.toNat = false → exec i s = .next (s.raise (.storeAccessFault a1))) ∧
      (s.mem.wf = true → (a.getLsbD 0 = false ∨ s.params.misaligned = .split) → s.params.inMem a.toNat = true →
        s.params.inMem a1.toNat = true →
        ∃ t, exec i s = .next t ∧
          t.mem.read a.toNat = (s.readF rs2).extractLsb' 0 8 ∧
          t.mem.read a1.toNat = (s.readF rs2).extractLsb' 8 8 ∧
          (∀ b : Nat, b ≠ a.toNat → b ≠ a1.toNat → t.mem.read b = s.mem.read b) ∧
          (∀ r, t.readX r = s.readX r) ∧ (∀ r, t.readF r = s.readF r) ∧ t.fcsr = s.fcsr ∧
          t.fs = s.fsAfter false ∧ (s.params.fsTracking = .precise → t.fs = s.fs) ∧ t.pc = s.nextPc ∧ SameTrapState s t ∧ t.params = s.params))

/-- R152: FLH after FSH from the same aligned address, no store to those bytes between: the low 16 bits stored, boxed. -/
def Obligations.FlhAfterFshReboxes : Prop :=
  ∀ (s t u v : State) (rs2 rd : FReg) (rs1 rs1' : XReg) (imm imm' : BitVec 12),
    let a := s.effectiveAddr rs1 imm
    s.mem.wf = true → Enabled s (.fsh rs2 rs1 imm) → a.getLsbD 0 = false → s.params.inMem a.toNat = true →
    s.params.inMem (s.addrAfter a).toNat = true → exec (.fsh rs2 rs1 imm) s = .next t →
    u.params = s.params → u.effectiveAddr rs1' imm' = a → u.mem.read a.toNat = t.mem.read a.toNat →
    u.mem.read (s.addrAfter a).toNat = t.mem.read (s.addrAfter a).toNat → Enabled u (.flh rd rs1' imm') →
    exec (.flh rd rs1' imm') u = .next v →
    v.readF rd = box s.params .H ((s.readF rs2).extractLsb' 0 16)

/-! ### 42_computational.md -/

/-- R160: FADD.H, FSUB.H, FMUL.H and FDIV.H complete with the result of their function of the two unboxed operands, or
raise. -/
def Obligations.ArithmeticCompletes : Prop :=
  ∀ (s : State) (rd rs1 rs2 : FReg) (rm : RmField) (i : Instr)
    (op : RoundingMode → Fp.Bits .H → Fp.Bits .H → Fp.Bits .H × FlagSet),
    ((i = .faddH rd rs1 rs2 rm ∧ op = Fp.add .H) ∨ (i = .fsubH rd rs1 rs2 rm ∧ op = Fp.sub .H) ∨
      (i = .fmulH rd rs1 rs2 rm ∧ op = Fp.mul .H) ∨ (i = .fdivH rd rs1 rs2 rm ∧ op = Fp.div .H)) →
    (¬ Enabled s i ∨ s.roundingMode rm = none → exec i s = .next (s.raise (.illegalInstruction (encode i)))) ∧
    ∀ r, Enabled s i → s.roundingMode rm = some r →
      ∃ t, exec i s = .next t ∧
        WroteF s t rd (box s.params .H (op r (s.operand .H rs1) (s.operand .H rs2)).1)
          (op r (s.operand .H rs1) (s.operand .H rs2)).2

/-- R165: FSQRT.H completes with the square root of the unboxed operand, or raises; the flags it never sets and the corner
cases of the rule; a non-zero `rs2` field decodes to nothing. -/
def Obligations.SqrtCompletes : Prop :=
  (∀ w : InstWord, w &&& 0xFFF0007F = 0x5C000053 →
    decodeWord w = .ok (.fsqrtH (w.extractLsb' 7 5) (w.extractLsb' 15 5) (RmField.ofBits (w.extractLsb' 12 3)))) ∧
  (∀ w : InstWord, w &&& 0xFE00007F = 0x5C000053 → w.extractLsb' 20 5 ≠ 0 → ∀ i, decodeWord w ≠ .ok i) ∧
  (∀ (s : State) (rd rs1 : FReg) (rm : RmField),
    let i : Instr := .fsqrtH rd rs1 rm
    (¬ Enabled s i ∨ s.roundingMode rm = none → exec i s = .next (s.raise (.illegalInstruction (encode i)))) ∧
    ∀ r, Enabled s i → s.roundingMode rm = some r →
      ∃ t, exec i s = .next t ∧
        WroteF s t rd (box s.params .H (Fp.sqrt .H r (s.operand .H rs1)).1) (Fp.sqrt .H r (s.operand .H rs1)).2) ∧
  ∀ r : RoundingMode,
    (∀ x : Fp.Bits .H, (Fp.sqrt .H r x).2 &&& (flagDZ ||| flagOF ||| flagUF) = 0) ∧
    Fp.sqrt .H r 0x0000 = (0x0000, flagNone) ∧ Fp.sqrt .H r 0x8000 = (0x8000, flagNone) ∧
    Fp.sqrt .H r 0x7C00 = (0x7C00, flagNone) ∧ Fp.sqrt .H r 0x0001 = (0x0C00, flagNone) ∧
    ∀ x : Fp.Bits .H, Fp.sign .H x = true → x ≠ 0x8000 → Fp.isNaN .H x = false → Fp.sqrt .H r x = (0x7E00, flagNV)

/-- R169: the four fused multiply-adds complete with one rounding of their product and addend, or raise; the negations
are of the operands. -/
def Obligations.FusedMultiplyAddCompletes : Prop :=
  ∀ (s : State) (rd rs1 rs2 rs3 : FReg) (rm : RmField) (i : Instr) (n1 n3 : Bool),
    ((i = .fmaddH rd rs1 rs2 rs3 rm ∧ n1 = false ∧ n3 = false) ∨
      (i = .fmsubH rd rs1 rs2 rs3 rm ∧ n1 = false ∧ n3 = true) ∨
      (i = .fnmsubH rd rs1 rs2 rs3 rm ∧ n1 = true ∧ n3 = false) ∨
      (i = .fnmaddH rd rs1 rs2 rs3 rm ∧ n1 = true ∧ n3 = true)) →
    (¬ Enabled s i ∨ s.roundingMode rm = none → exec i s = .next (s.raise (.illegalInstruction (encode i)))) ∧
    ∀ r, Enabled s i → s.roundingMode rm = some r →
      let a : BitVec 16 := if n1 then s.operand .H rs1 ^^^ 0x8000 else s.operand .H rs1
      let c : BitVec 16 := if n3 then s.operand .H rs3 ^^^ 0x8000 else s.operand .H rs3
      ∃ t, exec i s = .next t ∧
        WroteF s t rd (box s.params .H (Fp.fma .H r a (s.operand .H rs2) c).1)
          (Fp.fma .H r a (s.operand .H rs2) c).2 ∧
        (Fp.fma .H r a (s.operand .H rs2) c).2 &&& flagDZ = 0

/-- R166, R167: FMIN.H and FMAX.H complete with the operand the order of the values picks, or raise; -0 is below +0; a NaN
operand gives the other operand, two give the canonical NaN; NV only for a signaling NaN. -/
def Obligations.MinMaxComplete : Prop :=
  (∀ w : InstWord, w &&& 0xFE00707F = 0x2C000053 →
    decodeWord w = .ok (.fminH (w.extractLsb' 7 5) (w.extractLsb' 15 5) (w.extractLsb' 20 5))) ∧
  (∀ w : InstWord, w &&& 0xFE00707F = 0x2C001053 →
    decodeWord w = .ok (.fmaxH (w.extractLsb' 7 5) (w.extractLsb' 15 5) (w.extractLsb' 20 5))) ∧
  ∀ (s : State) (rd rs1 rs2 : FReg),
    let a := s.operand .H rs1
    let b := s.operand .H rs2
    let fl := if Fp.isSNaN .H a || Fp.isSNaN .H b then flagNV else flagNone
    ∀ (i : Instr) (isMax : Bool),
      ((i = .fminH rd rs1 rs2 ∧ isMax = false) ∨ (i = .fmaxH rd rs1 rs2 ∧ isMax = true)) →
      (¬ Enabled s i → exec i s = .next (s.raise (.illegalInstruction (encode i)))) ∧
      (Enabled s i → ∃ t v, exec i s = .next t ∧ WroteF s t rd (box s.params .H v) fl ∧
        (Fp.isNaN .H a = true → Fp.isNaN .H b = true → v = 0x7E00) ∧
        (Fp.isNaN .H a = true → Fp.isNaN .H b = false → v = b) ∧
        (Fp.isNaN .H a = false → Fp.isNaN .H b = true → v = a) ∧
        (Fp.isNaN .H a = false → Fp.isNaN .H b = false →
          (Fp.ordQ .H a < Fp.ordQ .H b → v = if isMax then b else a) ∧
          (Fp.ordQ .H b < Fp.ordQ .H a → v = if isMax then a else b) ∧
          (Fp.ordQ .H a = Fp.ordQ .H b → v = if Fp.sign .H a = isMax then b else a)))

/-! ### 43_convert_move.md -/

/-- R190: the four conversions to an integer complete or raise; a 32-bit result is sign-extended, FCVT.WU.H's too. -/
def Obligations.HalfToIntegerCompletes : Prop :=
  ∀ (s : State) (rd : XReg) (rs1 : FReg) (rm : RmField) (i : Instr) (n : Nat) (lo hi : ℤ),
    ((i = .fcvtWH rd rs1 rm ∧ n = 32 ∧ lo = -2 ^ 31 ∧ hi = 2 ^ 31 - 1) ∨
      (i = .fcvtWUH rd rs1 rm ∧ n = 32 ∧ lo = 0 ∧ hi = 2 ^ 32 - 1) ∨
      (i = .fcvtLH rd rs1 rm ∧ n = 64 ∧ lo = -2 ^ 63 ∧ hi = 2 ^ 63 - 1) ∨
      (i = .fcvtLUH rd rs1 rm ∧ n = 64 ∧ lo = 0 ∧ hi = 2 ^ 64 - 1)) →
    (¬ Enabled s i ∨ s.roundingMode rm = none → exec i s = .next (s.raise (.illegalInstruction (encode i)))) ∧
    ∀ r, Enabled s i → s.roundingMode rm = some r →
      ∃ (t : State) (v : ℤ) (fl : FlagSet), exec i s = .next t ∧ Fp.IsToInt .H r (s.operand .H rs1) lo hi (v, fl) ∧
        WroteX s t rd (s.params.sextX (BitVec.ofInt n v)) fl

/-- R199: the four conversions from an integer complete with the integer rounded once, or raise. -/
def Obligations.IntegerToHalfCompletes : Prop :=
  ∀ (s : State) (rd : FReg) (rs1 : XReg) (rm : RmField) (i : Instr) (n : ℤ),
    ((i = .fcvtHW rd rs1 rm ∧ n = ((s.readX rs1).extractLsb' 0 32).toInt) ∨
      (i = .fcvtHWU rd rs1 rm ∧ n = ((s.readX rs1).extractLsb' 0 32).toNat) ∨
      (i = .fcvtHL rd rs1 rm ∧ n = (s.readX rs1).toInt) ∨
      (i = .fcvtHLU rd rs1 rm ∧ n = (s.readX rs1).toNat)) →
    (¬ Enabled s i ∨ s.roundingMode rm = none → exec i s = .next (s.raise (.illegalInstruction (encode i)))) ∧
    ∀ r, Enabled s i → s.roundingMode rm = some r →
      ∃ t out, exec i s = .next t ∧ Fp.IsFromInt .H r n out ∧ WroteF s t rd (box s.params .H out.1) out.2

/-- R206: the six conversions between formats complete with the operand of their source format converted, or raise. -/
def Obligations.FormatConversionCompletes : Prop :=
  ∀ (s : State) (rd rs1 : FReg) (rm : RmField) (i : Instr) (F G : Format),
    ((i = .fcvtSH rd rs1 rm ∧ F = .H ∧ G = .S) ∨ (i = .fcvtHS rd rs1 rm ∧ F = .S ∧ G = .H) ∨
      (i = .fcvtDH rd rs1 rm ∧ F = .H ∧ G = .D) ∨ (i = .fcvtHD rd rs1 rm ∧ F = .D ∧ G = .H) ∨
      (i = .fcvtQH rd rs1 rm ∧ F = .H ∧ G = .Q) ∨ (i = .fcvtHQ rd rs1 rm ∧ F = .Q ∧ G = .H)) →
    (¬ Enabled s i ∨ s.roundingMode rm = none → exec i s = .next (s.raise (.illegalInstruction (encode i)))) ∧
    ∀ r, Enabled s i → s.roundingMode rm = some r →
      ∃ t out, exec i s = .next t ∧ Fp.IsConverted F G r (s.operand F rs1) out ∧
        WroteF s t rd (box s.params G out.1) out.2

/-- R209: the three sign injections complete or raise; the magnitude bits pass through, NaN or not, and no flag is set. -/
def Obligations.SignInjectionCompletes : Prop :=
  ∀ (s : State) (rd rs1 rs2 : FReg),
    let a := s.operand .H rs1
    let b := s.operand .H rs2
    ∀ (i : Instr) (sgn : Bool),
      ((i = .fsgnjH rd rs1 rs2 ∧ sgn = b.getLsbD 15) ∨ (i = .fsgnjnH rd rs1 rs2 ∧ sgn = !b.getLsbD 15) ∨
        (i = .fsgnjxH rd rs1 rs2 ∧ sgn = (a.getLsbD 15 ^^ b.getLsbD 15))) →
      (¬ Enabled s i → exec i s = .next (s.raise (.illegalInstruction (encode i)))) ∧
      (Enabled s i →
        ∃ t, exec i s = .next t ∧
          WroteF s t rd (box s.params .H (BitVec.ofBool sgn ++ a.extractLsb' 0 15)) flagNone)

/-- R220, R221: the moves between the register files complete, copying the 16 bits without a box check, or raise. -/
def Obligations.MovesComplete : Prop :=
  (∀ w : InstWord, w &&& 0xFFF0707F = 0xE4000053 →
    decodeWord w = .ok (.fmvXH (w.extractLsb' 7 5) (w.extractLsb' 15 5))) ∧
  (∀ w : InstWord, w &&& 0xFFF0707F = 0xF4000053 →
    decodeWord w = .ok (.fmvHX (w.extractLsb' 7 5) (w.extractLsb' 15 5))) ∧
  ∀ s : State,
    (∀ (rd : XReg) (rs1 : FReg),
      (s.fs = 0 → exec (.fmvXH rd rs1) s = .next (s.raise (.illegalInstruction (encode (.fmvXH rd rs1))))) ∧
      (s.fs ≠ 0 → ∃ t, exec (.fmvXH rd rs1) s = .next t ∧
        WroteX s t rd (s.params.sextX ((s.readF rs1).extractLsb' 0 16)) flagNone)) ∧
    (∀ (rd : FReg) (rs1 : XReg),
      (s.fs = 0 → exec (.fmvHX rd rs1) s = .next (s.raise (.illegalInstruction (encode (.fmvHX rd rs1))))) ∧
      (s.fs ≠ 0 → ∃ t, exec (.fmvHX rd rs1) s = .next t ∧
        WroteF s t rd (box s.params .H ((s.readX rs1).extractLsb' 0 16)) flagNone))

/-! ### 44_compare.md and 45_classify.md -/

/-- R240: the three compares complete with 1 or 0, and NV, or raise; `key` is the integer form of the order that the rule gives. -/
def Obligations.ComparesComplete : Prop :=
  ∀ (s : State) (rd : XReg) (rs1 rs2 : FReg),
    let a := s.operand .H rs1
    let b := s.operand .H rs2
    let nan := Fp.isNaN .H a || Fp.isNaN .H b
    let snan := Fp.isSNaN .H a || Fp.isSNaN .H b
    let key (v : BitVec 16) : ℤ := if v.getLsbD 15 then -((v.extractLsb' 0 15).toNat : ℤ) else (v.extractLsb' 0 15).toNat
    (nan = false → (Fp.ordQ .H a < Fp.ordQ .H b ↔ key a < key b) ∧ (Fp.ordQ .H a = Fp.ordQ .H b ↔ key a = key b)) ∧
    ∀ (i : Instr) (holds : Prop) (invalid : Bool),
      ((i = .feqH rd rs1 rs2 ∧ holds = (Fp.ordQ .H a = Fp.ordQ .H b) ∧ invalid = snan) ∨
        (i = .fltH rd rs1 rs2 ∧ holds = (Fp.ordQ .H a < Fp.ordQ .H b) ∧ invalid = nan) ∨
        (i = .fleH rd rs1 rs2 ∧ holds = (Fp.ordQ .H a ≤ Fp.ordQ .H b) ∧ invalid = nan)) →
      (¬ Enabled s i → exec i s = .next (s.raise (.illegalInstruction (encode i)))) ∧
      (Enabled s i → ∃ t v, exec i s = .next t ∧ WroteX s t rd v (if invalid then flagNV else flagNone) ∧
        ((nan = false ∧ holds) → v = 1) ∧ (¬ (nan = false ∧ holds) → v = 0))

/-- R250: FCLASS.H completes with the one bit of the class, for each row of the table, and every pattern has a class. -/
def Obligations.ClassifyCompletes : Prop :=
  (∀ w : InstWord, w &&& 0xFFF0707F = 0xE4001053 →
    decodeWord w = .ok (.fclassH (w.extractLsb' 7 5) (w.extractLsb' 15 5))) ∧
  ∀ (s : State) (rd : XReg) (rs1 : FReg),
    (¬ Enabled s (.fclassH rd rs1) →
      exec (.fclassH rd rs1) s = .next (s.raise (.illegalInstruction (encode (.fclassH rd rs1))))) ∧
    (Enabled s (.fclassH rd rs1) →
    let a := s.operand .H rs1
    let neg := a.getLsbD 15
    let E := (a.extractLsb' 10 5).toNat
    let T := (a.extractLsb' 0 10).toNat
    ∃ t k, exec (.fclassH rd rs1) s = .next t ∧ k ≤ 9 ∧ WroteX s t rd (BitVec.twoPow 64 k) flagNone ∧
      (k = 0 ↔ a = 0xFC00) ∧
      (k = 1 ↔ neg = true ∧ 1 ≤ E ∧ E ≤ 30) ∧
      (k = 2 ↔ neg = true ∧ E = 0 ∧ T ≠ 0) ∧
      (k = 3 ↔ a = 0x8000) ∧
      (k = 4 ↔ a = 0x0000) ∧
      (k = 5 ↔ neg = false ∧ E = 0 ∧ T ≠ 0) ∧
      (k = 6 ↔ neg = false ∧ 1 ≤ E ∧ E ≤ 30) ∧
      (k = 7 ↔ a = 0x7C00) ∧
      (k = 8 ↔ E = 31 ∧ T ≠ 0 ∧ a.getLsbD 9 = false) ∧
      (k = 9 ↔ E = 31 ∧ a.getLsbD 9 = true))

/-! ### 47_host_subset.md -/

/-- R271, R272, R273: LUI, ADDI and ADD, modulo 2^XLEN. -/
def Obligations.LuiAddiAddComplete : Prop :=
  (∀ w : InstWord, w &&& 0x0000007F = 0x00000037 →
    decodeWord w = .ok (.lui (w.extractLsb' 7 5) (w.extractLsb' 12 20))) ∧
  (∀ w : InstWord, w &&& 0x0000707F = 0x00000013 →
    decodeWord w = .ok (.addi (w.extractLsb' 7 5) (w.extractLsb' 15 5) (w.extractLsb' 20 12))) ∧
  (∀ w : InstWord, w &&& 0xFE00707F = 0x00000033 →
    decodeWord w = .ok (.add (w.extractLsb' 7 5) (w.extractLsb' 15 5) (w.extractLsb' 20 5))) ∧
  ∀ s : State, (s.nextPc.toNat = (s.pc.toNat + 4) % 2 ^ s.params.xbits) ∧
    (∀ (rd : XReg) (imm : BitVec 20),
      ∃ t, exec (.lui rd imm) s = .next t ∧ WroteHostX s t rd (s.params.sextX (imm ++ 0#12)) s.nextPc) ∧
    (∀ (rd rs1 : XReg) (imm : BitVec 12),
      ∃ t v, exec (.addi rd rs1 imm) s = .next t ∧ WroteHostX s t rd v s.nextPc ∧
        (v.toNat : ℤ) = ((s.readX rs1).toNat + imm.toInt) % 2 ^ s.params.xbits) ∧
    (∀ rd rs1 rs2 : XReg,
      ∃ t v, exec (.add rd rs1 rs2) s = .next t ∧ WroteHostX s t rd v s.nextPc ∧
        v.toNat = ((s.readX rs1).toNat + (s.readX rs2).toNat) % 2 ^ s.params.xbits)

/-- R274, R275: BEQ and BNE, taken, not taken, and taken to a misaligned target. -/
def Obligations.BranchesCompleteOrRaise : Prop :=
  (∀ w : InstWord, w &&& 0x0000707F = 0x00000063 →
    decodeWord w = .ok (.beq (w.extractLsb' 15 5) (w.extractLsb' 20 5)
      (w.extractLsb' 31 1 ++ w.extractLsb' 7 1 ++ w.extractLsb' 25 6 ++ w.extractLsb' 8 4 ++ 0#1))) ∧
  (∀ w : InstWord, w &&& 0x0000707F = 0x00001063 →
    decodeWord w = .ok (.bne (w.extractLsb' 15 5) (w.extractLsb' 20 5)
      (w.extractLsb' 31 1 ++ w.extractLsb' 7 1 ++ w.extractLsb' 25 6 ++ w.extractLsb' 8 4 ++ 0#1))) ∧
  ∀ (s : State) (rs1 rs2 : XReg) (off : BitVec 13),
    ∃ target : Word, (target.toNat : ℤ) = (s.pc.toNat + off.toInt) % 2 ^ s.params.xbits ∧
      ∀ (i : Instr) (taken : Prop),
        ((i = .beq rs1 rs2 off ∧ taken = (s.readX rs1 = s.readX rs2)) ∨
          (i = .bne rs1 rs2 off ∧ taken = (s.readX rs1 ≠ s.readX rs2))) →
        (taken → target.getLsbD 1 = false → exec i s = .next { s with pc := target }) ∧
        (taken → target.getLsbD 1 = true → exec i s = .next (s.raise (.instructionAddressMisaligned target))) ∧
        (¬ taken → exec i s = .next { s with pc := s.nextPc })

/-- R276: JAL, to an aligned and to a misaligned target. -/
def Obligations.JalCompletesOrRaises : Prop :=
  (∀ w : InstWord, w &&& 0x0000007F = 0x0000006F →
    decodeWord w = .ok (.jal (w.extractLsb' 7 5)
      (w.extractLsb' 31 1 ++ w.extractLsb' 12 8 ++ w.extractLsb' 20 1 ++ w.extractLsb' 21 10 ++ 0#1))) ∧
  ∀ (s : State) (rd : XReg) (off : BitVec 21),
    ∃ target : Word, (target.toNat : ℤ) = (s.pc.toNat + off.toInt) % 2 ^ s.params.xbits ∧
      (target.getLsbD 1 = false →
        ∃ t link, exec (.jal rd off) s = .next t ∧ WroteHostX s t rd link target ∧
          link.toNat = (s.pc.toNat + 4) % 2 ^ s.params.xbits) ∧
      (target.getLsbD 1 = true → exec (.jal rd off) s = .next (s.raise (.instructionAddressMisaligned target)))

/-- R277 to R283: the six CSR instructions complete on a CSR that is mapped and allowed, with the old value read and the
new value written, or not written, as each rule says. -/
def Obligations.CsrInstructionsComplete : Prop :=
  (∀ w : InstWord, w &&& 0x0000007F = 0x00000073 →
    let rd := w.extractLsb' 7 5
    let csr := w.extractLsb' 20 12
    let src := w.extractLsb' 15 5
    (w.extractLsb' 12 3 = 0b001 → decodeWord w = .ok (.csrrw rd csr src)) ∧
    (w.extractLsb' 12 3 = 0b010 → decodeWord w = .ok (.csrrs rd csr src)) ∧
    (w.extractLsb' 12 3 = 0b011 → decodeWord w = .ok (.csrrc rd csr src)) ∧
    (w.extractLsb' 12 3 = 0b101 → decodeWord w = .ok (.csrrwi rd csr src)) ∧
    (w.extractLsb' 12 3 = 0b110 → decodeWord w = .ok (.csrrsi rd csr src)) ∧
    (w.extractLsb' 12 3 = 0b111 → decodeWord w = .ok (.csrrci rd csr src))) ∧
  ∀ (s : State) (rd src : BitVec 5) (csr : BitVec 12) (c : Csr), Csr.ofAddr csr = some c → s.csrAllowed c = true →
    let old := s.readCsr c
    let imm := s.params.zextX src
    ∀ (i : Instr) (writes : Prop) (new : Word),
      ((i = .csrrw rd csr src ∧ writes = True ∧ new = s.readX src) ∨
        (i = .csrrs rd csr src ∧ writes = (src ≠ 0) ∧ new = old ||| s.readX src) ∨
        (i = .csrrc rd csr src ∧ writes = (src ≠ 0) ∧ new = old &&& ~~~ s.readX src) ∨
        (i = .csrrwi rd csr src ∧ writes = True ∧ new = imm) ∨
        (i = .csrrsi rd csr src ∧ writes = (src ≠ 0) ∧ new = old ||| imm) ∨
        (i = .csrrci rd csr src ∧ writes = (src ≠ 0) ∧ new = old &&& ~~~ imm)) →
      ∃ t, exec i s = .next t ∧
        (writes → AccessedCsr s t (s.writeCsr c new) rd (s.params.truncX old)) ∧
        (¬ writes → AccessedCsr s t s rd (s.params.truncX old))

/-- R277, R286, R29: an address outside the map, a floating-point CSR with `FS` = 0, a trap CSR with `TRAP` = fault. -/
def Obligations.CsrAccessRaises : Prop :=
  ∀ (s : State) (rd src : BitVec 5) (csr : BitVec 12) (i : Instr),
    (i = .csrrw rd csr src ∨ i = .csrrs rd csr src ∨ i = .csrrc rd csr src ∨ i = .csrrwi rd csr src ∨
      i = .csrrsi rd csr src ∨ i = .csrrci rd csr src) →
    ((csr ∉ [0x001, 0x002, 0x003, 0x300, 0x305, 0x341, 0x342, 0x343]) ∨
      (csr ∈ [0x001, 0x002, 0x003] ∧ s.fs = 0) ∨
      (csr ∈ [0x305, 0x341, 0x342, 0x343] ∧ s.params.trap = .fault)) →
    exec i s = .next (s.raise (.illegalInstruction (encode i)))

/-- R286: the CSR map: which address is which CSR, when it exists, what it reads as and what a write of `v` does. -/
def Obligations.CsrMap : Prop :=
  (∀ addr, addr ∉ [0x001, 0x002, 0x003, 0x300, 0x305, 0x341, 0x342, 0x343] → Csr.ofAddr addr = none) ∧
  Csr.ofAddr 0x001 = some .fflags ∧ Csr.ofAddr 0x002 = some .frm ∧ Csr.ofAddr 0x003 = some .fcsr ∧
  Csr.ofAddr 0x300 = some .mstatus ∧ Csr.ofAddr 0x305 = some .mtvec ∧ Csr.ofAddr 0x341 = some .mepc ∧
  Csr.ofAddr 0x342 = some .mcause ∧ Csr.ofAddr 0x343 = some .mtval ∧
  (∀ s : State,
    (∀ c ∈ [Csr.fflags, .frm, .fcsr], s.csrAllowed c = true ↔ s.fs ≠ 0) ∧ s.csrAllowed .mstatus = true ∧
    (∀ c ∈ [Csr.mtvec, .mepc, .mcause, .mtval], s.csrAllowed c = true ↔ s.params.trap = .mmode)) ∧
  (∀ s : State,
    (s.readCsr .fflags).toNat = (s.fcsr.extractLsb' 0 5).toNat ∧ (s.readCsr .frm).toNat = (s.fcsr.extractLsb' 5 3).toNat ∧
    (s.readCsr .fcsr).toNat = s.fcsr.toNat ∧
    (∀ k < 64, (s.readCsr .mstatus).getLsbD k =
      (if k = s.params.xbits - 1 then decide (s.fs = 3) else decide (13 ≤ k) && s.fs.getLsbD (k - 13))) ∧
    s.readCsr .mtvec = s.mtvec ∧ s.readCsr .mepc = s.mepc ∧ s.readCsr .mcause = s.mcause ∧
    s.readCsr .mtval = s.mtval) ∧
  (∀ (s : State) (v : Word),
    s.writeCsr .fflags v = { s with fcsr := s.fcsr.extractLsb' 5 3 ++ v.extractLsb' 0 5, fs := 3 } ∧
    s.writeCsr .frm v = { s with fcsr := v.extractLsb' 0 3 ++ s.fcsr.extractLsb' 0 5, fs := 3 } ∧
    s.writeCsr .fcsr v = { s with fcsr := v.extractLsb' 0 8, fs := 3 } ∧
    s.writeCsr .mstatus v = { s with fs := v.extractLsb' 13 2 } ∧
    s.writeCsr .mtvec v = { s with mtvec := s.params.truncX (v.extractLsb' 2 62 ++ 0#2) } ∧
    s.writeCsr .mepc v = { s with mepc := s.params.truncX (v.extractLsb' 2 62 ++ 0#2) } ∧
    s.writeCsr .mcause v = { s with mcause := s.params.truncX v } ∧
    s.writeCsr .mtval v = { s with mtval := s.params.truncX v })

/-! ### 40_numerics.md: the functions, over rational and real numbers -/

/-- R119: the machine's integer rounding of any magnitude, at any power of two, is `RoundInt` of the real number. -/
def Obligations.RoundIntFollowsTable : Prop :=
  ∀ (rm : RoundingMode) (s : Bool) (m : Fp.Magnitude) (q : ℤ) (x : ℝ), m.IsValue x →
    Fp.IsRoundInt rm s (x / (2 : ℝ) ^ q) (Fp.roundInt rm s (m.split q))

/-- R120: the machine's rounding of any positive magnitude to any format is `Round_F` of the real number. -/
def Obligations.RoundFollowsProcedure : Prop :=
  ∀ (F : Format) (rm : RoundingMode) (s : Bool) (m : Fp.Magnitude) (x : ℝ), m.IsValue x → 0 < x →
    Fp.IsRounded F rm s x (Fp.round F rm s m)

/-- R121: the results of an overflow, that it sets OF and NX, and in half precision from which magnitude on it happens. -/
def Obligations.OverflowFollowsTable : Prop :=
  (∀ (F : Format) (s : Bool),
    Fp.HasFields F (Fp.inf F s) s (2 ^ F.expBits - 1) 0 ∧
    Fp.HasFields F (Fp.maxFinite F s) s (2 ^ F.expBits - 2) (2 ^ F.fracBits - 1) ∧
    Fp.overflow F .RNE s = Fp.inf F s ∧ Fp.overflow F .RTZ s = Fp.maxFinite F s ∧
    Fp.overflow F .RDN s = (if s then Fp.inf F s else Fp.maxFinite F s) ∧
    Fp.overflow F .RUP s = (if s then Fp.maxFinite F s else Fp.inf F s) ∧ Fp.overflow F .RMM s = Fp.inf F s) ∧
  (Fp.overflow .H .RNE false = 0x7C00 ∧ Fp.overflow .H .RNE true = 0xFC00 ∧
    Fp.overflow .H .RTZ false = 0x7BFF ∧ Fp.overflow .H .RTZ true = 0xFBFF ∧
    Fp.overflow .H .RDN false = 0x7BFF ∧ Fp.overflow .H .RDN true = 0xFC00 ∧
    Fp.overflow .H .RUP false = 0x7C00 ∧ Fp.overflow .H .RUP true = 0xFBFF ∧
    Fp.overflow .H .RMM false = 0x7C00 ∧ Fp.overflow .H .RMM true = 0xFC00) ∧
  ∀ (rm : RoundingMode) (s : Bool) (m : Fp.Magnitude) (x : ℝ), m.IsValue x → 0 < x →
    ((Fp.round .H rm s m).2 &&& flagOF ≠ 0 → Fp.round .H rm s m = (Fp.overflow .H rm s, flagOF ||| flagNX)) ∧
    (∃ (e : ℤ) (ru : ℕ), (2 : ℝ) ^ e ≤ x ∧ x < (2 : ℝ) ^ (e + 1) ∧ Fp.IsRoundInt rm s (x / (2 : ℝ) ^ (e - 10)) ru ∧
      ((Fp.round .H rm s m).2 &&& flagOF ≠ 0 ↔ 65536 ≤ ru * (2 : ℝ) ^ (e - 10))) ∧
    ((rm = .RNE ∨ rm = .RMM) → ((Fp.round .H rm s m).2 &&& flagOF ≠ 0 ↔ 65520 ≤ x)) ∧
    (rm = .RTZ → ((Fp.round .H rm s m).2 &&& flagOF ≠ 0 ↔ 65536 ≤ x))

/-- R125 with R124: addition, row by row; subtraction is addition of the negated operand; in half precision UF is never
set. -/
def Obligations.AddFollowsTable : Prop :=
  (∀ (F : Format) (rm : RoundingMode) (x y : Fp.Bits F),
    let out := Fp.add F rm x y
    let rmZero : Fp.Bits F := if rm = .RDN then Fp.zero F true else Fp.zero F false
    if Fp.isNaN F x || Fp.isNaN F y then
      out = (Fp.cNaN F, if Fp.isSNaN F x || Fp.isSNaN F y then flagNV else flagNone)
    else if Fp.isInf F x && Fp.isInf F y && (Fp.sign F x != Fp.sign F y) then out = (Fp.cNaN F, flagNV)
    else if Fp.isInf F x then out = (x, flagNone)
    else if Fp.isInf F y then out = (y, flagNone)
    else if Fp.isZero F x && Fp.isZero F y && (Fp.sign F x == Fp.sign F y) then out = (x, flagNone)
    else if Fp.isZero F x && Fp.isZero F y then out = (rmZero, flagNone)
    else Fp.IsRoundedSum F rm (Fp.valQ F x + Fp.valQ F y) out) ∧
  (∀ (F : Format) (rm : RoundingMode) (x y : Fp.Bits F), Fp.sub F rm x y = Fp.add F rm x (Fp.neg F y)) ∧
  (∀ (rm : RoundingMode) (x y : Fp.Bits .H),
    (Fp.add .H rm x y).2 &&& flagUF = 0 ∧ (Fp.sub .H rm x y).2 &&& flagUF = 0) ∧
  Fp.add .H .RNE 0x7BFF 0x5000 = (0x7C00, flagOF ||| flagNX)

/-- R126, R127: multiplication and division, row by row. -/
def Obligations.MulAndDivFollowTables : Prop :=
  ∀ (F : Format) (rm : RoundingMode) (x y : Fp.Bits F),
    let s := Fp.sign F x ^^ Fp.sign F y
    let nan : Fp.Bits F × FlagSet :=
      (Fp.cNaN F, if Fp.isSNaN F x || Fp.isSNaN F y then flagNV else flagNone)
    (if Fp.isNaN F x || Fp.isNaN F y then Fp.mul F rm x y = nan
      else if (Fp.isInf F x && Fp.isZero F y) || (Fp.isZero F x && Fp.isInf F y) then
        Fp.mul F rm x y = (Fp.cNaN F, flagNV)
      else if Fp.isInf F x || Fp.isInf F y then Fp.mul F rm x y = (Fp.inf F s, flagNone)
      else if Fp.isZero F x || Fp.isZero F y then Fp.mul F rm x y = (Fp.zero F s, flagNone)
      else Fp.IsRounded F rm s ((|Fp.valQ F x| * |Fp.valQ F y| : ℚ) : ℝ) (Fp.mul F rm x y)) ∧
    (if Fp.isNaN F x || Fp.isNaN F y then Fp.div F rm x y = nan
      else if (Fp.isInf F x && Fp.isInf F y) || (Fp.isZero F x && Fp.isZero F y) then
        Fp.div F rm x y = (Fp.cNaN F, flagNV)
      else if Fp.isInf F x then Fp.div F rm x y = (Fp.inf F s, flagNone)
      else if Fp.isInf F y then Fp.div F rm x y = (Fp.zero F s, flagNone)
      else if Fp.isZero F y then Fp.div F rm x y = (Fp.inf F s, flagDZ)
      else if Fp.isZero F x then Fp.div F rm x y = (Fp.zero F s, flagNone)
      else Fp.IsRounded F rm s ((|Fp.valQ F x| / |Fp.valQ F y| : ℚ) : ℝ) (Fp.div F rm x y))

/-- R128: the square root, row by row; in half precision it never overflows and is never tiny. -/
def Obligations.SqrtFollowsTable : Prop :=
  (∀ (F : Format) (rm : RoundingMode) (x : Fp.Bits F),
    if Fp.isSNaN F x then Fp.sqrt F rm x = (Fp.cNaN F, flagNV)
    else if Fp.isQNaN F x then Fp.sqrt F rm x = (Fp.cNaN F, flagNone)
    else if Fp.isZero F x then Fp.sqrt F rm x = (x, flagNone)
    else if Fp.sign F x then Fp.sqrt F rm x = (Fp.cNaN F, flagNV)
    else if Fp.isInf F x then Fp.sqrt F rm x = (x, flagNone)
    else Fp.IsRounded F rm false (Real.sqrt ((Fp.valQ F x : ℚ) : ℝ)) (Fp.sqrt F rm x)) ∧
  (∀ (rm : RoundingMode) (x : Fp.Bits .H), (Fp.sqrt .H rm x).2 &&& (flagOF ||| flagUF) = 0) ∧
  ∀ rm : RoundingMode, Fp.sqrt .H rm 0x0001 = (0x0C00, flagNone)

/-- R129: the fused multiply-add, row by row. -/
def Obligations.FusedFollowsTable : Prop :=
  ∀ (F : Format) (rm : RoundingMode) (x y z : Fp.Bits F),
    let out := Fp.fma F rm x y z
    let sp := Fp.sign F x ^^ Fp.sign F y
    let rmZero : Fp.Bits F := if rm = .RDN then Fp.zero F true else Fp.zero F false
    if (Fp.isInf F x && Fp.isZero F y) || (Fp.isZero F x && Fp.isInf F y) then out = (Fp.cNaN F, flagNV)
    else if Fp.isNaN F x || Fp.isNaN F y || Fp.isNaN F z then
      out = (Fp.cNaN F, if Fp.isSNaN F x || Fp.isSNaN F y || Fp.isSNaN F z then flagNV else flagNone)
    else if (Fp.isInf F x || Fp.isInf F y) && Fp.isInf F z && (sp != Fp.sign F z) then out = (Fp.cNaN F, flagNV)
    else if Fp.isInf F x || Fp.isInf F y then out = (Fp.inf F sp, flagNone)
    else if Fp.isInf F z then out = (z, flagNone)
    else if (Fp.isZero F x || Fp.isZero F y) && Fp.isZero F z && (sp == Fp.sign F z) then
      out = (Fp.zero F sp, flagNone)
    else if (Fp.isZero F x || Fp.isZero F y) && Fp.isZero F z then out = (rmZero, flagNone)
    else Fp.IsRoundedSum F rm (Fp.valQ F x * Fp.valQ F y + Fp.valQ F z) out

/-- R110, R111, R112: the numbers of the four formats, the classes by the fields, the real value of a finite pattern, and
the canonical NaNs. -/
def Obligations.ClassesAndValues : Prop :=
  (Format.width .H = 16 ∧ Format.expBits .H = 5 ∧ Format.fracBits .H = 10 ∧
    Format.bias .H = 15 ∧ Format.emin .H = -14 ∧ Format.emax .H = 15) ∧
  (Format.width .S = 32 ∧ Format.expBits .S = 8 ∧ Format.fracBits .S = 23 ∧
    Format.bias .S = 127 ∧ Format.emin .S = -126 ∧ Format.emax .S = 127) ∧
  (Format.width .D = 64 ∧ Format.expBits .D = 11 ∧ Format.fracBits .D = 52 ∧
    Format.bias .D = 1023 ∧ Format.emin .D = -1022 ∧ Format.emax .D = 1023) ∧
  (Format.width .Q = 128 ∧ Format.expBits .Q = 15 ∧ Format.fracBits .Q = 112 ∧
    Format.bias .Q = 16383 ∧ Format.emin .Q = -16382 ∧ Format.emax .Q = 16383) ∧
  (∀ (F : Format) (a : Fp.Bits F),
    let s := a.getLsbD (F.width - 1)
    let E := (a.extractLsb' F.fracBits F.expBits).toNat
    let T := (a.extractLsb' 0 F.fracBits).toNat
    let q := a.getLsbD (F.fracBits - 1)
    let ones := 2 ^ F.expBits - 1
    (Fp.isQNaN F a = true ↔ E = ones ∧ T ≠ 0 ∧ q = true) ∧ (Fp.isSNaN F a = true ↔ E = ones ∧ T ≠ 0 ∧ q = false) ∧
    (Fp.isInf F a = true ↔ E = ones ∧ T = 0) ∧ (Fp.isZero F a = true ↔ E = 0 ∧ T = 0) ∧
    (Fp.isSub F a = true ↔ E = 0 ∧ T ≠ 0) ∧ (Fp.isNormal F a = true ↔ E ≠ 0 ∧ E ≠ ones) ∧
    (Fp.isNaN F a = true ↔ Fp.isQNaN F a = true ∨ Fp.isSNaN F a = true) ∧ Fp.sign F a = s ∧
    (Fp.isZero F a = true → Fp.valQ F a = 0) ∧
    (Fp.isSub F a = true → Fp.valQ F a = (if s then -1 else 1) * T * (2 : ℚ) ^ (F.emin - F.fracBits)) ∧
    (Fp.isNormal F a = true →
      Fp.valQ F a = (if s then -1 else 1) * (2 ^ F.fracBits + T) * (2 : ℚ) ^ (E - F.bias - F.fracBits))) ∧
  Fp.cNaN .H = 0x7E00 ∧ Fp.cNaN .S = 0x7FC00000 ∧ Fp.cNaN .D = 0x7FF8000000000000 ∧
  Fp.cNaN .Q = 0x7FFF8000000000000000000000000000

/-- R113, R114: boxing and unboxing a format that fits in FLEN bits; FLEN (R8); a checked operand, which the completion
statements write `State.operand`, is the unboxed register (R115). -/
def Obligations.BoxingRules : Prop :=
  (∀ p : Params, (p.fp = .f → p.flen = 32) ∧ (p.fp = .fd → p.flen = 64) ∧ (p.fp = .fdq → p.flen = 128)) ∧
  (∀ (s : State) (F : Format) (r : FReg), s.operand F r = unbox s.params F (s.readF r)) ∧
  ∀ (p : Params) (F : Format), F.width ≤ p.flen →
    (∀ v : Fp.Bits F,
      (box p F v).extractLsb' 0 F.width = v ∧
      (∀ k, F.width ≤ k → (box p F v).getLsbD k = decide (k < p.flen)) ∧
      unbox p F (box p F v) = v) ∧
    (∀ v : FWord,
      ((∀ k, F.width ≤ k → k < p.flen → v.getLsbD k = true) → unbox p F v = v.setWidth F.width) ∧
      ((∃ k, F.width ≤ k ∧ k < p.flen ∧ v.getLsbD k = false) → unbox p F v = Fp.cNaN F))

/-- R123: an arithmetic result is a NaN only as the canonical one; any NaN operand gives it; any signaling one sets NV. -/
def Obligations.NaNResultsAreCanonical : Prop :=
  ∀ (F : Format) (rm : RoundingMode) (x y z : Fp.Bits F),
    (∀ out ∈ [Fp.add F rm x y, Fp.sub F rm x y, Fp.mul F rm x y, Fp.div F rm x y, Fp.sqrt F rm x, Fp.fma F rm x y z],
      Fp.isNaN F out.1 = true → out.1 = Fp.cNaN F) ∧
    (∀ out ∈ [Fp.add F rm x y, Fp.sub F rm x y, Fp.mul F rm x y, Fp.div F rm x y],
      (Fp.isNaN F x = true ∨ Fp.isNaN F y = true → out.1 = Fp.cNaN F) ∧
      (Fp.isSNaN F x = true ∨ Fp.isSNaN F y = true → out.2 = flagNV)) ∧
    (Fp.isNaN F x = true ∨ Fp.isNaN F y = true ∨ Fp.isNaN F z = true → (Fp.fma F rm x y z).1 = Fp.cNaN F) ∧
    (Fp.isSNaN F x = true ∨ Fp.isSNaN F y = true ∨ Fp.isSNaN F z = true → (Fp.fma F rm x y z).2 = flagNV) ∧
    (Fp.isNaN F x = true → (Fp.sqrt F rm x).1 = Fp.cNaN F) ∧ (Fp.isSNaN F x = true → (Fp.sqrt F rm x).2 = flagNV) ∧
    (∀ G : Format,
      (Fp.isNaN G (Fp.convert F G rm x).1 = true → (Fp.convert F G rm x).1 = Fp.cNaN G) ∧
      (Fp.isNaN F x = true → (Fp.convert F G rm x).1 = Fp.cNaN G) ∧
      (Fp.isSNaN F x = true → (Fp.convert F G rm x).2 = flagNV))

/-- R206: widening a half is exact, sets no flag but NV, does not depend on the rounding mode, and narrowing back gives
the half again. -/
def Obligations.WideningIsExact : Prop :=
  ∀ (G : Format) (rm rm' : RoundingMode) (a : Fp.Bits .H), G ≠ .H →
    Fp.convert .H G rm a = Fp.convert .H G rm' a ∧
    (Fp.convert .H G rm a).2 = (if Fp.isSNaN .H a then flagNV else flagNone) ∧
    (Fp.isFinite .H a = true → Fp.valQ G (Fp.convert .H G rm a).1 = Fp.valQ .H a) ∧
    (Fp.isNaN .H a = false → Fp.convert G .H rm' (Fp.convert .H G rm a).1 = (a, flagNone))

/-! ### 46_zfhmin.md section 2: the remarks on emulation -/

/-- R259, for multiplication: going through single precision gives the same half and, together, the same flags. -/
def Obligations.MultiplyThroughSingle : Prop :=
  ∀ (rm : RoundingMode) (a b : Fp.Bits .H),
    let wa := Fp.convert .H .S rm a
    let wb := Fp.convert .H .S rm b
    let p := Fp.mul .S rm wa.1 wb.1
    let n := Fp.convert .S .H rm p.1
    n.1 = (Fp.mul .H rm a b).1 ∧ wa.2 ||| wb.2 ||| p.2 ||| n.2 = (Fp.mul .H rm a b).2
end

