-- ==== Sys2Proof/Laws/Decode.lean ====
section
/-! SUPPORT. The laws of the encoding layouts: what each field of a word reads as, and what a row's mask leaves of a
word. -/

namespace Sys2Proof

@[simp] theorem RmField.ofBits_toBits (rm : RmField) : RmField.ofBits rm.toBits = rm := by cases rm <;> rfl

@[simp] theorem RmField.toBits_ofBits (b : BitVec 3) : (RmField.ofBits b).toBits = b := by
  revert b; decide

/-- The bytes of a word, put together, are the word. -/
@[simp] theorem wordOfBytes_bytesOfWord (w : InstWord) :
    wordOfBytes (w.extractLsb' 0 8) (w.extractLsb' 8 8) (w.extractLsb' 16 8) (w.extractLsb' 24 8) = w := by
  apply BitVec.eq_of_getLsbD_eq
  intro i hi
  simp only [wordOfBytes, BitVec.getLsbD_append, BitVec.getLsbD_extractLsb']
  interval_cases i <;> simp

/-! ### The fields of a word -/

@[simp] theorem rdField_encodeR (f7 : BitVec 7) (rs2 : BitVec 5) (rs1 : BitVec 5) (f3 : BitVec 3) (rd : BitVec 5) (op : BitVec 7) :
    rdField (encodeR f7 rs2 rs1 f3 rd op) = rd := by
  apply BitVec.eq_of_getLsbD_eq
  intro i hi
  simp only [rdField, encodeR, BitVec.getLsbD_append, BitVec.getLsbD_extractLsb']
  interval_cases i <;> simp

@[simp] theorem funct3Field_encodeR (f7 : BitVec 7) (rs2 : BitVec 5) (rs1 : BitVec 5) (f3 : BitVec 3) (rd : BitVec 5) (op : BitVec 7) :
    funct3Field (encodeR f7 rs2 rs1 f3 rd op) = f3 := by
  apply BitVec.eq_of_getLsbD_eq
  intro i hi
  simp only [funct3Field, encodeR, BitVec.getLsbD_append, BitVec.getLsbD_extractLsb']
  interval_cases i <;> simp

@[simp] theorem rs1Field_encodeR (f7 : BitVec 7) (rs2 : BitVec 5) (rs1 : BitVec 5) (f3 : BitVec 3) (rd : BitVec 5) (op : BitVec 7) :
    rs1Field (encodeR f7 rs2 rs1 f3 rd op) = rs1 := by
  apply BitVec.eq_of_getLsbD_eq
  intro i hi
  simp only [rs1Field, encodeR, BitVec.getLsbD_append, BitVec.getLsbD_extractLsb']
  interval_cases i <;> simp

@[simp] theorem rs2Field_encodeR (f7 : BitVec 7) (rs2 : BitVec 5) (rs1 : BitVec 5) (f3 : BitVec 3) (rd : BitVec 5) (op : BitVec 7) :
    rs2Field (encodeR f7 rs2 rs1 f3 rd op) = rs2 := by
  apply BitVec.eq_of_getLsbD_eq
  intro i hi
  simp only [rs2Field, encodeR, BitVec.getLsbD_append, BitVec.getLsbD_extractLsb']
  interval_cases i <;> simp

@[simp] theorem rdField_encodeI (imm : BitVec 12) (rs1 : BitVec 5) (f3 : BitVec 3) (rd : BitVec 5) (op : BitVec 7) :
    rdField (encodeI imm rs1 f3 rd op) = rd := by
  apply BitVec.eq_of_getLsbD_eq
  intro i hi
  simp only [rdField, encodeI, BitVec.getLsbD_append, BitVec.getLsbD_extractLsb']
  interval_cases i <;> simp

@[simp] theorem funct3Field_encodeI (imm : BitVec 12) (rs1 : BitVec 5) (f3 : BitVec 3) (rd : BitVec 5) (op : BitVec 7) :
    funct3Field (encodeI imm rs1 f3 rd op) = f3 := by
  apply BitVec.eq_of_getLsbD_eq
  intro i hi
  simp only [funct3Field, encodeI, BitVec.getLsbD_append, BitVec.getLsbD_extractLsb']
  interval_cases i <;> simp

@[simp] theorem rs1Field_encodeI (imm : BitVec 12) (rs1 : BitVec 5) (f3 : BitVec 3) (rd : BitVec 5) (op : BitVec 7) :
    rs1Field (encodeI imm rs1 f3 rd op) = rs1 := by
  apply BitVec.eq_of_getLsbD_eq
  intro i hi
  simp only [rs1Field, encodeI, BitVec.getLsbD_append, BitVec.getLsbD_extractLsb']
  interval_cases i <;> simp

@[simp] theorem immI_encodeI (imm : BitVec 12) (rs1 : BitVec 5) (f3 : BitVec 3) (rd : BitVec 5) (op : BitVec 7) :
    immI (encodeI imm rs1 f3 rd op) = imm := by
  apply BitVec.eq_of_getLsbD_eq
  intro i hi
  simp only [immI, encodeI, BitVec.getLsbD_append, BitVec.getLsbD_extractLsb']
  interval_cases i <;> simp

@[simp] theorem funct3Field_encodeS (imm : BitVec 12) (rs2 : BitVec 5) (rs1 : BitVec 5) (f3 : BitVec 3) (op : BitVec 7) :
    funct3Field (encodeS imm rs2 rs1 f3 op) = f3 := by
  apply BitVec.eq_of_getLsbD_eq
  intro i hi
  simp only [funct3Field, encodeS, BitVec.getLsbD_append, BitVec.getLsbD_extractLsb']
  interval_cases i <;> simp

@[simp] theorem rs1Field_encodeS (imm : BitVec 12) (rs2 : BitVec 5) (rs1 : BitVec 5) (f3 : BitVec 3) (op : BitVec 7) :
    rs1Field (encodeS imm rs2 rs1 f3 op) = rs1 := by
  apply BitVec.eq_of_getLsbD_eq
  intro i hi
  simp only [rs1Field, encodeS, BitVec.getLsbD_append, BitVec.getLsbD_extractLsb']
  interval_cases i <;> simp

@[simp] theorem rs2Field_encodeS (imm : BitVec 12) (rs2 : BitVec 5) (rs1 : BitVec 5) (f3 : BitVec 3) (op : BitVec 7) :
    rs2Field (encodeS imm rs2 rs1 f3 op) = rs2 := by
  apply BitVec.eq_of_getLsbD_eq
  intro i hi
  simp only [rs2Field, encodeS, BitVec.getLsbD_append, BitVec.getLsbD_extractLsb']
  interval_cases i <;> simp

@[simp] theorem rdField_encodeU (imm : BitVec 20) (rd : BitVec 5) (op : BitVec 7) :
    rdField (encodeU imm rd op) = rd := by
  apply BitVec.eq_of_getLsbD_eq
  intro i hi
  simp only [rdField, encodeU, BitVec.getLsbD_append, BitVec.getLsbD_extractLsb']
  interval_cases i <;> simp

@[simp] theorem immU_encodeU (imm : BitVec 20) (rd : BitVec 5) (op : BitVec 7) :
    immU (encodeU imm rd op) = imm := by
  apply BitVec.eq_of_getLsbD_eq
  intro i hi
  simp only [immU, encodeU, BitVec.getLsbD_append, BitVec.getLsbD_extractLsb']
  interval_cases i <;> simp

@[simp] theorem funct3Field_encodeB (off : BitVec 13) (rs2 : BitVec 5) (rs1 : BitVec 5) (f3 : BitVec 3) :
    funct3Field (encodeB off rs2 rs1 f3) = f3 := by
  apply BitVec.eq_of_getLsbD_eq
  intro i hi
  simp only [funct3Field, encodeB, BitVec.getLsbD_append, BitVec.getLsbD_extractLsb']
  interval_cases i <;> simp

@[simp] theorem rs1Field_encodeB (off : BitVec 13) (rs2 : BitVec 5) (rs1 : BitVec 5) (f3 : BitVec 3) :
    rs1Field (encodeB off rs2 rs1 f3) = rs1 := by
  apply BitVec.eq_of_getLsbD_eq
  intro i hi
  simp only [rs1Field, encodeB, BitVec.getLsbD_append, BitVec.getLsbD_extractLsb']
  interval_cases i <;> simp

@[simp] theorem rs2Field_encodeB (off : BitVec 13) (rs2 : BitVec 5) (rs1 : BitVec 5) (f3 : BitVec 3) :
    rs2Field (encodeB off rs2 rs1 f3) = rs2 := by
  apply BitVec.eq_of_getLsbD_eq
  intro i hi
  simp only [rs2Field, encodeB, BitVec.getLsbD_append, BitVec.getLsbD_extractLsb']
  interval_cases i <;> simp

@[simp] theorem rdField_encodeJ (off : BitVec 21) (rd : BitVec 5) :
    rdField (encodeJ off rd) = rd := by
  apply BitVec.eq_of_getLsbD_eq
  intro i hi
  simp only [rdField, encodeJ, BitVec.getLsbD_append, BitVec.getLsbD_extractLsb']
  interval_cases i <;> simp

/-- The two pieces of FSH's immediate. -/
@[simp] theorem immS_encodeS (imm : BitVec 12) (rs2 : BitVec 5) (rs1 : BitVec 5) (f3 : BitVec 3) (op : BitVec 7) :
    immS (encodeS imm rs2 rs1 f3 op) = imm := by
  apply BitVec.eq_of_getLsbD_eq
  intro i hi
  simp only [immS, encodeS, BitVec.getLsbD_append, BitVec.getLsbD_extractLsb']
  interval_cases i <;> simp

/-- An even branch offset is read back; bit 0 has no place in the word. -/
theorem immB_encodeB (off : BitVec 13) (rs2 : BitVec 5) (rs1 : BitVec 5) (f3 : BitVec 3)
    (h : off.getLsbD 0 = false) : immB (encodeB off rs2 rs1 f3) = off := by
  apply BitVec.eq_of_getLsbD_eq
  intro i hi
  simp only [immB, encodeB, BitVec.getLsbD_append, BitVec.getLsbD_extractLsb']
  interval_cases i <;> simp_all

/-- An even jump offset is read back. -/
theorem immJ_encodeJ (off : BitVec 21) (rd : BitVec 5) (h : off.getLsbD 0 = false) : immJ (encodeJ off rd) = off := by
  apply BitVec.eq_of_getLsbD_eq
  intro i hi
  simp only [immJ, encodeJ, BitVec.getLsbD_append, BitVec.getLsbD_extractLsb']
  interval_cases i <;> simp_all

/-- The third source of a fused multiply-add. -/
@[simp] theorem rs3Field_encodeFused (rs3 rs2 rs1 : BitVec 5) (rm : BitVec 3) (rd : BitVec 5) (op : BitVec 7) :
    rs3Field (encodeFused rs3 rs2 rs1 rm rd op) = rs3 := by
  apply BitVec.eq_of_getLsbD_eq
  intro i hi
  simp only [rs3Field, encodeFused, encodeR, BitVec.getLsbD_append, BitVec.getLsbD_extractLsb']
  interval_cases i <;> simp

/-! ### What a mask leaves of a word -/

theorem encodeR_and_funct7_funct3 (f7 : BitVec 7) (rs2 : BitVec 5) (rs1 : BitVec 5) (f3 : BitVec 3) (rd : BitVec 5) (op : BitVec 7) :
    encodeR f7 rs2 rs1 f3 rd op &&& 0xfe00707f = f7 ++ 0#5 ++ 0#5 ++ f3 ++ 0#5 ++ op := by
  rw [show (0xfe00707f : InstWord) = 127#7 ++ 0#5 ++ 0#5 ++ 7#3 ++ 0#5 ++ 127#7 by decide]
  unfold encodeR
  repeat rw [BitVec.and_append]
  simp only [show 7#3 = BitVec.allOnes 3 from rfl, show 127#7 = BitVec.allOnes 7 from rfl, BitVec.and_allOnes, BitVec.and_zero]

theorem encodeR_and_funct7 (f7 : BitVec 7) (rs2 : BitVec 5) (rs1 : BitVec 5) (f3 : BitVec 3) (rd : BitVec 5) (op : BitVec 7) :
    encodeR f7 rs2 rs1 f3 rd op &&& 0xfe00007f = f7 ++ 0#5 ++ 0#5 ++ 0#3 ++ 0#5 ++ op := by
  rw [show (0xfe00007f : InstWord) = 127#7 ++ 0#5 ++ 0#5 ++ 0#3 ++ 0#5 ++ 127#7 by decide]
  unfold encodeR
  repeat rw [BitVec.and_append]
  simp only [show 127#7 = BitVec.allOnes 7 from rfl, BitVec.and_allOnes, BitVec.and_zero]

theorem encodeR_and_funct7_rs2 (f7 : BitVec 7) (rs2 : BitVec 5) (rs1 : BitVec 5) (f3 : BitVec 3) (rd : BitVec 5) (op : BitVec 7) :
    encodeR f7 rs2 rs1 f3 rd op &&& 0xfff0007f = f7 ++ rs2 ++ 0#5 ++ 0#3 ++ 0#5 ++ op := by
  rw [show (0xfff0007f : InstWord) = 127#7 ++ 31#5 ++ 0#5 ++ 0#3 ++ 0#5 ++ 127#7 by decide]
  unfold encodeR
  repeat rw [BitVec.and_append]
  simp only [show 31#5 = BitVec.allOnes 5 from rfl, show 127#7 = BitVec.allOnes 7 from rfl, BitVec.and_allOnes, BitVec.and_zero]

theorem encodeR_and_funct7_rs2_funct3 (f7 : BitVec 7) (rs2 : BitVec 5) (rs1 : BitVec 5) (f3 : BitVec 3) (rd : BitVec 5) (op : BitVec 7) :
    encodeR f7 rs2 rs1 f3 rd op &&& 0xfff0707f = f7 ++ rs2 ++ 0#5 ++ f3 ++ 0#5 ++ op := by
  rw [show (0xfff0707f : InstWord) = 127#7 ++ 31#5 ++ 0#5 ++ 7#3 ++ 0#5 ++ 127#7 by decide]
  unfold encodeR
  repeat rw [BitVec.and_append]
  simp only [show 7#3 = BitVec.allOnes 3 from rfl, show 31#5 = BitVec.allOnes 5 from rfl, show 127#7 = BitVec.allOnes 7 from rfl, BitVec.and_allOnes, BitVec.and_zero]

theorem encodeI_and_funct3 (imm : BitVec 12) (rs1 : BitVec 5) (f3 : BitVec 3) (rd : BitVec 5) (op : BitVec 7) :
    encodeI imm rs1 f3 rd op &&& 0x0000707f = 0#12 ++ 0#5 ++ f3 ++ 0#5 ++ op := by
  rw [show (0x0000707f : InstWord) = 0#12 ++ 0#5 ++ 7#3 ++ 0#5 ++ 127#7 by decide]
  unfold encodeI
  repeat rw [BitVec.and_append]
  simp only [show 7#3 = BitVec.allOnes 3 from rfl, show 127#7 = BitVec.allOnes 7 from rfl, BitVec.and_allOnes, BitVec.and_zero]

theorem encodeS_and_funct3 (imm : BitVec 12) (rs2 : BitVec 5) (rs1 : BitVec 5) (f3 : BitVec 3) (op : BitVec 7) :
    encodeS imm rs2 rs1 f3 op &&& 0x0000707f = 0#7 ++ 0#5 ++ 0#5 ++ f3 ++ 0#5 ++ op := by
  rw [show (0x0000707f : InstWord) = 0#7 ++ 0#5 ++ 0#5 ++ 7#3 ++ 0#5 ++ 127#7 by decide]
  unfold encodeS
  repeat rw [BitVec.and_append]
  simp only [show 7#3 = BitVec.allOnes 3 from rfl, show 127#7 = BitVec.allOnes 7 from rfl, BitVec.and_allOnes, BitVec.and_zero]

theorem encodeU_and_opcode (imm : BitVec 20) (rd : BitVec 5) (op : BitVec 7) :
    encodeU imm rd op &&& 0x0000007f = 0#20 ++ 0#5 ++ op := by
  rw [show (0x0000007f : InstWord) = 0#20 ++ 0#5 ++ 127#7 by decide]
  unfold encodeU
  repeat rw [BitVec.and_append]
  simp only [show 127#7 = BitVec.allOnes 7 from rfl, BitVec.and_allOnes, BitVec.and_zero]

theorem encodeB_and_funct3 (off : BitVec 13) (rs2 : BitVec 5) (rs1 : BitVec 5) (f3 : BitVec 3) :
    encodeB off rs2 rs1 f3 &&& 0x0000707f = 0#1 ++ 0#6 ++ 0#5 ++ 0#5 ++ f3 ++ 0#4 ++ 0#1 ++ 0b1100011#7 := by
  rw [show (0x0000707f : InstWord) = 0#1 ++ 0#6 ++ 0#5 ++ 0#5 ++ 7#3 ++ 0#4 ++ 0#1 ++ 127#7 by decide]
  unfold encodeB
  repeat rw [BitVec.and_append]
  simp only [show 7#3 = BitVec.allOnes 3 from rfl, show 127#7 = BitVec.allOnes 7 from rfl, BitVec.and_allOnes, BitVec.and_zero]

theorem encodeJ_and_opcode (off : BitVec 21) (rd : BitVec 5) :
    encodeJ off rd &&& 0x0000007f = 0#1 ++ 0#10 ++ 0#1 ++ 0#8 ++ 0#5 ++ 0b1101111#7 := by
  rw [show (0x0000007f : InstWord) = 0#1 ++ 0#10 ++ 0#1 ++ 0#8 ++ 0#5 ++ 127#7 by decide]
  unfold encodeJ
  repeat rw [BitVec.and_append]
  simp only [show 127#7 = BitVec.allOnes 7 from rfl, BitVec.and_allOnes, BitVec.and_zero]

theorem encodeFused_and_fmt (rs3 rs2 rs1 : BitVec 5) (rm : BitVec 3) (rd : BitVec 5) (op : BitVec 7) :
    encodeFused rs3 rs2 rs1 rm rd op &&& 0x0600007f = 0#5 ++ 2#2 ++ 0#5 ++ 0#5 ++ 0#3 ++ 0#5 ++ op := by
  rw [show (0x0600007f : InstWord) = 0#5 ++ 3#2 ++ 0#5 ++ 0#5 ++ 0#3 ++ 0#5 ++ 127#7 by decide]
  unfold encodeFused encodeR
  repeat rw [BitVec.and_append]
  simp only [show 3#2 = BitVec.allOnes 2 from rfl, show 127#7 = BitVec.allOnes 7 from rfl, BitVec.and_allOnes,
    BitVec.and_zero]

end Sys2Proof
end

