-- ==== Sys2Proof/Laws/State.lean ====
section
/-! SUPPORT. One lemma for each field of `State` under each named update, so that no proof unfolds a record update. -/

namespace Sys2Proof.Machine

@[simp] theorem State.writeX_params (s : State) (r : XReg) (v : Word) : (s.writeX r v).params = s.params := by unfold State.writeX; split <;> rfl
@[simp] theorem State.writeX_pc (s : State) (r : XReg) (v : Word) : (s.writeX r v).pc = s.pc := by unfold State.writeX; split <;> rfl
@[simp] theorem State.writeX_f (s : State) (r : XReg) (v : Word) : (s.writeX r v).f = s.f := by unfold State.writeX; split <;> rfl
@[simp] theorem State.writeX_fcsr (s : State) (r : XReg) (v : Word) : (s.writeX r v).fcsr = s.fcsr := by unfold State.writeX; split <;> rfl
@[simp] theorem State.writeX_fs (s : State) (r : XReg) (v : Word) : (s.writeX r v).fs = s.fs := by unfold State.writeX; split <;> rfl
@[simp] theorem State.writeX_mem (s : State) (r : XReg) (v : Word) : (s.writeX r v).mem = s.mem := by unfold State.writeX; split <;> rfl
@[simp] theorem State.writeX_stored (s : State) (r : XReg) (v : Word) : (s.writeX r v).stored = s.stored := by unfold State.writeX; split <;> rfl
@[simp] theorem State.writeX_trap (s : State) (r : XReg) (v : Word) : (s.writeX r v).trap = s.trap := by unfold State.writeX; split <;> rfl
@[simp] theorem State.writeX_mtvec (s : State) (r : XReg) (v : Word) : (s.writeX r v).mtvec = s.mtvec := by unfold State.writeX; split <;> rfl
@[simp] theorem State.writeX_mepc (s : State) (r : XReg) (v : Word) : (s.writeX r v).mepc = s.mepc := by unfold State.writeX; split <;> rfl
@[simp] theorem State.writeX_mcause (s : State) (r : XReg) (v : Word) : (s.writeX r v).mcause = s.mcause := by unfold State.writeX; split <;> rfl
@[simp] theorem State.writeX_mtval (s : State) (r : XReg) (v : Word) : (s.writeX r v).mtval = s.mtval := by unfold State.writeX; split <;> rfl
@[simp] theorem State.writeX_freeCount (s : State) (r : XReg) (v : Word) : (s.writeX r v).freeCount = s.freeCount := by unfold State.writeX; split <;> rfl

@[simp] theorem State.writeF_params (s : State) (r : FReg) (v : FWord) : (s.writeF r v).params = s.params := rfl
@[simp] theorem State.writeF_pc (s : State) (r : FReg) (v : FWord) : (s.writeF r v).pc = s.pc := rfl
@[simp] theorem State.writeF_x (s : State) (r : FReg) (v : FWord) : (s.writeF r v).x = s.x := rfl
@[simp] theorem State.writeF_fcsr (s : State) (r : FReg) (v : FWord) : (s.writeF r v).fcsr = s.fcsr := rfl
@[simp] theorem State.writeF_fs (s : State) (r : FReg) (v : FWord) : (s.writeF r v).fs = s.fs := rfl
@[simp] theorem State.writeF_mem (s : State) (r : FReg) (v : FWord) : (s.writeF r v).mem = s.mem := rfl
@[simp] theorem State.writeF_stored (s : State) (r : FReg) (v : FWord) : (s.writeF r v).stored = s.stored := rfl
@[simp] theorem State.writeF_trap (s : State) (r : FReg) (v : FWord) : (s.writeF r v).trap = s.trap := rfl
@[simp] theorem State.writeF_mtvec (s : State) (r : FReg) (v : FWord) : (s.writeF r v).mtvec = s.mtvec := rfl
@[simp] theorem State.writeF_mepc (s : State) (r : FReg) (v : FWord) : (s.writeF r v).mepc = s.mepc := rfl
@[simp] theorem State.writeF_mcause (s : State) (r : FReg) (v : FWord) : (s.writeF r v).mcause = s.mcause := rfl
@[simp] theorem State.writeF_mtval (s : State) (r : FReg) (v : FWord) : (s.writeF r v).mtval = s.mtval := rfl
@[simp] theorem State.writeF_freeCount (s : State) (r : FReg) (v : FWord) : (s.writeF r v).freeCount = s.freeCount := rfl

@[simp] theorem State.accrue_params (s : State) (fl : FlagSet) : (s.accrue fl).params = s.params := rfl
@[simp] theorem State.accrue_pc (s : State) (fl : FlagSet) : (s.accrue fl).pc = s.pc := rfl
@[simp] theorem State.accrue_x (s : State) (fl : FlagSet) : (s.accrue fl).x = s.x := rfl
@[simp] theorem State.accrue_f (s : State) (fl : FlagSet) : (s.accrue fl).f = s.f := rfl
@[simp] theorem State.accrue_fs (s : State) (fl : FlagSet) : (s.accrue fl).fs = s.fs := rfl
@[simp] theorem State.accrue_mem (s : State) (fl : FlagSet) : (s.accrue fl).mem = s.mem := rfl
@[simp] theorem State.accrue_stored (s : State) (fl : FlagSet) : (s.accrue fl).stored = s.stored := rfl
@[simp] theorem State.accrue_trap (s : State) (fl : FlagSet) : (s.accrue fl).trap = s.trap := rfl
@[simp] theorem State.accrue_mtvec (s : State) (fl : FlagSet) : (s.accrue fl).mtvec = s.mtvec := rfl
@[simp] theorem State.accrue_mepc (s : State) (fl : FlagSet) : (s.accrue fl).mepc = s.mepc := rfl
@[simp] theorem State.accrue_mcause (s : State) (fl : FlagSet) : (s.accrue fl).mcause = s.mcause := rfl
@[simp] theorem State.accrue_mtval (s : State) (fl : FlagSet) : (s.accrue fl).mtval = s.mtval := rfl
@[simp] theorem State.accrue_freeCount (s : State) (fl : FlagSet) : (s.accrue fl).freeCount = s.freeCount := rfl

@[simp] theorem State.advance_params (s : State) : (s.advance).params = s.params := rfl
@[simp] theorem State.advance_x (s : State) : (s.advance).x = s.x := rfl
@[simp] theorem State.advance_f (s : State) : (s.advance).f = s.f := rfl
@[simp] theorem State.advance_fcsr (s : State) : (s.advance).fcsr = s.fcsr := rfl
@[simp] theorem State.advance_fs (s : State) : (s.advance).fs = s.fs := rfl
@[simp] theorem State.advance_mem (s : State) : (s.advance).mem = s.mem := rfl
@[simp] theorem State.advance_stored (s : State) : (s.advance).stored = s.stored := rfl
@[simp] theorem State.advance_trap (s : State) : (s.advance).trap = s.trap := rfl
@[simp] theorem State.advance_mtvec (s : State) : (s.advance).mtvec = s.mtvec := rfl
@[simp] theorem State.advance_mepc (s : State) : (s.advance).mepc = s.mepc := rfl
@[simp] theorem State.advance_mcause (s : State) : (s.advance).mcause = s.mcause := rfl
@[simp] theorem State.advance_mtval (s : State) : (s.advance).mtval = s.mtval := rfl
@[simp] theorem State.advance_freeCount (s : State) : (s.advance).freeCount = s.freeCount := rfl

@[simp] theorem State.advance_pc (s : State) : s.advance.pc = s.nextPc := rfl

@[simp] theorem State.completeFp_params (s : State) (d : Bool) : (s.completeFp d).params = s.params := rfl
@[simp] theorem State.completeFp_x (s : State) (d : Bool) : (s.completeFp d).x = s.x := rfl
@[simp] theorem State.completeFp_f (s : State) (d : Bool) : (s.completeFp d).f = s.f := rfl
@[simp] theorem State.completeFp_fcsr (s : State) (d : Bool) : (s.completeFp d).fcsr = s.fcsr := rfl
@[simp] theorem State.completeFp_mem (s : State) (d : Bool) : (s.completeFp d).mem = s.mem := rfl
@[simp] theorem State.completeFp_stored (s : State) (d : Bool) : (s.completeFp d).stored = s.stored := rfl
@[simp] theorem State.completeFp_trap (s : State) (d : Bool) : (s.completeFp d).trap = s.trap := rfl
@[simp] theorem State.completeFp_mtvec (s : State) (d : Bool) : (s.completeFp d).mtvec = s.mtvec := rfl
@[simp] theorem State.completeFp_mepc (s : State) (d : Bool) : (s.completeFp d).mepc = s.mepc := rfl
@[simp] theorem State.completeFp_mcause (s : State) (d : Bool) : (s.completeFp d).mcause = s.mcause := rfl
@[simp] theorem State.completeFp_mtval (s : State) (d : Bool) : (s.completeFp d).mtval = s.mtval := rfl

@[simp] theorem State.completeFp_pc (s : State) (d : Bool) : (s.completeFp d).pc = s.nextPc := rfl
@[simp] theorem State.completeFp_fs (s : State) (d : Bool) : (s.completeFp d).fs = s.fsAfter d := rfl
@[simp] theorem State.completeFp_freeCount (s : State) (d : Bool) : (s.completeFp d).freeCount = s.freeCountAfter := rfl

@[simp] theorem State.finishF_params (s : State) (rd : FReg) (v : FWord) (fl : FlagSet) : (s.finishF rd v fl).params = s.params := rfl
@[simp] theorem State.finishF_x (s : State) (rd : FReg) (v : FWord) (fl : FlagSet) : (s.finishF rd v fl).x = s.x := rfl
@[simp] theorem State.finishF_mem (s : State) (rd : FReg) (v : FWord) (fl : FlagSet) : (s.finishF rd v fl).mem = s.mem := rfl
@[simp] theorem State.finishF_stored (s : State) (rd : FReg) (v : FWord) (fl : FlagSet) : (s.finishF rd v fl).stored = s.stored := rfl
@[simp] theorem State.finishF_trap (s : State) (rd : FReg) (v : FWord) (fl : FlagSet) : (s.finishF rd v fl).trap = s.trap := rfl
@[simp] theorem State.finishF_mtvec (s : State) (rd : FReg) (v : FWord) (fl : FlagSet) : (s.finishF rd v fl).mtvec = s.mtvec := rfl
@[simp] theorem State.finishF_mepc (s : State) (rd : FReg) (v : FWord) (fl : FlagSet) : (s.finishF rd v fl).mepc = s.mepc := rfl
@[simp] theorem State.finishF_mcause (s : State) (rd : FReg) (v : FWord) (fl : FlagSet) : (s.finishF rd v fl).mcause = s.mcause := rfl
@[simp] theorem State.finishF_mtval (s : State) (rd : FReg) (v : FWord) (fl : FlagSet) : (s.finishF rd v fl).mtval = s.mtval := rfl

@[simp] theorem State.finishX_params (s : State) (rd : XReg) (v : Word) (fl : FlagSet) : (s.finishX rd v fl).params = s.params := by simp [State.finishX]
@[simp] theorem State.finishX_f (s : State) (rd : XReg) (v : Word) (fl : FlagSet) : (s.finishX rd v fl).f = s.f := by simp [State.finishX]
@[simp] theorem State.finishX_mem (s : State) (rd : XReg) (v : Word) (fl : FlagSet) : (s.finishX rd v fl).mem = s.mem := by simp [State.finishX]
@[simp] theorem State.finishX_stored (s : State) (rd : XReg) (v : Word) (fl : FlagSet) : (s.finishX rd v fl).stored = s.stored := by simp [State.finishX]
@[simp] theorem State.finishX_trap (s : State) (rd : XReg) (v : Word) (fl : FlagSet) : (s.finishX rd v fl).trap = s.trap := by simp [State.finishX]
@[simp] theorem State.finishX_mtvec (s : State) (rd : XReg) (v : Word) (fl : FlagSet) : (s.finishX rd v fl).mtvec = s.mtvec := by simp [State.finishX]
@[simp] theorem State.finishX_mepc (s : State) (rd : XReg) (v : Word) (fl : FlagSet) : (s.finishX rd v fl).mepc = s.mepc := by simp [State.finishX]
@[simp] theorem State.finishX_mcause (s : State) (rd : XReg) (v : Word) (fl : FlagSet) : (s.finishX rd v fl).mcause = s.mcause := by simp [State.finishX]
@[simp] theorem State.finishX_mtval (s : State) (rd : XReg) (v : Word) (fl : FlagSet) : (s.finishX rd v fl).mtval = s.mtval := by simp [State.finishX]

@[simp] theorem State.storeByte_params (s : State) (a : Nat) (v : Byte) : (s.storeByte a v).params = s.params := rfl
@[simp] theorem State.storeByte_pc (s : State) (a : Nat) (v : Byte) : (s.storeByte a v).pc = s.pc := rfl
@[simp] theorem State.storeByte_x (s : State) (a : Nat) (v : Byte) : (s.storeByte a v).x = s.x := rfl
@[simp] theorem State.storeByte_f (s : State) (a : Nat) (v : Byte) : (s.storeByte a v).f = s.f := rfl
@[simp] theorem State.storeByte_fcsr (s : State) (a : Nat) (v : Byte) : (s.storeByte a v).fcsr = s.fcsr := rfl
@[simp] theorem State.storeByte_fs (s : State) (a : Nat) (v : Byte) : (s.storeByte a v).fs = s.fs := rfl
@[simp] theorem State.storeByte_trap (s : State) (a : Nat) (v : Byte) : (s.storeByte a v).trap = s.trap := rfl
@[simp] theorem State.storeByte_mtvec (s : State) (a : Nat) (v : Byte) : (s.storeByte a v).mtvec = s.mtvec := rfl
@[simp] theorem State.storeByte_mepc (s : State) (a : Nat) (v : Byte) : (s.storeByte a v).mepc = s.mepc := rfl
@[simp] theorem State.storeByte_mcause (s : State) (a : Nat) (v : Byte) : (s.storeByte a v).mcause = s.mcause := rfl
@[simp] theorem State.storeByte_mtval (s : State) (a : Nat) (v : Byte) : (s.storeByte a v).mtval = s.mtval := rfl
@[simp] theorem State.storeByte_freeCount (s : State) (a : Nat) (v : Byte) : (s.storeByte a v).freeCount = s.freeCount := rfl

@[simp] theorem State.writeHalf_params (s : State) (a : Word) (h : BitVec 16) : (s.writeHalf a h).params = s.params := rfl
@[simp] theorem State.writeHalf_pc (s : State) (a : Word) (h : BitVec 16) : (s.writeHalf a h).pc = s.pc := rfl
@[simp] theorem State.writeHalf_x (s : State) (a : Word) (h : BitVec 16) : (s.writeHalf a h).x = s.x := rfl
@[simp] theorem State.writeHalf_f (s : State) (a : Word) (h : BitVec 16) : (s.writeHalf a h).f = s.f := rfl
@[simp] theorem State.writeHalf_fcsr (s : State) (a : Word) (h : BitVec 16) : (s.writeHalf a h).fcsr = s.fcsr := rfl
@[simp] theorem State.writeHalf_fs (s : State) (a : Word) (h : BitVec 16) : (s.writeHalf a h).fs = s.fs := rfl
@[simp] theorem State.writeHalf_trap (s : State) (a : Word) (h : BitVec 16) : (s.writeHalf a h).trap = s.trap := rfl
@[simp] theorem State.writeHalf_mtvec (s : State) (a : Word) (h : BitVec 16) : (s.writeHalf a h).mtvec = s.mtvec := rfl
@[simp] theorem State.writeHalf_mepc (s : State) (a : Word) (h : BitVec 16) : (s.writeHalf a h).mepc = s.mepc := rfl
@[simp] theorem State.writeHalf_mcause (s : State) (a : Word) (h : BitVec 16) : (s.writeHalf a h).mcause = s.mcause := rfl
@[simp] theorem State.writeHalf_mtval (s : State) (a : Word) (h : BitVec 16) : (s.writeHalf a h).mtval = s.mtval := rfl
@[simp] theorem State.writeHalf_freeCount (s : State) (a : Word) (h : BitVec 16) : (s.writeHalf a h).freeCount = s.freeCount := rfl

@[simp] theorem State.raise_params (s : State) (e : Exception) : (s.raise e).params = s.params := by unfold State.raise; split <;> rfl
@[simp] theorem State.raise_x (s : State) (e : Exception) : (s.raise e).x = s.x := by unfold State.raise; split <;> rfl
@[simp] theorem State.raise_f (s : State) (e : Exception) : (s.raise e).f = s.f := by unfold State.raise; split <;> rfl
@[simp] theorem State.raise_fcsr (s : State) (e : Exception) : (s.raise e).fcsr = s.fcsr := by unfold State.raise; split <;> rfl
@[simp] theorem State.raise_fs (s : State) (e : Exception) : (s.raise e).fs = s.fs := by unfold State.raise; split <;> rfl
@[simp] theorem State.raise_mem (s : State) (e : Exception) : (s.raise e).mem = s.mem := by unfold State.raise; split <;> rfl
@[simp] theorem State.raise_stored (s : State) (e : Exception) : (s.raise e).stored = s.stored := by unfold State.raise; split <;> rfl
@[simp] theorem State.raise_mtvec (s : State) (e : Exception) : (s.raise e).mtvec = s.mtvec := by unfold State.raise; split <;> rfl
@[simp] theorem State.raise_freeCount (s : State) (e : Exception) : (s.raise e).freeCount = s.freeCount := by unfold State.raise; split <;> rfl

@[simp] theorem State.illegal_params (s : State) (i : Instr) : (s.illegal i).params = s.params := by simp [State.illegal]
@[simp] theorem State.illegal_x (s : State) (i : Instr) : (s.illegal i).x = s.x := by simp [State.illegal]
@[simp] theorem State.illegal_f (s : State) (i : Instr) : (s.illegal i).f = s.f := by simp [State.illegal]
@[simp] theorem State.illegal_fcsr (s : State) (i : Instr) : (s.illegal i).fcsr = s.fcsr := by simp [State.illegal]
@[simp] theorem State.illegal_fs (s : State) (i : Instr) : (s.illegal i).fs = s.fs := by simp [State.illegal]
@[simp] theorem State.illegal_mem (s : State) (i : Instr) : (s.illegal i).mem = s.mem := by simp [State.illegal]
@[simp] theorem State.illegal_stored (s : State) (i : Instr) : (s.illegal i).stored = s.stored := by simp [State.illegal]
@[simp] theorem State.illegal_mtvec (s : State) (i : Instr) : (s.illegal i).mtvec = s.mtvec := by simp [State.illegal]
@[simp] theorem State.illegal_freeCount (s : State) (i : Instr) : (s.illegal i).freeCount = s.freeCount := by simp [State.illegal]

@[simp] theorem State.returnFromTrap_params (s : State) : (s.returnFromTrap).params = s.params := rfl
@[simp] theorem State.returnFromTrap_x (s : State) : (s.returnFromTrap).x = s.x := rfl
@[simp] theorem State.returnFromTrap_f (s : State) : (s.returnFromTrap).f = s.f := rfl
@[simp] theorem State.returnFromTrap_fcsr (s : State) : (s.returnFromTrap).fcsr = s.fcsr := rfl
@[simp] theorem State.returnFromTrap_fs (s : State) : (s.returnFromTrap).fs = s.fs := rfl
@[simp] theorem State.returnFromTrap_mem (s : State) : (s.returnFromTrap).mem = s.mem := rfl
@[simp] theorem State.returnFromTrap_stored (s : State) : (s.returnFromTrap).stored = s.stored := rfl
@[simp] theorem State.returnFromTrap_trap (s : State) : (s.returnFromTrap).trap = s.trap := rfl
@[simp] theorem State.returnFromTrap_mtvec (s : State) : (s.returnFromTrap).mtvec = s.mtvec := rfl
@[simp] theorem State.returnFromTrap_mepc (s : State) : (s.returnFromTrap).mepc = s.mepc := rfl
@[simp] theorem State.returnFromTrap_mcause (s : State) : (s.returnFromTrap).mcause = s.mcause := rfl
@[simp] theorem State.returnFromTrap_mtval (s : State) : (s.returnFromTrap).mtval = s.mtval := rfl
@[simp] theorem State.returnFromTrap_freeCount (s : State) : (s.returnFromTrap).freeCount = s.freeCount := rfl

@[simp] theorem State.returnFromTrap_pc (s : State) : s.returnFromTrap.pc = s.mepc := rfl

@[simp] theorem State.writeCsr_params (s : State) (c : Csr) (v : Word) : (s.writeCsr c v).params = s.params := by cases c <;> rfl
@[simp] theorem State.writeCsr_pc (s : State) (c : Csr) (v : Word) : (s.writeCsr c v).pc = s.pc := by cases c <;> rfl
@[simp] theorem State.writeCsr_x (s : State) (c : Csr) (v : Word) : (s.writeCsr c v).x = s.x := by cases c <;> rfl
@[simp] theorem State.writeCsr_f (s : State) (c : Csr) (v : Word) : (s.writeCsr c v).f = s.f := by cases c <;> rfl
@[simp] theorem State.writeCsr_mem (s : State) (c : Csr) (v : Word) : (s.writeCsr c v).mem = s.mem := by cases c <;> rfl
@[simp] theorem State.writeCsr_stored (s : State) (c : Csr) (v : Word) : (s.writeCsr c v).stored = s.stored := by cases c <;> rfl
@[simp] theorem State.writeCsr_trap (s : State) (c : Csr) (v : Word) : (s.writeCsr c v).trap = s.trap := by cases c <;> rfl
@[simp] theorem State.writeCsr_freeCount (s : State) (c : Csr) (v : Word) : (s.writeCsr c v).freeCount = s.freeCount := by cases c <;> rfl

end Sys2Proof.Machine
end

