-- ==== Sys2Proof/Laws/Memory.lean ====
section
/-! SUPPORT. The laws of memory: every operation keeps the canonical form; a read after a write gives the value
written, and every other byte is as before; the set of stored addresses. -/

namespace Sys2Proof.Machine

/-! ### The canonical form -/

/-- All addresses of the memory are above `a`. -/
def Memory.above (a : Nat) (m : Memory) : Bool := m.all (a < ·.1)

theorem Memory.wf_cons_cell {a : Nat} {v : Byte} {rest : Memory} :
    Memory.wf ((a, v) :: rest) = true ↔ v ≠ unlistedByte ∧ Memory.above a rest = true ∧ Memory.wf rest = true := by
  simp [Memory.wf, Memory.above, and_assoc]

theorem Memory.above_mono {a b : Nat} {m : Memory} (h : b ≤ a) (ha : Memory.above a m = true) :
    Memory.above b m = true := by
  simp only [Memory.above, List.all_eq_true, decide_eq_true_eq] at *
  exact fun c hc => lt_of_le_of_lt h (ha c hc)

theorem Memory.wf_cons {a : Nat} {v : Byte} {rest : Memory} (ha : Memory.above a rest = true)
    (hw : Memory.wf rest = true) : Memory.wf (Memory.cons a v rest) = true := by
  unfold Memory.cons
  split
  · exact hw
  · exact Memory.wf_cons_cell.2 ⟨‹_›, ha, hw⟩

theorem Memory.above_cons {a b : Nat} {v : Byte} {rest : Memory} (hb : b < a)
    (hr : Memory.above b rest = true) : Memory.above b (Memory.cons a v rest) = true := by
  unfold Memory.cons
  split
  · exact hr
  · simpa [Memory.above, hb] using hr

theorem Memory.above_write {b a : Nat} {v : Byte} {m : Memory} (hb : b < a) (hm : Memory.above b m = true) :
    Memory.above b (Memory.write m a v) = true := by
  induction m with
  | nil => exact Memory.above_cons hb rfl
  | cons cell rest ih =>
    obtain ⟨c, u⟩ := cell
    have hc : b < c ∧ Memory.above b rest = true := by simpa [Memory.above] using hm
    simp only [Memory.write]
    split
    · exact Memory.above_cons hb hm
    · split
      · exact Memory.above_cons hb hc.2
      · simpa [Memory.above] using And.intro hc.1 (by simpa [Memory.above] using ih hc.2)

/-- A write keeps the canonical form. -/
theorem Memory.wf_write {m : Memory} (a : Nat) (v : Byte) (h : Memory.wf m = true) :
    Memory.wf (Memory.write m a v) = true := by
  induction m with
  | nil => exact Memory.wf_cons rfl rfl
  | cons cell rest ih =>
    obtain ⟨c, u⟩ := cell
    obtain ⟨hu, hc, hr⟩ := Memory.wf_cons_cell.1 h
    simp only [Memory.write]
    split
    · rename_i hac
      exact Memory.wf_cons (by simpa [Memory.above, hac] using Memory.above_mono hac.le hc) h
    · split
      · subst_vars
        exact Memory.wf_cons hc hr
      · exact Memory.wf_cons_cell.2 ⟨hu, Memory.above_write (by omega) hc, ih hr⟩

/-- The memory after reset is in canonical form. -/
theorem State.resetWith_mem_wf (p : Params) : (State.resetWith p).mem.wf = true := rfl

theorem State.reset_mem_wf : State.reset.mem.wf = true := rfl

theorem State.storeByte_mem_wf {s : State} (a : Nat) (v : Byte) (h : s.mem.wf = true) :
    (s.storeByte a v).mem.wf = true := Memory.wf_write a v h

theorem State.writeHalf_mem_wf {s : State} (a : Word) (h : BitVec 16) (hw : s.mem.wf = true) :
    (s.writeHalf a h).mem.wf = true := State.storeByte_mem_wf _ _ (State.storeByte_mem_wf _ _ hw)

theorem State.loadBytes_mem_wf (bytes : List Byte) : ∀ (s : State) (a : Nat), s.mem.wf = true →
    (s.loadBytes a bytes).mem.wf = true := by
  induction bytes with
  | nil => exact fun _ _ h => h
  | cons v rest ih => exact fun s a h => ih _ _ (Memory.wf_write a v h)

theorem State.withFetchWord_mem_wf (s : State) (nbits w : Nat) (h : s.mem.wf = true) :
    (s.withFetchWord nbits w).mem.wf = true := State.loadBytes_mem_wf _ _ _ h

/-! ### Reading after writing -/

theorem Memory.read_of_above {a : Nat} {m : Memory} (h : Memory.above a m = true) : m.read a = unlistedByte := by
  cases m with
  | nil => rfl
  | cons cell rest =>
    obtain ⟨c, u⟩ := cell
    have hc : a < c := by have := h; simp [Memory.above] at this; exact this.1
    simp [Memory.read, hc, hc.ne]

theorem Memory.read_cons {a b : Nat} {v : Byte} {rest : Memory} (h : Memory.above a rest = true) :
    (Memory.cons a v rest).read b = if b = a then v else rest.read b := by
  unfold Memory.cons
  split
  · rename_i hv
    split
    · subst_vars; exact Memory.read_of_above h
    · rfl
  · simp only [Memory.read]
    split
    · rfl
    · split
      · exact (Memory.read_of_above (Memory.above_mono (by omega) h)).symm
      · rfl

/-- A read of the byte just written gives the value written; every other byte is as before. -/
theorem Memory.read_write {m : Memory} (h : Memory.wf m = true) (a b : Nat) (v : Byte) :
    (m.write a v).read b = if b = a then v else m.read b := by
  induction m with
  | nil => exact Memory.read_cons rfl
  | cons cell rest ih =>
    obtain ⟨c, u⟩ := cell
    obtain ⟨hu, hc, hr⟩ := Memory.wf_cons_cell.1 h
    simp only [Memory.write]
    split
    · rename_i hac
      rw [Memory.read_cons (by simpa [Memory.above, hac] using Memory.above_mono hac.le hc)]
    · split
      · subst_vars
        rw [Memory.read_cons hc]
        simp only [Memory.read]
        split
        · rfl
        · split
          · exact Memory.read_of_above (Memory.above_mono (by omega) hc)
          · rfl
      · simp only [Memory.read, ih hr]
        split_ifs <;> first | rfl | omega

/-- Memories in canonical form that read alike are equal. -/
theorem Memory.ext_of_read {m n : Memory} (hm : Memory.wf m = true) (hn : Memory.wf n = true)
    (h : ∀ a, m.read a = n.read a) : m = n := by
  induction m generalizing n with
  | nil =>
    cases n with
    | nil => rfl
    | cons cell rest =>
      obtain ⟨c, u⟩ := cell
      have := h c
      simp only [Memory.read, ↓reduceIte] at this
      exact absurd this.symm (Memory.wf_cons_cell.1 hn).1
  | cons cell rest ih =>
    obtain ⟨c, u⟩ := cell
    obtain ⟨hu, hc, hr⟩ := Memory.wf_cons_cell.1 hm
    cases n with
    | nil =>
      have := h c
      simp only [Memory.read, ↓reduceIte] at this
      exact absurd this hu
    | cons cell' rest' =>
      obtain ⟨c', u'⟩ := cell'
      obtain ⟨hu', hc', hr'⟩ := Memory.wf_cons_cell.1 hn
      have e : c = c' := by
        rcases Nat.lt_trichotomy c c' with hlt | heq | hlt
        · have := h c; simp [Memory.read, hlt, hlt.ne] at this; exact absurd this hu
        · exact heq
        · have := h c'; simp [Memory.read, hlt, hlt.ne] at this; exact absurd this.symm hu'
      subst e
      have eu : u = u' := by simpa [Memory.read] using h c
      subst eu
      rw [ih hr hr' fun a => ?_]
      rcases Nat.lt_trichotomy a c with hlt | heq | hlt
      · rw [Memory.read_of_above (Memory.above_mono hlt.le hc), Memory.read_of_above (Memory.above_mono hlt.le hc')]
      · rw [heq, Memory.read_of_above hc, Memory.read_of_above hc']
      · have := h a
        simpa [Memory.read, hlt.ne', Nat.not_lt.2 hlt.le] using this

/-! ### The addresses stored to -/

theorem mem_insertAddr {a b : Nat} {l : List Nat} : b ∈ insertAddr a l ↔ b = a ∨ b ∈ l := by
  induction l with
  | nil => simp [insertAddr]
  | cons c rest ih =>
    simp only [insertAddr]
    split
    · simp
    · split
      · subst_vars; simp
      · simp [ih]; tauto

theorem insertAddr_sorted {a : Nat} {l : List Nat} (h : l.Pairwise (· < ·)) : (insertAddr a l).Pairwise (· < ·) := by
  induction l with
  | nil => simp [insertAddr]
  | cons c rest ih =>
    obtain ⟨hc, hr⟩ := List.pairwise_cons.1 h
    simp only [insertAddr]
    split
    · rename_i hac
      exact List.pairwise_cons.2 ⟨fun b hb => by
        rcases List.mem_cons.1 hb with rfl | hb
        · exact hac
        · exact hac.trans (hc b hb), h⟩
    · split
      · exact h
      · refine List.pairwise_cons.2 ⟨fun b hb => ?_, ih hr⟩
        rcases mem_insertAddr.1 hb with rfl | hb
        · omega
        · exact hc b hb

/-- FSH's two bytes, in a canonical memory: all of memory after it, byte by byte. -/
theorem State.writeHalf_read {s : State} (hw : s.mem.wf = true) (addr : Word) (h : BitVec 16) (b : Nat) :
    (s.writeHalf addr h).mem.read b =
      if b = (s.addrAfter addr).toNat then h.extractLsb' 8 8
      else if b = addr.toNat then h.extractLsb' 0 8
      else s.mem.read b := by
  simp only [State.writeHalf, State.storeByte]
  rw [Memory.read_write (Memory.wf_write _ _ hw), Memory.read_write hw]

theorem State.mem_writeHalf_stored (s : State) (addr : Word) (h : BitVec 16) (b : Nat) :
    b ∈ (s.writeHalf addr h).stored ↔ b = (s.addrAfter addr).toNat ∨ b = addr.toNat ∨ b ∈ s.stored := by
  simp [State.writeHalf, State.storeByte, mem_insertAddr]

end Sys2Proof.Machine
end

