-- ==== Sys2Proof/Laws/Numerics.lean ====
section
/-! SUPPORT. What the operations of `Sys2Proof/Machine/Numerics.lean` compute, over rational and real numbers: sums and
products of exact numbers, the split of a magnitude, its binary logarithm, and the fields of a packed pattern. -/

namespace Sys2Proof.Machine.Fp

/-! ### Exact numbers -/

theorem Scaled.numAt_toRat (v : Scaled) {e : Int} (h : e ≤ v.exp) : (v.numAt e : ℚ) * 2 ^ e = v.toRat := by
  obtain ⟨k, hk⟩ := Int.eq_ofNat_of_zero_le (sub_nonneg.2 h)
  have hv : v.exp = k + e := by omega
  unfold Scaled.numAt Scaled.toRat
  rw [hk, hv, zpow_add₀ (by norm_num)]
  push_cast
  rw [Int.toNat_natCast, zpow_natCast]
  ring

theorem Scaled.toRat_add (v u : Scaled) : (v.add u).toRat = v.toRat + u.toRat := by
  rw [← v.numAt_toRat (min_le_left v.exp u.exp), ← u.numAt_toRat (min_le_right v.exp u.exp)]
  simp only [Scaled.add, Scaled.toRat]
  push_cast
  ring

theorem Scaled.toRat_mul (v u : Scaled) : (v.mul u).toRat = v.toRat * u.toRat := by
  simp only [Scaled.mul, Scaled.toRat, zpow_add₀ (show (2 : ℚ) ≠ 0 by norm_num)]
  push_cast
  ring

theorem Scaled.toRat_eq_zero (v : Scaled) : v.toRat = 0 ↔ v.num = 0 := by
  simp [Scaled.toRat, zpow_ne_zero]

theorem Scaled.toRat_neg (v : Scaled) : v.toRat < 0 ↔ v.num < 0 := by
  have h : (0 : ℚ) < 2 ^ v.exp := by positivity
  unfold Scaled.toRat
  constructor
  · intro hv
    exact_mod_cast (neg_iff_pos_of_mul_neg hv).2 h
  · intro hv
    exact mul_neg_of_neg_of_pos (by exact_mod_cast hv) h

theorem Scaled.lt_iff (v u : Scaled) : v.lt u = true ↔ v.toRat < u.toRat := by
  rw [← v.numAt_toRat (min_le_left v.exp u.exp), ← u.numAt_toRat (min_le_right v.exp u.exp),
    mul_lt_mul_iff_of_pos_right (by positivity)]
  simp [Scaled.lt]

theorem Scaled.eq_iff (v u : Scaled) : v.eq u = true ↔ v.toRat = u.toRat := by
  rw [← v.numAt_toRat (min_le_left v.exp u.exp), ← u.numAt_toRat (min_le_right v.exp u.exp),
    mul_left_inj' (by positivity)]
  simp [Scaled.eq]

theorem Scaled.magnitude_isValue (v : Scaled) : v.magnitude.IsValue ((|v.toRat| : ℚ) : ℝ) := by
  refine ⟨one_ne_zero, ?_⟩
  rw [Scaled.toRat, abs_mul, abs_of_pos (show (0 : ℚ) < 2 ^ v.exp by positivity)]
  push_cast
  rw [Nat.cast_natAbs]
  push_cast
  ring

/-! ### The split of a magnitude -/

/-- `sp` tells the floor of `x` and where the rest lies. -/
def IsSplit (x : ℝ) (sp : Split) : Prop :=
  match sp.rest with
  | .zero => x = sp.whole
  | .belowHalf => (sp.whole : ℝ) < x ∧ x < sp.whole + 1/2
  | .half => x = sp.whole + 1/2
  | .aboveHalf => (sp.whole : ℝ) + 1/2 < x ∧ x < sp.whole + 1

theorem isSplit_splitQuot {n d : ℕ} (hd : 0 < d) : IsSplit ((n:ℝ)/d) (splitQuot n d) := by
  have hdr : (0:ℝ) < d := by exact_mod_cast hd
  have e : (n:ℝ) = d * (n/d : ℕ) + (n % d : ℕ) := by exact_mod_cast (Nat.div_add_mod n d).symm
  have key : (n:ℝ)/d = (n/d : ℕ) + (n % d : ℕ)/(d:ℝ) := by
    rw [div_eq_iff hdr.ne', add_mul, div_mul_cancel₀ _ hdr.ne']; linarith
  have hlt : ((n % d : ℕ):ℝ) < d := by exact_mod_cast Nat.mod_lt n hd
  rw [key]
  unfold splitQuot IsSplit
  simp only
  split_ifs with h0 h1 h2
  · simp [h0]
  · have : (2:ℝ) * (n % d : ℕ) < d := by exact_mod_cast h1
    have h0' : (0:ℝ) < (n % d : ℕ) := by exact_mod_cast Nat.pos_of_ne_zero h0
    constructor
    · have := div_pos h0' hdr; linarith
    · have : ((n % d : ℕ):ℝ)/d < 1/2 := by rw [div_lt_iff₀ hdr]; linarith
      linarith
  · have : (2:ℝ) * (n % d : ℕ) = d := by exact_mod_cast h2
    have : ((n % d : ℕ):ℝ)/d = 1/2 := by rw [div_eq_iff hdr.ne']; linarith
    linarith
  · have : (d:ℝ) < 2 * (n % d : ℕ) := by exact_mod_cast (by omega)
    constructor
    · have : 1/2 < ((n % d : ℕ):ℝ)/d := by rw [lt_div_iff₀ hdr]; linarith
      linarith
    · have : ((n % d : ℕ):ℝ)/d < 1 := by rw [div_lt_iff₀ hdr]; linarith
      linarith

theorem isqrtFuel_spec : ∀ fuel n, n < 4^fuel →
    (isqrtFuel fuel n)*(isqrtFuel fuel n) ≤ n ∧ n < (isqrtFuel fuel n + 1)*(isqrtFuel fuel n + 1) := by
  intro fuel
  induction fuel with
  | zero => intro n h; simp at h; subst h; decide
  | succ k ih =>
    intro n h
    have := ih (n/4) (by rw [pow_succ] at h; omega)
    obtain ⟨h1, h2⟩ := this
    simp only [isqrtFuel]
    set r := isqrtFuel k (n/4)
    split_ifs with hc
    · refine ⟨hc, ?_⟩
      have : n < 4 * ((r+1)*(r+1)) := by omega
      nlinarith
    · refine ⟨?_, by omega⟩
      have : 4*(r*r) ≤ n := by omega
      nlinarith

theorem isqrt_spec (n : ℕ) : isqrt n * isqrt n ≤ n ∧ n < (isqrt n + 1)*(isqrt n + 1) := by
  apply isqrtFuel_spec
  rcases Nat.eq_zero_or_pos n with rfl | h
  · simp
  · have h1 : n < 2^(n.log2+1) := Nat.lt_log2_self
    calc n < 2^(n.log2+1) := h1
      _ ≤ 2^(2*(n.log2/2+1)) := Nat.pow_le_pow_right (by decide) (by omega)
      _ = 4^(n.log2/2+1) := by rw [pow_mul]; norm_num

theorem isSplit_splitRoot {n d : ℕ} (hd : 0 < d) {x : ℝ} (hx : 0 ≤ x) (h : x^2 = (n:ℝ)/d) :
    IsSplit x (splitRoot n d) := by
  have hdr : (0:ℝ) < d := by exact_mod_cast hd
  have hx2 : x^2*d = n := by rw [h]; field_simp
  obtain ⟨h1, h2⟩ := isqrt_spec (n/d)
  unfold splitRoot IsSplit
  simp only
  set w := isqrt (n/d)
  have hw1 : w*w*d ≤ n := by calc w*w*d ≤ n/d*d := Nat.mul_le_mul_right _ h1
                              _ ≤ n := Nat.div_mul_le_self n d
  have hw2 : n < (w+1)*(w+1)*d := by
    exact (Nat.div_lt_iff_lt_mul hd).1 h2
  have hw1r : (w:ℝ)*w*d ≤ x^2*d := by rw [hx2]; exact_mod_cast hw1
  have hw2r : x^2*d < ((w:ℝ)+1)*(w+1)*d := by rw [hx2]; exact_mod_cast hw2
  have lt1 : x < w+1 := by
    by_contra hc; push Not at hc
    have : ((w:ℝ)+1)*(w+1) ≤ x^2 := by nlinarith [Nat.cast_nonneg (α:=ℝ) w]
    nlinarith
  have w0 := Nat.cast_nonneg (α:=ℝ) w
  split_ifs with c0 c1 c2
  · have e : (w:ℝ)*w*d = x^2*d := by rw [hx2]; exact_mod_cast c0
    have : (w:ℝ)*w = x^2 := mul_right_cancel₀ hdr.ne' e
    nlinarith
  · have ne : (w:ℝ)*w*d < x^2*d := lt_of_le_of_ne hw1r (by rw [hx2]; exact_mod_cast c0)
    have c1r : 4*(x^2*d) < (2*w+1)*(2*w+1)*d := by rw [hx2]; exact_mod_cast c1
    have a1 : (w:ℝ)*w < x^2 := lt_of_mul_lt_mul_right ne hdr.le
    have a2 : 4*x^2 < (2*(w:ℝ)+1)*(2*w+1) := lt_of_mul_lt_mul_right (by linarith) hdr.le
    constructor
    · nlinarith
    · nlinarith
  · have c1r : 4*(x^2*d) = (2*w+1)*(2*w+1)*d := by rw [hx2]; exact_mod_cast c2
    have a2 : 4*x^2 = (2*(w:ℝ)+1)*(2*w+1) := mul_right_cancel₀ hdr.ne' (by linarith)
    nlinarith
  · have c1r : (2*w+1)*(2*w+1)*d < 4*(x^2*d) := by rw [hx2]; exact_mod_cast (by omega)
    have a2 : (2*(w:ℝ)+1)*(2*w+1) < 4*x^2 := lt_of_mul_lt_mul_right (by linarith) hdr.le
    constructor
    · nlinarith
    · linarith

theorem scaleUp_div (n d : ℕ) (hd : d ≠ 0) (k : ℤ) :
    ((scaleUp n k : ℕ):ℝ) / (scaleUp d (-k) : ℕ) = n/d * (2:ℝ)^k := by
  unfold scaleUp
  have hdr : (d:ℝ) ≠ 0 := by exact_mod_cast hd
  rcases le_total 0 k with h | h
  · lift k to ℕ using h
    simp; ring
  · obtain ⟨m, rfl⟩ : ∃ m : ℕ, k = -m := ⟨(-k).toNat, by omega⟩
    simp [zpow_neg]; field_simp

/-- What `Magnitude.split` computes. -/
theorem Magnitude.isSplit_split {m : Magnitude} {x : ℝ} (h : m.IsValue x) (q : ℤ) :
    IsSplit (x / (2 : ℝ) ^ q) (m.split q) := by
  cases m with
  | quot n d e =>
    obtain ⟨hd, rfl⟩ := h
    have hs := isSplit_splitQuot (n := scaleUp n (e-q)) (d := scaleUp d (q-e)) (by unfold scaleUp; positivity)
    rw [show q - e = -(e-q) by ring, scaleUp_div n d hd] at hs
    simp only [Magnitude.split]
    rw [show q - e = -(e-q) by ring]
    convert hs using 1
    rw [zpow_sub₀ (by norm_num)]; ring
  | root n e =>
    obtain ⟨h0, h⟩ := h
    simp only [Magnitude.split]
    apply isSplit_splitRoot (by unfold scaleUp; positivity) (by positivity)
    rw [show 2*q - e = -(e-2*q) by ring, scaleUp_div n 1 (by decide), div_pow, h, zpow_sub₀ (by norm_num), zpow_mul]
    rw [show ((2:ℝ)^q)^2 = ((2:ℝ)^2)^q by rw [← zpow_natCast, ← zpow_natCast, ← zpow_mul, ← zpow_mul]; ring_nf]
    norm_cast
    simp
    ring

/-- The rest is zero exactly if the number is the integer. -/
theorem IsSplit.rest_zero_iff {x : ℝ} {sp : Split} (h : IsSplit x sp) : sp.rest = .zero ↔ x = sp.whole := by
  obtain ⟨w, rest⟩ := sp
  cases rest <;> simp only [IsSplit, reduceCtorEq, false_iff, true_iff] at h ⊢
  · exact h
  · exact fun hx => by linarith [h.1]
  · exact fun hx => by linarith
  · exact fun hx => by linarith [h.1]

/-! ### Powers of two -/

theorem log2_bounds {n : ℕ} (h : n ≠ 0) : (2:ℝ)^n.log2 ≤ n ∧ (n:ℝ) < 2^(n.log2+1) := by
  constructor
  · exact_mod_cast Nat.log2_self_le h
  · exact_mod_cast Nat.lt_log2_self

theorem scaleUp_lt (a b : ℕ) (k : ℤ) (j : ℤ) (h : j = -k) :
    scaleUp a k < scaleUp b j ↔ (a:ℝ) * (2:ℝ)^k < b := by
  subst h
  unfold scaleUp
  rcases le_total 0 k with h | h
  · lift k to ℕ using h
    simp; exact_mod_cast Iff.rfl
  · obtain ⟨m, rfl⟩ : ∃ m : ℕ, k = -m := ⟨(-k).toNat, by omega⟩
    simp [zpow_neg]
    rw [mul_inv_lt_iff₀ (by positivity)]
    exact_mod_cast Iff.rfl

theorem belowPow2_iff (c : ℕ) (e b : ℤ) : belowPow2 c e b = true ↔ (c:ℝ)*(2:ℝ)^e < (2:ℝ)^b := by
  unfold belowPow2
  rw [decide_eq_true_iff, scaleUp_lt _ _ _ _ (by ring), zpow_sub₀ (by norm_num), Nat.cast_one, ← mul_div_assoc,
    div_lt_one (by positivity)]

theorem floorLog2_spec {m : Magnitude} {x : ℝ} (h : m.IsValue x) (hx : 0 < x) :
    (2:ℝ)^m.floorLog2 ≤ x ∧ x < (2:ℝ)^(m.floorLog2+1) := by
  cases m with
  | quot n d e =>
    obtain ⟨hd, rfl⟩ := h
    have hn : n ≠ 0 := by rintro rfl; simp at hx
    obtain ⟨n1, n2⟩ := log2_bounds hn
    obtain ⟨d1, d2⟩ := log2_bounds hd
    have hdr : (0:ℝ) < d := by exact_mod_cast Nat.pos_of_ne_zero hd
    have hnr : (0:ℝ) < n := by exact_mod_cast Nat.pos_of_ne_zero hn
    have key : (2:ℝ)^(floorLog2Quot n d) ≤ n/d ∧ (n:ℝ)/d < (2:ℝ)^(floorLog2Quot n d + 1) := by
      unfold floorLog2Quot
      simp only
      have lo : (2:ℝ)^((n.log2:ℤ) - d.log2 - 1) ≤ n/d := by
        rw [le_div_iff₀ hdr, sub_sub, zpow_sub₀ (by norm_num), div_mul_eq_mul_div, div_le_iff₀ (by positivity)]
        have : (2:ℝ)^((d.log2:ℤ)+1) = 2^(d.log2+1) := by norm_cast
        rw [this, zpow_natCast]
        nlinarith
      have hi : (n:ℝ)/d < (2:ℝ)^((n.log2:ℤ) - d.log2 + 1) := by
        rw [div_lt_iff₀ hdr, sub_add_eq_add_sub, zpow_sub₀ (by norm_num), div_mul_eq_mul_div,
          lt_div_iff₀ (by positivity)]
        have : (2:ℝ)^((n.log2:ℤ)+1) = 2^(n.log2+1) := by norm_cast
        rw [this, zpow_natCast]
        nlinarith
      split_ifs with hc
      · rw [scaleUp_lt _ _ _ _ (by ring)] at hc
        refine ⟨lo, ?_⟩
        rw [sub_add_cancel, div_lt_iff₀ hdr]
        rw [zpow_neg, mul_inv_lt_iff₀ (by positivity)] at hc
        linarith
      · rw [scaleUp_lt _ _ _ _ (by ring), not_lt, zpow_neg, le_mul_inv_iff₀ (by positivity)] at hc
        refine ⟨?_, hi⟩
        rw [le_div_iff₀ hdr]; linarith
    simp only [Magnitude.floorLog2]
    constructor
    · rw [zpow_add₀ (by norm_num)]; exact mul_le_mul_of_nonneg_right key.1 (by positivity)
    · rw [add_right_comm, zpow_add₀ (by norm_num) _ e]; exact mul_lt_mul_of_pos_right key.2 (by positivity)
  | root n e =>
    obtain ⟨h0, h⟩ := h
    have hn : n ≠ 0 := by rintro rfl; simp at h; linarith
    obtain ⟨n1, n2⟩ := log2_bounds hn
    simp only [Magnitude.floorLog2]
    set k := ((n.log2:ℤ) + e)/2
    have sq : ∀ j : ℤ, ((2:ℝ)^j)^2 = (2:ℝ)^(2*j) := fun j => by rw [← zpow_natCast, ← zpow_mul]; ring_nf
    have lo : ((2:ℝ)^k)^2 ≤ x^2 := by
      rw [sq, h]
      calc (2:ℝ)^(2*k) ≤ (2:ℝ)^((n.log2:ℤ)+e) := zpow_le_zpow_right₀ (by norm_num) (by omega)
        _ = (2:ℝ)^n.log2 * (2:ℝ)^e := by rw [zpow_add₀ (by norm_num), zpow_natCast]
        _ ≤ _ := mul_le_mul_of_nonneg_right n1 (by positivity)
    have hi : x^2 < ((2:ℝ)^(k+1))^2 := by
      rw [sq, h]
      calc (n:ℝ) * (2:ℝ)^e < 2^(n.log2+1) * (2:ℝ)^e := mul_lt_mul_of_pos_right n2 (by positivity)
        _ = (2:ℝ)^((n.log2:ℤ)+1+e) := by rw [zpow_add₀ (by norm_num)]; norm_cast
        _ ≤ _ := zpow_le_zpow_right₀ (by norm_num) (by omega)
    exact ⟨by nlinarith [zpow_pos (show (0:ℝ)<2 by norm_num) k],
      by nlinarith [zpow_pos (show (0:ℝ)<2 by norm_num) (k+1)]⟩

/-! ### Fields of a pattern -/

theorem width_eq (F : Format) : F.width = F.fracBits + F.expBits + 1 := by cases F <;> rfl

theorem pack_fields (F : Format) (s : Bool) {E T : ℕ} (hE : E < 2^F.expBits) (hT : T < 2^F.fracBits) :
    HasFields F (pack F s E T) s E T := by
  have hw := width_eq F
  have hlow : E * 2^F.fracBits + T < 2^(F.width-1) := by
    rw [hw, Nat.add_sub_cancel, pow_add]
    calc E * 2^F.fracBits + T < E * 2^F.fracBits + 2^F.fracBits := by omega
      _ = (E+1)*2^F.fracBits := by ring
      _ ≤ 2^F.expBits * 2^F.fracBits := Nat.mul_le_mul_right _ hE
      _ = _ := by ring
  have hp : 2^F.width = 2 * 2^(F.width-1) := by rw [hw, Nat.add_sub_cancel, pow_succ]; ring
  have htot : s.toNat * 2^(F.width-1) + E * 2^F.fracBits + T < 2^F.width := by
    rw [hp]; cases s <;> simp <;> omega
  have hN : (pack F s E T).toNat = s.toNat * 2^(F.width-1) + E * 2^F.fracBits + T := by
    unfold pack; rw [BitVec.toNat_ofNat, Nat.mod_eq_of_lt htot]
  have hpos : 0 < 2^F.fracBits := by positivity
  refine ⟨?_, ?_, ?_⟩
  · unfold sign
    rw [← BitVec.testBit_toNat, hN, Nat.testBit_eq_decide_div_mod_eq]
    have : (s.toNat * 2^(F.width-1) + E * 2^F.fracBits + T) / 2^(F.width-1) = s.toNat := by
      rw [add_assoc, add_comm, Nat.add_mul_div_right _ _ (by positivity), Nat.div_eq_of_lt hlow, zero_add]
    rw [this]; cases s <;> rfl
  · unfold expField
    rw [BitVec.extractLsb'_toNat, hN, Nat.shiftRight_eq_div_pow]
    have e1 : s.toNat * 2^(F.width-1) = (s.toNat * 2^F.expBits) * 2^F.fracBits := by
      rw [hw, Nat.add_sub_cancel, pow_add]; ring
    rw [e1, ← add_mul, add_comm _ T, Nat.add_mul_div_right _ _ hpos, Nat.div_eq_of_lt hT, zero_add, Nat.add_comm,
      Nat.add_mul_mod_self_right, Nat.mod_eq_of_lt hE]
  · unfold fracField
    rw [BitVec.extractLsb'_toNat, hN, Nat.shiftRight_eq_div_pow]
    have e1 : s.toNat * 2^(F.width-1) = (s.toNat * 2^F.expBits) * 2^F.fracBits := by
      rw [hw, Nat.add_sub_cancel, pow_add]; ring
    rw [e1, pow_zero, Nat.div_one, ← add_mul, add_comm _ T, Nat.add_mul_mod_self_right, Nat.mod_eq_of_lt hT]

/-! ### Rounding to an integer -/

/-- A rounded number lies between the integers around it. -/
theorem isRoundInt_bounds {rm s x k} (h : IsRoundInt rm s x k) {a b : ℕ} (ha : (a:ℝ) ≤ x) (hb : x < b) :
    a ≤ k ∧ k ≤ b := by
  obtain ⟨n, h1, h2, h3⟩ := h
  have e1 : a ≤ n := by
    have : (a:ℝ) < n + 1 := by linarith
    have : a < n + 1 := by exact_mod_cast this
    omega
  have e2 : n < b := by
    have : (n:ℝ) < b := by linarith
    exact_mod_cast this
  rcases h3 with ⟨_, rfl⟩ | ⟨_, rfl⟩ <;> omega

end Sys2Proof.Machine.Fp
end

