-- ==== Sys2Proof/Laws/Registers.lean ====
section
/-! SUPPORT. The laws of the register files, of the widths XLEN and FLEN, of `fcsr` and of NaN boxing. -/

namespace Sys2Proof

/-! ### Widths -/

theorem Params.xbits_le (p : Params) : p.xbits ≤ 64 := by unfold Params.xbits; split <;> decide

theorem Params.flen_le (p : Params) : p.flen ≤ 128 := by unfold Params.flen; split <;> decide

theorem Params.truncX_toNat (p : Params) (v : Word) : (p.truncX v).toNat = v.toNat % 2 ^ p.xbits := by
  have h := Nat.pow_le_pow_right (n := 2) (by decide) p.xbits_le
  simp only [Params.truncX, BitVec.toNat_setWidth]
  exact Nat.mod_eq_of_lt (lt_of_lt_of_le (Nat.mod_lt _ (by positivity)) h)

@[simp] theorem Params.truncX_truncX (p : Params) (v : Word) : p.truncX (p.truncX v) = p.truncX v := by
  apply BitVec.eq_of_toNat_eq
  simp [Params.truncX_toNat]

@[simp] theorem Params.truncX_zero (p : Params) : p.truncX 0#64 = 0#64 := by
  apply BitVec.eq_of_toNat_eq
  simp [Params.truncX_toNat]

/-- The bits below XLEN are kept, the others are cleared. -/
theorem Params.truncX_getLsbD (p : Params) (v : Word) (i : Nat) :
    (p.truncX v).getLsbD i = (decide (i < p.xbits) && v.getLsbD i) := by
  have := p.xbits_le
  simp only [Params.truncX, BitVec.getLsbD_setWidth]
  by_cases h : i < p.xbits
  · simp [h, show i < 64 by omega]
  · simp [h]

theorem Params.truncF_toNat (p : Params) (v : FWord) : (p.truncF v).toNat = v.toNat % 2 ^ p.flen := by
  have h := Nat.pow_le_pow_right (n := 2) (by decide) p.flen_le
  simp only [Params.truncF, BitVec.toNat_setWidth]
  exact Nat.mod_eq_of_lt (lt_of_lt_of_le (Nat.mod_lt _ (by positivity)) h)

@[simp] theorem Params.truncF_truncF (p : Params) (v : FWord) : p.truncF (p.truncF v) = p.truncF v := by
  apply BitVec.eq_of_toNat_eq
  simp [Params.truncF_toNat]

@[simp] theorem Params.truncF_zero (p : Params) : p.truncF 0#128 = 0#128 := by
  apply BitVec.eq_of_toNat_eq
  simp [Params.truncF_toNat]

/-- The bits below FLEN are kept, the others are cleared. -/
theorem Params.truncF_getLsbD (p : Params) (v : FWord) (i : Nat) :
    (p.truncF v).getLsbD i = (decide (i < p.flen) && v.getLsbD i) := by
  have := p.flen_le
  simp only [Params.truncF, BitVec.getLsbD_setWidth]
  by_cases h : i < p.flen
  · simp [h, show i < 128 by omega]
  · simp [h]

@[simp] theorem Params.truncX_sextX {n : Nat} (p : Params) (v : BitVec n) : p.truncX (p.sextX v) = p.sextX v :=
  p.truncX_truncX _

@[simp] theorem Params.truncX_zextX {n : Nat} (p : Params) (v : BitVec n) : p.truncX (p.zextX v) = p.zextX v :=
  p.truncX_truncX _

namespace Machine

/-! ### Reading after writing -/

@[simp] theorem State.readX_zero (s : State) : s.readX 0 = 0 := by simp [State.readX]

/-- What an integer register reads as fits in XLEN bits. -/
@[simp] theorem State.truncX_readX (s : State) (r : XReg) : s.params.truncX (s.readX r) = s.readX r := by
  unfold State.readX; split <;> simp

@[simp] theorem State.truncF_readF (s : State) (r : FReg) : s.params.truncF (s.readF r) = s.readF r := by
  simp [State.readF]

theorem State.readX_writeX (s : State) (r q : XReg) (v : Word) :
    (s.writeX r v).readX q = if q = r then (if r = 0 then 0 else s.params.truncX v) else s.readX q := by
  by_cases hr : r = 0#5
  · subst hr
    by_cases hq : q = 0#5 <;> simp [State.writeX, State.readX, hq]
  · by_cases hq : q = r
    · subst hq
      simp [State.writeX, State.readX, hr]
    · have hn : r.toNat ≠ q.toNat := fun h => hq (BitVec.eq_of_toNat_eq h).symm
      simp [State.writeX, State.readX, hr, hq, hn]

@[simp] theorem State.readF_writeX (s : State) (r : XReg) (q : FReg) (v : Word) :
    (s.writeX r v).readF q = s.readF q := by simp [State.readF]

theorem State.readF_writeF (s : State) (r q : FReg) (v : FWord) :
    (s.writeF r v).readF q = if q = r then s.params.truncF v else s.readF q := by
  by_cases hq : q = r
  · subst hq
    simp [State.writeF, State.readF]
  · have hn : r.toNat ≠ q.toNat := fun h => hq (BitVec.eq_of_toNat_eq h).symm
    simp [State.writeF, State.readF, hq, hn]

@[simp] theorem State.readX_writeF (s : State) (r : FReg) (q : XReg) (v : FWord) :
    (s.writeF r v).readX q = s.readX q := rfl

/-- A register reads the same in states with the same registers and parameters. -/
theorem State.readX_congr {s t : State} (hp : t.params = s.params) (hx : t.x = s.x) (r : XReg) :
    t.readX r = s.readX r := by simp [State.readX, hp, hx]

theorem State.readF_congr {s t : State} (hp : t.params = s.params) (hf : t.f = s.f) (r : FReg) :
    t.readF r = s.readF r := by simp [State.readF, hp, hf]

/-! ### `fcsr` -/

@[simp] theorem State.accrue_fflags (s : State) (fl : FlagSet) : (s.accrue fl).fflags = s.fflags ||| fl := by
  apply BitVec.eq_of_getLsbD_eq
  intro i hi
  simp [State.fflags, State.accrue, show i < 8 by omega, hi]

@[simp] theorem State.accrue_frm (s : State) (fl : FlagSet) : (s.accrue fl).frm = s.frm := by
  apply BitVec.eq_of_getLsbD_eq
  intro i hi
  simp [State.frm, State.accrue, BitVec.getLsbD_extractLsb', BitVec.getLsbD_setWidth]

theorem State.fcsr_eq_append (s : State) : s.fcsr = s.frm ++ s.fflags := by
  apply BitVec.eq_of_getLsbD_eq
  intro i hi
  simp only [State.frm, State.fflags, BitVec.getLsbD_append, BitVec.getLsbD_extractLsb']
  split
  · simp_all
  · simp [show i - 5 < 3 by omega, show 5 + (i - 5) = i by omega]

/-! ### NaN boxing -/

theorem Format.width_pos (F : Format) : 0 < F.width := by cases F <;> decide

/-- The image has the value in its low bits, ones from the format's width up to FLEN, and zeros above. -/
theorem box_getLsbD (p : Params) (F : Format) (v : Fp.Bits F) (hF : F.width ≤ p.flen) (i : Nat) :
    (box p F v).getLsbD i = if i < F.width then v.getLsbD i else decide (i < p.flen) := by
  have := p.flen_le
  simp only [box, BitVec.getLsbD_setWidth, BitVec.getLsbD_append, BitVec.getLsbD_allOnes]
  split
  · simp [show i < 128 by omega]
  · by_cases h : i < p.flen
    · simp [show i < 128 by omega, show i - F.width < p.flen - F.width by omega, h]
    · simp [show ¬ i - F.width < p.flen - F.width by omega, h]

/-- A boxed value is a FLEN-bit value. -/
@[simp] theorem truncF_box (p : Params) (F : Format) (v : Fp.Bits F) (hF : F.width ≤ p.flen) :
    p.truncF (box p F v) = box p F v := by
  apply BitVec.eq_of_getLsbD_eq
  intro i _
  rw [Params.truncF_getLsbD, box_getLsbD p F v hF]
  by_cases h : i < p.flen
  · simp [h]
  · simp [h, show ¬ i < F.width by omega]

theorem width_H_le_flen (p : Params) : Format.width .H ≤ p.flen := by unfold Params.flen; split <;> decide

theorem width_S_le_flen (p : Params) : Format.width .S ≤ p.flen := by unfold Params.flen; split <;> decide

theorem width_D_le_flen {p : Params} (h : p.hasD = true) : Format.width .D ≤ p.flen := by
  unfold Params.hasD at h; unfold Params.flen
  cases hp : p.fp <;> simp_all
  decide

theorem width_Q_le_flen {p : Params} (h : p.hasQ = true) : Format.width .Q ≤ p.flen := by
  unfold Params.hasQ at h; unfold Params.flen
  cases hp : p.fp <;> simp_all

end Machine

end Sys2Proof
end

