-- ==== Sys2Proof/Laws/Ops.lean ====
section
/-! SUPPORT. One lemma for each shared operation of the machine, saying once what it can do; later proofs cite these and
do not unfold the operation. -/

namespace Sys2Proof.Machine

/-! ### Taking an exception -/

/-- An exception leaves everything but the trap record, the trap CSRs and `pc` alone. -/
theorem State.raise_sameButTrap (s : State) (e : Exception) : SameButTrap s (s.raise e) where
  sameX r := State.readX_congr (by simp) (by simp) r
  sameF r := State.readF_congr (by simp) (by simp) r
  fcsr := by simp
  fs := by simp
  memory := ⟨fun _ => by simp, by simp⟩
  params := by simp

theorem State.raise_fault {s : State} (h : s.params.trap = .fault) (e : Exception) :
    s.raise e = { s with trap := some ⟨e, s.pc⟩ } := by simp [State.raise, h]

theorem State.raise_mmode {s : State} (h : s.params.trap = .mmode) (e : Exception) :
    s.raise e =
      { s with
        mepc := clearLow2 s.pc
        mcause := s.params.truncX (BitVec.ofNat 64 e.code)
        mtval := s.params.truncX e.info
        pc := s.mtvec } := by simp [State.raise, h]

/-! ### Completing an instruction -/

theorem State.fsAfter_eq_or (s : State) (d : Bool) : s.fsAfter d = s.fs ∨ s.fsAfter d = fsDirty := by
  unfold State.fsAfter
  split <;> split <;> simp

theorem State.fsAfter_precise {s : State} (h : s.params.fsTracking = .precise) (d : Bool) :
    s.fsAfter d = if d then fsDirty else s.fs := by simp [State.fsAfter, h]

theorem State.finishF_fflags (s : State) (rd : FReg) (v : FWord) (fl : FlagSet) :
    (s.finishF rd v fl).fflags = s.fflags ||| fl := State.accrue_fflags (s.writeF rd v) fl

theorem State.finishF_frm (s : State) (rd : FReg) (v : FWord) (fl : FlagSet) : (s.finishF rd v fl).frm = s.frm :=
  State.accrue_frm (s.writeF rd v) fl

theorem State.fflags_congr {s t : State} (h : t.fcsr = s.fcsr) : t.fflags = s.fflags := by simp [State.fflags, h]

theorem State.frm_congr {s t : State} (h : t.fcsr = s.fcsr) : t.frm = s.frm := by simp [State.frm, h]

/-- What `finishF` does, of a value that fits in FLEN bits. -/
theorem State.finishF_wroteF {s : State} {v : FWord} (hv : s.params.truncF v = v) (rd : FReg) (fl : FlagSet) :
    WroteF s (s.finishF rd v fl) rd v fl where
  dest := (State.readF_writeF s rd rd v).trans (by rw [if_pos rfl, hv])
  otherF r hr := (State.readF_writeF s rd r v).trans (if_neg hr)
  sameX r := State.readX_congr (by simp) (by simp) r
  flags := s.finishF_fflags rd v fl
  frm := s.finishF_frm rd v fl
  fs := rfl
  fsPrecise h := State.fsAfter_precise (s := (s.writeF rd v).accrue fl) h true
  pc := rfl
  memory := ⟨fun _ => by simp, by simp⟩
  traps := by simp [SameTrapState]
  params := by simp

/-- What `finishX` does, of a value that fits in XLEN bits. -/
theorem State.finishX_wroteX {s : State} {v : Word} (hv : s.params.truncX v = v) (rd : XReg) (fl : FlagSet) :
    WroteX s (s.finishX rd v fl) rd v fl where
  dest := (State.readX_writeX s rd rd v).trans (by rw [if_pos rfl, hv])
  otherX r hr := (State.readX_writeX s rd r v).trans (if_neg hr)
  sameF r := State.readF_congr (by simp) (by simp) r
  flags := (State.accrue_fflags (s.writeX rd v) fl).trans (by rw [State.fflags_congr (s := s) (by simp)])
  frm := (State.accrue_frm (s.writeX rd v) fl).trans (State.frm_congr (by simp))
  fs := by simp [State.finishX, State.fsAfter]
  fsPrecise h := by
    by_cases hfl : fl = flagNone <;> simp [State.finishX, State.fsAfter, h, hfl, fsDirty]
  pc := by simp [State.finishX, State.nextPc]
  memory := ⟨fun _ => by simp, by simp⟩
  traps := by simp [SameTrapState]
  params := by simp

/-- What a host instruction that writes `x[rd]` and moves on does. -/
theorem State.writeX_advance_wroteHostX (s : State) (rd : XReg) (v : Word) :
    WroteHostX s (s.writeX rd v).advance rd (s.params.truncX v) s.nextPc where
  dest := (State.readX_writeX s rd rd v).trans (if_pos rfl)
  otherX r hr := (State.readX_writeX s rd r v).trans (if_neg hr)
  sameF r := State.readF_congr (by simp) (by simp) r
  fcsr := by simp
  fs := by simp
  pc := by simp [State.advance, State.nextPc]
  memory := ⟨fun _ => by simp, by simp⟩
  traps := by simp [SameTrapState]
  params := by simp

/-! ### The gate -/

theorem State.whenFpOn_enabled {s : State} {i : Instr} (h : Enabled s i) (body : State) :
    s.whenFpOn i body = body := by
  rw [State.whenFpOn, if_pos]
  simpa [Enabled] using h

theorem State.whenFpOn_disabled {s : State} {i : Instr} (h : ¬ Enabled s i) (body : State) :
    s.whenFpOn i body = s.illegal i := by
  unfold State.whenFpOn
  rw [if_neg]
  simpa [Enabled] using h

/-- The gate lets the body through or raises `IllegalInstruction`. -/
theorem State.whenFpOn_cases (s : State) (i : Instr) (body : State) :
    (Enabled s i ∧ s.whenFpOn i body = body) ∨ (¬ Enabled s i ∧ s.whenFpOn i body = s.illegal i) := by
  by_cases h : Enabled s i
  · exact .inl ⟨h, State.whenFpOn_enabled h body⟩
  · exact .inr ⟨h, State.whenFpOn_disabled h body⟩

theorem State.whenRounding_enabled {s : State} {i : Instr} {rm : RmField} {r : RoundingMode} (h : Enabled s i)
    (hr : s.roundingMode rm = some r) (body : RoundingMode → State) : s.whenRounding i rm body = body r := by
  simp [State.whenRounding, State.whenFpOn_enabled h, hr]

theorem State.whenRounding_invalid {s : State} {i : Instr} {rm : RmField} (hr : s.roundingMode rm = none)
    (body : RoundingMode → State) : s.whenRounding i rm body = s.illegal i := by
  unfold State.whenRounding
  rcases s.whenFpOn_cases i _ with ⟨_, h⟩ | ⟨_, h⟩ <;> rw [h]
  simp [hr]

/-- The gate with a rounding mode lets the body through or raises `IllegalInstruction`. -/
theorem State.whenRounding_cases (s : State) (i : Instr) (rm : RmField) (body : RoundingMode → State) :
    (∃ r, Enabled s i ∧ s.roundingMode rm = some r ∧ s.whenRounding i rm body = body r) ∨
      s.whenRounding i rm body = s.illegal i := by
  by_cases h : Enabled s i
  · cases hr : s.roundingMode rm with
    | none => exact .inr (State.whenRounding_invalid hr body)
    | some r => exact .inl ⟨r, h, rfl, State.whenRounding_enabled h hr body⟩
  · exact .inr (State.whenFpOn_disabled h _)

/-! ### Memory accesses -/

/-- The access is permitted exactly when its two bytes exist and it is aligned or may be split. -/
theorem State.checkHalf_permitted_iff (s : State) (a : Word) :
    s.checkHalf a = .permitted ↔
      s.params.inMem a.toNat = true ∧ s.params.inMem (s.addrAfter a).toNat = true ∧
        (a.getLsbD 0 = false ∨ s.params.misaligned = .split) := by
  unfold State.checkHalf
  cases s.params.misaligned <;> cases a.getLsbD 0 <;> cases s.params.inMem a.toNat <;>
    cases s.params.inMem (s.addrAfter a).toNat <;> simp

/-- The access is misaligned exactly when its address is odd and `MISALIGNED` = trap. -/
theorem State.checkHalf_misaligned_iff (s : State) (a : Word) :
    s.checkHalf a = .misaligned ↔ a.getLsbD 0 = true ∧ s.params.misaligned = .trap := by
  unfold State.checkHalf
  cases s.params.misaligned <;> cases a.getLsbD 0 <;> cases s.params.inMem a.toNat <;>
    cases s.params.inMem (s.addrAfter a).toNat <;> simp

/-- What each outcome of a fetch says of the state. -/
theorem State.fetch_cases (s : State) :
    (s.pc.extractLsb' 0 2 ≠ 0 ∧ s.fetch = .raises (.instructionAddressMisaligned s.pc)) ∨
    (s.pc.extractLsb' 0 2 = 0 ∧ (∃ a ∈ fetchAddrs s.pc, s.params.inMem a = false) ∧
      s.fetch = .raises (.instructionAccessFault s.pc)) ∨
    (s.pc.extractLsb' 0 2 = 0 ∧ (∀ a ∈ fetchAddrs s.pc, s.params.inMem a = true) ∧
      ∃ a ∈ fetchAddrs s.pc, a ∈ s.stored ∧ s.fetch = .selfModified a) ∨
    (s.pc.extractLsb' 0 2 = 0 ∧ (∀ a ∈ fetchAddrs s.pc, s.params.inMem a = true) ∧
      (∀ a ∈ fetchAddrs s.pc, a ∉ s.stored) ∧
      s.fetch = .bytes (s.mem.read s.pc.toNat) (s.mem.read (s.pc.toNat + 1)) (s.mem.read (s.pc.toNat + 2))
        (s.mem.read (s.pc.toNat + 3))) := by
  by_cases h : s.pc.extractLsb' 0 2 = 0
  · have hne : ¬ (s.pc.extractLsb' 0 2 != 0) = true := by rw [h]; decide
    by_cases hm : (fetchAddrs s.pc).all s.params.inMem = true
    · have hall := List.all_eq_true.1 hm
      have hin : ¬ (!(fetchAddrs s.pc).all s.params.inMem) = true := by rw [hm]; decide
      cases hf : (fetchAddrs s.pc).find? (s.stored.contains ·) with
      | some a =>
        have ha : s.stored.contains a = true := List.find?_some hf
        refine .inr (.inr (.inl ⟨h, hall, a, List.mem_of_find?_eq_some hf, by simpa using ha, ?_⟩))
        rw [State.fetch, if_neg hne, if_neg hin, hf]
      | none =>
        refine .inr (.inr (.inr ⟨h, hall, by simpa using hf, ?_⟩))
        rw [State.fetch, if_neg hne, if_neg hin, hf]
    · refine .inr (.inl ⟨h, by simpa using hm, ?_⟩)
      rw [State.fetch, if_neg hne, if_pos (by simpa using hm)]
  · refine .inl ⟨h, ?_⟩
    rw [State.fetch, if_pos (by simpa using h)]

/-! ### Branches and CSR accesses -/

theorem State.jumpTo_aligned {s : State} {target : Word} (h : target.getLsbD 1 = false) (done : State) :
    s.jumpTo target done = { done with pc := target } := by rw [State.jumpTo, if_neg (by rw [h]; decide)]

theorem State.jumpTo_misaligned {s : State} {target : Word} (h : target.getLsbD 1 = true) (done : State) :
    s.jumpTo target done = s.raise (.instructionAddressMisaligned target) := by
  rw [State.jumpTo, if_pos h]

/-- An access to a CSR that is mapped and allowed. -/
theorem State.csrOp_allowed {s : State} {addr : BitVec 12} {c : Csr} (hc : Csr.ofAddr addr = some c)
    (ha : s.csrAllowed c = true) (i : Instr) (rd : XReg) (read write : Bool) (newVal : Word → Word) :
    s.csrOp i addr rd read write newVal =
      (if read then (if write then s.writeCsr c (newVal (s.readCsr c)) else s).writeX rd (s.readCsr c)
        else if write then s.writeCsr c (newVal (s.readCsr c)) else s).advance := by
  simp [State.csrOp, hc, ha]

/-- An access to a CSR that is not mapped or not allowed. -/
theorem State.csrOp_refused {s : State} {addr : BitVec 12}
    (h : ∀ c, Csr.ofAddr addr = some c → s.csrAllowed c = false) (i : Instr) (rd : XReg) (read write : Bool)
    (newVal : Word → Word) : s.csrOp i addr rd read write newVal = s.illegal i := by
  unfold State.csrOp
  cases hc : Csr.ofAddr addr with
  | none => rfl
  | some c => simp [h c hc]

/-- What a CSR reads as fits in XLEN bits, if what the trap CSRs hold does. -/
theorem State.truncX_readCsr {s : State} (h : s.fitsX s.mtvec ∧ s.fitsX s.mepc ∧ s.fitsX s.mcause ∧ s.fitsX s.mtval)
    (c : Csr) : s.params.truncX (s.readCsr c) = s.readCsr c := by
  obtain ⟨h1, h2, h3, h4⟩ := h
  cases c with
  | fflags | frm | fcsr => simp [State.readCsr]
  | mstatus =>
    simp only [State.readCsr, State.mstatusValue, State.fitsX] at *
    apply BitVec.eq_of_getLsbD_eq
    intro i hi
    rw [Params.truncX_getLsbD]
    by_cases hx : i < s.params.xbits
    · simp [hx]
    · have : 32 ≤ s.params.xbits := by unfold Params.xbits; split <;> decide
      have hfs : (s.fs.setWidth 64 <<< 13).getLsbD i = false := by
        rw [BitVec.getLsbD_shiftLeft, BitVec.getLsbD_setWidth, BitVec.getLsbD_of_ge _ _ (by omega)]
        simp
      rw [BitVec.getLsbD_or, hfs]
      split
      · simp [BitVec.getLsbD_twoPow, hx]; omega
      · simp [hx]
  | mtvec => exact h1
  | mepc => exact h2
  | mcause => exact h3
  | mtval => exact h4

/-! ### A completing instruction, and the state with its flags cleared -/

theorem State.whenRounding_completes {s : State} {i : Instr} {rm : RmField} (h : Completes s i)
    (hrm : i.rmField? = some rm) (body : RoundingMode → State) :
    ∃ r, s.roundingMode rm = some r ∧ s.whenRounding i rm body = body r := by
  obtain ⟨r, hr⟩ := Option.ne_none_iff_exists'.1 (h.rounding rm hrm)
  exact ⟨r, hr, State.whenRounding_enabled h.enabled hr body⟩

@[simp] theorem State.flagsCleared_params (s : State) : s.flagsCleared.params = s.params := rfl
@[simp] theorem State.flagsCleared_fs (s : State) : s.flagsCleared.fs = s.fs := rfl
@[simp] theorem State.flagsCleared_mem (s : State) : s.flagsCleared.mem = s.mem := rfl
@[simp] theorem State.flagsCleared_readX (s : State) (r : XReg) : s.flagsCleared.readX r = s.readX r := rfl
@[simp] theorem State.flagsCleared_readF (s : State) (r : FReg) : s.flagsCleared.readF r = s.readF r := rfl
@[simp] theorem State.flagsCleared_operand (s : State) (F : Format) (r : FReg) :
    s.flagsCleared.operand F r = s.operand F r := rfl
@[simp] theorem State.flagsCleared_checkHalf (s : State) (a : Word) : s.flagsCleared.checkHalf a = s.checkHalf a := rfl
@[simp] theorem State.flagsCleared_fflags (s : State) : s.flagsCleared.fflags = 0 := by
  have h : ∀ a : BitVec 3, (a ++ 0#5).extractLsb' 0 5 = 0#5 := by decide
  exact h s.frm
@[simp] theorem State.flagsCleared_frm (s : State) : s.flagsCleared.frm = s.frm := by
  have h : ∀ a : BitVec 3, (a ++ 0#5).extractLsb' 5 3 = a := by decide
  exact h s.frm
@[simp] theorem State.flagsCleared_roundingMode (s : State) (rm : RmField) :
    s.flagsCleared.roundingMode rm = s.roundingMode rm := by simp [State.roundingMode]

end Sys2Proof.Machine
end

