-- ==== Sys2Proof/Laws/PerInstr.lean ====
section
/-! SUPPORT. The family `EncodeRow`: the word of every instruction is accepted by the row of the opcode map that has the
instruction's mnemonic. One lemma per constructor. -/

namespace Sys2Proof.Laws.EncodeRow

/-- The row's number in `opcodeRows` and its mnemonic. -/
def place : Instr → Nat × String
  | .flh .. => (0, "FLH")
  | .fsh .. => (1, "FSH")
  | .fmaddH .. => (2, "FMADD.H")
  | .fmsubH .. => (3, "FMSUB.H")
  | .fnmsubH .. => (4, "FNMSUB.H")
  | .fnmaddH .. => (5, "FNMADD.H")
  | .faddH .. => (6, "FADD.H")
  | .fsubH .. => (7, "FSUB.H")
  | .fmulH .. => (8, "FMUL.H")
  | .fdivH .. => (9, "FDIV.H")
  | .fsqrtH .. => (10, "FSQRT.H")
  | .fsgnjH .. => (11, "FSGNJ.H")
  | .fsgnjnH .. => (12, "FSGNJN.H")
  | .fsgnjxH .. => (13, "FSGNJX.H")
  | .fminH .. => (14, "FMIN.H")
  | .fmaxH .. => (15, "FMAX.H")
  | .fcvtSH .. => (16, "FCVT.S.H")
  | .fcvtHS .. => (17, "FCVT.H.S")
  | .fcvtDH .. => (18, "FCVT.D.H")
  | .fcvtHD .. => (19, "FCVT.H.D")
  | .fcvtQH .. => (20, "FCVT.Q.H")
  | .fcvtHQ .. => (21, "FCVT.H.Q")
  | .fleH .. => (22, "FLE.H")
  | .fltH .. => (23, "FLT.H")
  | .feqH .. => (24, "FEQ.H")
  | .fcvtWH .. => (25, "FCVT.W.H")
  | .fcvtWUH .. => (26, "FCVT.WU.H")
  | .fcvtLH .. => (27, "FCVT.L.H")
  | .fcvtLUH .. => (28, "FCVT.LU.H")
  | .fcvtHW .. => (29, "FCVT.H.W")
  | .fcvtHWU .. => (30, "FCVT.H.WU")
  | .fcvtHL .. => (31, "FCVT.H.L")
  | .fcvtHLU .. => (32, "FCVT.H.LU")
  | .fmvXH .. => (33, "FMV.X.H")
  | .fclassH .. => (34, "FCLASS.H")
  | .fmvHX .. => (35, "FMV.H.X")
  | .lui .. => (36, "LUI")
  | .addi .. => (37, "ADDI")
  | .add .. => (38, "ADD")
  | .beq .. => (39, "BEQ")
  | .bne .. => (40, "BNE")
  | .jal .. => (41, "JAL")
  | .csrrw .. => (42, "CSRRW")
  | .csrrs .. => (43, "CSRRS")
  | .csrrc .. => (44, "CSRRC")
  | .csrrwi .. => (45, "CSRRWI")
  | .csrrsi .. => (46, "CSRRSI")
  | .csrrci .. => (47, "CSRRCI")
  | .ecall => (48, "ECALL")
  | .ebreak => (49, "EBREAK")
  | .mret => (50, "MRET")

/-- The encoding of the instruction has the bits that its row of R93 or of file 47 asks for. -/
def Statement (i : Instr) : Prop :=
  ∃ row, opcodeRows[(place i).1]? = some row ∧ row.mnemonic = (place i).2 ∧ row.accepts (encode i) = true

/-- An encoding that the row's mask cuts down to the row's pattern is accepted. -/
theorem accepts_of_masked {row : OpcodeRow} {w v : InstWord} (h : w &&& row.mask = v) (hv : v = row.pattern) :
    row.accepts w = true := by simp [OpcodeRow.accepts, h, hv]

theorem flh (rd : FReg) (rs1 : XReg) (imm : BitVec 12) : Statement (.flh rd rs1 imm) :=
  ⟨_, rfl, rfl, accepts_of_masked (encodeI_and_funct3 _ _ _ _ _) rfl⟩

theorem fsh (rs2 : FReg) (rs1 : XReg) (imm : BitVec 12) : Statement (.fsh rs2 rs1 imm) :=
  ⟨_, rfl, rfl, accepts_of_masked (encodeS_and_funct3 _ _ _ _ _) rfl⟩

theorem fmaddH (rd rs1 rs2 rs3 : FReg) (rm : RmField) : Statement (.fmaddH rd rs1 rs2 rs3 rm) :=
  ⟨_, rfl, rfl, accepts_of_masked (encodeFused_and_fmt _ _ _ _ _ _) rfl⟩

theorem fmsubH (rd rs1 rs2 rs3 : FReg) (rm : RmField) : Statement (.fmsubH rd rs1 rs2 rs3 rm) :=
  ⟨_, rfl, rfl, accepts_of_masked (encodeFused_and_fmt _ _ _ _ _ _) rfl⟩

theorem fnmsubH (rd rs1 rs2 rs3 : FReg) (rm : RmField) : Statement (.fnmsubH rd rs1 rs2 rs3 rm) :=
  ⟨_, rfl, rfl, accepts_of_masked (encodeFused_and_fmt _ _ _ _ _ _) rfl⟩

theorem fnmaddH (rd rs1 rs2 rs3 : FReg) (rm : RmField) : Statement (.fnmaddH rd rs1 rs2 rs3 rm) :=
  ⟨_, rfl, rfl, accepts_of_masked (encodeFused_and_fmt _ _ _ _ _ _) rfl⟩

theorem faddH (rd rs1 rs2 : FReg) (rm : RmField) : Statement (.faddH rd rs1 rs2 rm) :=
  ⟨_, rfl, rfl, accepts_of_masked (encodeR_and_funct7 _ _ _ _ _ _) rfl⟩

theorem fsubH (rd rs1 rs2 : FReg) (rm : RmField) : Statement (.fsubH rd rs1 rs2 rm) :=
  ⟨_, rfl, rfl, accepts_of_masked (encodeR_and_funct7 _ _ _ _ _ _) rfl⟩

theorem fmulH (rd rs1 rs2 : FReg) (rm : RmField) : Statement (.fmulH rd rs1 rs2 rm) :=
  ⟨_, rfl, rfl, accepts_of_masked (encodeR_and_funct7 _ _ _ _ _ _) rfl⟩

theorem fdivH (rd rs1 rs2 : FReg) (rm : RmField) : Statement (.fdivH rd rs1 rs2 rm) :=
  ⟨_, rfl, rfl, accepts_of_masked (encodeR_and_funct7 _ _ _ _ _ _) rfl⟩

theorem fsqrtH (rd rs1 : FReg) (rm : RmField) : Statement (.fsqrtH rd rs1 rm) :=
  ⟨_, rfl, rfl, accepts_of_masked (encodeR_and_funct7_rs2 _ _ _ _ _ _) rfl⟩

theorem fsgnjH (rd rs1 rs2 : FReg) : Statement (.fsgnjH rd rs1 rs2) :=
  ⟨_, rfl, rfl, accepts_of_masked (encodeR_and_funct7_funct3 _ _ _ _ _ _) rfl⟩

theorem fsgnjnH (rd rs1 rs2 : FReg) : Statement (.fsgnjnH rd rs1 rs2) :=
  ⟨_, rfl, rfl, accepts_of_masked (encodeR_and_funct7_funct3 _ _ _ _ _ _) rfl⟩

theorem fsgnjxH (rd rs1 rs2 : FReg) : Statement (.fsgnjxH rd rs1 rs2) :=
  ⟨_, rfl, rfl, accepts_of_masked (encodeR_and_funct7_funct3 _ _ _ _ _ _) rfl⟩

theorem fminH (rd rs1 rs2 : FReg) : Statement (.fminH rd rs1 rs2) :=
  ⟨_, rfl, rfl, accepts_of_masked (encodeR_and_funct7_funct3 _ _ _ _ _ _) rfl⟩

theorem fmaxH (rd rs1 rs2 : FReg) : Statement (.fmaxH rd rs1 rs2) :=
  ⟨_, rfl, rfl, accepts_of_masked (encodeR_and_funct7_funct3 _ _ _ _ _ _) rfl⟩

theorem fcvtSH (rd rs1 : FReg) (rm : RmField) : Statement (.fcvtSH rd rs1 rm) :=
  ⟨_, rfl, rfl, accepts_of_masked (encodeR_and_funct7_rs2 _ _ _ _ _ _) rfl⟩

theorem fcvtHS (rd rs1 : FReg) (rm : RmField) : Statement (.fcvtHS rd rs1 rm) :=
  ⟨_, rfl, rfl, accepts_of_masked (encodeR_and_funct7_rs2 _ _ _ _ _ _) rfl⟩

theorem fcvtDH (rd rs1 : FReg) (rm : RmField) : Statement (.fcvtDH rd rs1 rm) :=
  ⟨_, rfl, rfl, accepts_of_masked (encodeR_and_funct7_rs2 _ _ _ _ _ _) rfl⟩

theorem fcvtHD (rd rs1 : FReg) (rm : RmField) : Statement (.fcvtHD rd rs1 rm) :=
  ⟨_, rfl, rfl, accepts_of_masked (encodeR_and_funct7_rs2 _ _ _ _ _ _) rfl⟩

theorem fcvtQH (rd rs1 : FReg) (rm : RmField) : Statement (.fcvtQH rd rs1 rm) :=
  ⟨_, rfl, rfl, accepts_of_masked (encodeR_and_funct7_rs2 _ _ _ _ _ _) rfl⟩

theorem fcvtHQ (rd rs1 : FReg) (rm : RmField) : Statement (.fcvtHQ rd rs1 rm) :=
  ⟨_, rfl, rfl, accepts_of_masked (encodeR_and_funct7_rs2 _ _ _ _ _ _) rfl⟩

theorem fleH (rd : XReg) (rs1 rs2 : FReg) : Statement (.fleH rd rs1 rs2) :=
  ⟨_, rfl, rfl, accepts_of_masked (encodeR_and_funct7_funct3 _ _ _ _ _ _) rfl⟩

theorem fltH (rd : XReg) (rs1 rs2 : FReg) : Statement (.fltH rd rs1 rs2) :=
  ⟨_, rfl, rfl, accepts_of_masked (encodeR_and_funct7_funct3 _ _ _ _ _ _) rfl⟩

theorem feqH (rd : XReg) (rs1 rs2 : FReg) : Statement (.feqH rd rs1 rs2) :=
  ⟨_, rfl, rfl, accepts_of_masked (encodeR_and_funct7_funct3 _ _ _ _ _ _) rfl⟩

theorem fcvtWH (rd : XReg) (rs1 : FReg) (rm : RmField) : Statement (.fcvtWH rd rs1 rm) :=
  ⟨_, rfl, rfl, accepts_of_masked (encodeR_and_funct7_rs2 _ _ _ _ _ _) rfl⟩

theorem fcvtWUH (rd : XReg) (rs1 : FReg) (rm : RmField) : Statement (.fcvtWUH rd rs1 rm) :=
  ⟨_, rfl, rfl, accepts_of_masked (encodeR_and_funct7_rs2 _ _ _ _ _ _) rfl⟩

theorem fcvtLH (rd : XReg) (rs1 : FReg) (rm : RmField) : Statement (.fcvtLH rd rs1 rm) :=
  ⟨_, rfl, rfl, accepts_of_masked (encodeR_and_funct7_rs2 _ _ _ _ _ _) rfl⟩

theorem fcvtLUH (rd : XReg) (rs1 : FReg) (rm : RmField) : Statement (.fcvtLUH rd rs1 rm) :=
  ⟨_, rfl, rfl, accepts_of_masked (encodeR_and_funct7_rs2 _ _ _ _ _ _) rfl⟩

theorem fcvtHW (rd : FReg) (rs1 : XReg) (rm : RmField) : Statement (.fcvtHW rd rs1 rm) :=
  ⟨_, rfl, rfl, accepts_of_masked (encodeR_and_funct7_rs2 _ _ _ _ _ _) rfl⟩

theorem fcvtHWU (rd : FReg) (rs1 : XReg) (rm : RmField) : Statement (.fcvtHWU rd rs1 rm) :=
  ⟨_, rfl, rfl, accepts_of_masked (encodeR_and_funct7_rs2 _ _ _ _ _ _) rfl⟩

theorem fcvtHL (rd : FReg) (rs1 : XReg) (rm : RmField) : Statement (.fcvtHL rd rs1 rm) :=
  ⟨_, rfl, rfl, accepts_of_masked (encodeR_and_funct7_rs2 _ _ _ _ _ _) rfl⟩

theorem fcvtHLU (rd : FReg) (rs1 : XReg) (rm : RmField) : Statement (.fcvtHLU rd rs1 rm) :=
  ⟨_, rfl, rfl, accepts_of_masked (encodeR_and_funct7_rs2 _ _ _ _ _ _) rfl⟩

theorem fmvXH (rd : XReg) (rs1 : FReg) : Statement (.fmvXH rd rs1) :=
  ⟨_, rfl, rfl, accepts_of_masked (encodeR_and_funct7_rs2_funct3 _ _ _ _ _ _) rfl⟩

theorem fclassH (rd : XReg) (rs1 : FReg) : Statement (.fclassH rd rs1) :=
  ⟨_, rfl, rfl, accepts_of_masked (encodeR_and_funct7_rs2_funct3 _ _ _ _ _ _) rfl⟩

theorem fmvHX (rd : FReg) (rs1 : XReg) : Statement (.fmvHX rd rs1) :=
  ⟨_, rfl, rfl, accepts_of_masked (encodeR_and_funct7_rs2_funct3 _ _ _ _ _ _) rfl⟩

theorem lui (rd : XReg) (imm : BitVec 20) : Statement (.lui rd imm) :=
  ⟨_, rfl, rfl, accepts_of_masked (encodeU_and_opcode _ _ _) rfl⟩

theorem addi (rd rs1 : XReg) (imm : BitVec 12) : Statement (.addi rd rs1 imm) :=
  ⟨_, rfl, rfl, accepts_of_masked (encodeI_and_funct3 _ _ _ _ _) rfl⟩

theorem add (rd rs1 rs2 : XReg) : Statement (.add rd rs1 rs2) :=
  ⟨_, rfl, rfl, accepts_of_masked (encodeR_and_funct7_funct3 _ _ _ _ _ _) rfl⟩

theorem beq (rs1 rs2 : XReg) (off : BitVec 13) : Statement (.beq rs1 rs2 off) :=
  ⟨_, rfl, rfl, accepts_of_masked (encodeB_and_funct3 _ _ _ _) rfl⟩

theorem bne (rs1 rs2 : XReg) (off : BitVec 13) : Statement (.bne rs1 rs2 off) :=
  ⟨_, rfl, rfl, accepts_of_masked (encodeB_and_funct3 _ _ _ _) rfl⟩

theorem jal (rd : XReg) (off : BitVec 21) : Statement (.jal rd off) :=
  ⟨_, rfl, rfl, accepts_of_masked (encodeJ_and_opcode _ _) rfl⟩

theorem csrrw (rd : XReg) (csr : BitVec 12) (rs1 : XReg) : Statement (.csrrw rd csr rs1) :=
  ⟨_, rfl, rfl, accepts_of_masked (encodeI_and_funct3 _ _ _ _ _) rfl⟩

theorem csrrs (rd : XReg) (csr : BitVec 12) (rs1 : XReg) : Statement (.csrrs rd csr rs1) :=
  ⟨_, rfl, rfl, accepts_of_masked (encodeI_and_funct3 _ _ _ _ _) rfl⟩

theorem csrrc (rd : XReg) (csr : BitVec 12) (rs1 : XReg) : Statement (.csrrc rd csr rs1) :=
  ⟨_, rfl, rfl, accepts_of_masked (encodeI_and_funct3 _ _ _ _ _) rfl⟩

theorem csrrwi (rd : XReg) (csr : BitVec 12) (uimm : BitVec 5) : Statement (.csrrwi rd csr uimm) :=
  ⟨_, rfl, rfl, accepts_of_masked (encodeI_and_funct3 _ _ _ _ _) rfl⟩

theorem csrrsi (rd : XReg) (csr : BitVec 12) (uimm : BitVec 5) : Statement (.csrrsi rd csr uimm) :=
  ⟨_, rfl, rfl, accepts_of_masked (encodeI_and_funct3 _ _ _ _ _) rfl⟩

theorem csrrci (rd : XReg) (csr : BitVec 12) (uimm : BitVec 5) : Statement (.csrrci rd csr uimm) :=
  ⟨_, rfl, rfl, accepts_of_masked (encodeI_and_funct3 _ _ _ _ _) rfl⟩

theorem ecall : Statement (.ecall) :=
  ⟨_, rfl, rfl, by decide⟩

theorem ebreak : Statement (.ebreak) :=
  ⟨_, rfl, rfl, by decide⟩

theorem mret : Statement (.mret) :=
  ⟨_, rfl, rfl, by decide⟩

end Sys2Proof.Laws.EncodeRow
end

