-- ==== Sys2Proof/Tests/Slice0.lean ====
section
/-! SUPPORT. Tests. Expected values come from 95_test_vectors.md, or by hand from the rule named; the witnesses at the end
show, for each statement with hypotheses, a state and operands that meet them. -/

namespace Sys2Proof.Tests

open Sys2Proof.Machine

-- One theorem after another: hundreds of kernel checks at once exhaust the thread stacks the checker allows.
set_option Elab.async false

/-! ### WellFormed: a term no word stands for is refused -/

theorem test_wellFormed_beq_odd : (Instr.beq 1 2 9).wellFormed = false := by decide
theorem test_wellFormed_bne_odd : (Instr.bne 1 2 0x1FFF).wellFormed = false := by decide
theorem test_wellFormed_jal_odd : (Instr.jal 1 1).wellFormed = false := by decide
theorem test_wellFormed_even : (Instr.jal 1 2).wellFormed = true ∧ (Instr.beq 1 2 8).wellFormed = true := by decide

/-! ### Decoding: words written out field by field from the layouts of 30_encoding.md (R81 to R93) and the fields of
47_host_subset.md, high field first -/

/-- The instruction that a word decodes to, if any. -/
def decoded (w : InstWord) : Option Instr :=
  match decodeWord w with
  | .ok i => some i
  | .error _ => none

/-- An OP-FP word: funct5, fmt, rs2, rs1, rm, rd. -/
def opFp (funct5 : BitVec 5) (fmt : BitVec 2) (rs2 rs1 : BitVec 5) (rm : BitVec 3) (rd : BitVec 5) : InstWord :=
  funct5 ++ fmt ++ rs2 ++ rs1 ++ rm ++ rd ++ 0b1010011#7

/-- An R4 word of half precision: rs3, rs2, rs1, rm, rd, opcode. -/
def fusedWord (rs3 rs2 rs1 : BitVec 5) (rm : BitVec 3) (rd : BitVec 5) (opcode : BitVec 7) : InstWord :=
  rs3 ++ 0b10#2 ++ rs2 ++ rs1 ++ rm ++ rd ++ opcode

/-- A SYSTEM word: the 12-bit field, rs1 or uimm, funct3, rd. -/
def systemWord (csr : BitVec 12) (src : BitVec 5) (funct3 : BitVec 3) (rd : BitVec 5) : InstWord :=
  csr ++ src ++ funct3 ++ rd ++ 0b1110011#7

theorem test_decode_flh : decoded (0x806#12 ++ 17#5 ++ 0b001#3 ++ 9#5 ++ 0b0000111#7) = some (.flh 9 17 0x806) := by
  decide +kernel
theorem test_decode_fsh :
    decoded (0b1000000#7 ++ 21#5 ++ 17#5 ++ 0b001#3 ++ 0b00110#5 ++ 0b0100111#7) = some (.fsh 21 17 0x806) := by
  decide +kernel
theorem test_decode_fused :
    decoded (fusedWord 28 29 30 0b111 31 0b1000011) = some (.fmaddH 31 30 29 28 .dyn) ∧
    decoded (fusedWord 3 2 1 0b001 4 0b1000111) = some (.fmsubH 4 1 2 3 .rtz) ∧
    decoded (fusedWord 3 2 1 0b010 4 0b1001011) = some (.fnmsubH 4 1 2 3 .rdn) ∧
    decoded (fusedWord 3 2 1 0b011 4 0b1001111) = some (.fnmaddH 4 1 2 3 .rup) := by decide +kernel
theorem test_decode_arithmetic :
    decoded (opFp 0b00000 0b10 2 1 0b100 3) = some (.faddH 3 1 2 .rmm) ∧
    decoded (opFp 0b00001 0b10 2 1 0b111 3) = some (.fsubH 3 1 2 .dyn) ∧
    decoded (opFp 0b00010 0b10 2 1 0b001 3) = some (.fmulH 3 1 2 .rtz) ∧
    decoded (opFp 0b00011 0b10 2 1 0b101 3) = some (.fdivH 3 1 2 .rsv5) ∧
    decoded (opFp 0b01011 0b10 0 1 0b110 3) = some (.fsqrtH 3 1 .rsv6) ∧
    decoded (opFp 0b01011 0b10 1 1 0b000 3) = none := by decide +kernel
theorem test_decode_sign_minmax :
    decoded (opFp 0b00100 0b10 2 1 0b000 3) = some (.fsgnjH 3 1 2) ∧
    decoded (opFp 0b00100 0b10 2 1 0b001 3) = some (.fsgnjnH 3 1 2) ∧
    decoded (opFp 0b00100 0b10 2 1 0b010 3) = some (.fsgnjxH 3 1 2) ∧
    decoded (opFp 0b00100 0b10 2 1 0b011 3) = none ∧
    decoded (opFp 0b00101 0b10 2 1 0b000 3) = some (.fminH 3 1 2) ∧
    decoded (opFp 0b00101 0b10 2 1 0b001 3) = some (.fmaxH 3 1 2) ∧
    decoded (opFp 0b00101 0b10 2 1 0b010 3) = none := by decide +kernel
theorem test_decode_formats :
    decoded (opFp 0b01000 0b00 0b00010 1 0b000 2) = some (.fcvtSH 2 1 .rne) ∧
    decoded (opFp 0b01000 0b10 0b00000 1 0b001 2) = some (.fcvtHS 2 1 .rtz) ∧
    decoded (opFp 0b01000 0b01 0b00010 1 0b010 2) = some (.fcvtDH 2 1 .rdn) ∧
    decoded (opFp 0b01000 0b10 0b00001 1 0b011 2) = some (.fcvtHD 2 1 .rup) ∧
    decoded (opFp 0b01000 0b11 0b00010 1 0b100 2) = some (.fcvtQH 2 1 .rmm) ∧
    decoded (opFp 0b01000 0b10 0b00011 1 0b111 2) = some (.fcvtHQ 2 1 .dyn) ∧
    decoded (opFp 0b01000 0b10 0b00010 1 0b000 2) = none := by decide +kernel
theorem test_decode_compares :
    decoded (opFp 0b10100 0b10 2 1 0b000 5) = some (.fleH 5 1 2) ∧
    decoded (opFp 0b10100 0b10 2 1 0b001 5) = some (.fltH 5 1 2) ∧
    decoded (opFp 0b10100 0b10 2 1 0b010 5) = some (.feqH 5 1 2) := by decide +kernel
theorem test_decode_to_integer :
    decoded (opFp 0b11000 0b10 0 1 0b001 5) = some (.fcvtWH 5 1 .rtz) ∧
    decoded (opFp 0b11000 0b10 1 1 0b001 5) = some (.fcvtWUH 5 1 .rtz) ∧
    decoded (opFp 0b11000 0b10 2 1 0b001 5) = some (.fcvtLH 5 1 .rtz) ∧
    decoded (opFp 0b11000 0b10 3 1 0b001 5) = some (.fcvtLUH 5 1 .rtz) := by decide +kernel
theorem test_decode_from_integer :
    decoded (opFp 0b11010 0b10 0 5 0b000 1) = some (.fcvtHW 1 5 .rne) ∧
    decoded (opFp 0b11010 0b10 1 5 0b000 1) = some (.fcvtHWU 1 5 .rne) ∧
    decoded (opFp 0b11010 0b10 2 5 0b000 1) = some (.fcvtHL 1 5 .rne) ∧
    decoded (opFp 0b11010 0b10 3 5 0b000 1) = some (.fcvtHLU 1 5 .rne) := by decide +kernel
theorem test_decode_moves_classify :
    decoded (opFp 0b11100 0b10 0 1 0b000 5) = some (.fmvXH 5 1) ∧
    decoded (opFp 0b11100 0b10 0 1 0b001 5) = some (.fclassH 5 1) ∧
    decoded (opFp 0b11110 0b10 0 5 0b000 1) = some (.fmvHX 1 5) ∧
    decoded (opFp 0b11100 0b10 1 1 0b000 5) = none := by decide +kernel
theorem test_decode_integer :
    decoded (0xABCDE#20 ++ 5#5 ++ 0b0110111#7) = some (.lui 5 0xABCDE) ∧
    decoded (0xFFF#12 ++ 6#5 ++ 0b000#3 ++ 5#5 ++ 0b0010011#7) = some (.addi 5 6 0xFFF) ∧
    decoded (0#7 ++ 7#5 ++ 6#5 ++ 0b000#3 ++ 5#5 ++ 0b0110011#7) = some (.add 5 6 7) := by decide +kernel
/-- `off` = -4094 has bits 12 and 1 only; 0x0AA4 has bits 11, 9, 7, 5 and 2. -/
theorem test_decode_branches :
    decoded (0b1000000#7 ++ 7#5 ++ 6#5 ++ 0b000#3 ++ 0b00010#5 ++ 0b1100011#7) = some (.beq 6 7 0x1002) ∧
    decoded (0b0010101#7 ++ 7#5 ++ 6#5 ++ 0b001#3 ++ 0b00101#5 ++ 0b1100011#7) = some (.bne 6 7 0x0AA4) := by
  decide +kernel
/-- inst[31] = off[20], inst[30:21] = off[10:1], inst[20] = off[11], inst[19:12] = off[19:12] -/
theorem test_decode_jal :
    decoded (1#1 ++ 0b0000000010#10 ++ 1#1 ++ 0b10000001#8 ++ 5#5 ++ 0b1101111#7) = some (.jal 5 0x181804) := by
  decide +kernel
theorem test_decode_csr :
    decoded (systemWord 0x001 6 0b001 5) = some (.csrrw 5 0x001 6) ∧
    decoded (systemWord 0x002 6 0b010 5) = some (.csrrs 5 0x002 6) ∧
    decoded (systemWord 0x003 6 0b011 5) = some (.csrrc 5 0x003 6) ∧
    decoded (systemWord 0x300 6 0b101 5) = some (.csrrwi 5 0x300 6) ∧
    decoded (systemWord 0x341 6 0b110 5) = some (.csrrsi 5 0x341 6) ∧
    decoded (systemWord 0x343 6 0b111 5) = some (.csrrci 5 0x343 6) := by decide +kernel
theorem test_decode_environment :
    decoded (systemWord 0 0 0 0) = some .ecall ∧ decoded (systemWord 1 0 0 0) = some .ebreak ∧
    decoded (systemWord 0b001100000010 0 0 0) = some .mret ∧ decoded (systemWord 0 1 0 0) = none := by decide +kernel
/-- The word that empty memory holds is no instruction; the host reads decoding through `decodeTableWord`. -/
theorem test_decode_table_word :
    decodeTableWord 32 0x0C20F1D3 = some (.fsubH 3 1 2 .dyn) ∧ decodeTableWord 32 0 = none := by decide +kernel

/-! ### One step of a small machine -/

/-- The RV32 hart of the vectors: F only, `Mem` = 0 to 0x1FFF, the spec's defaults for the rest. -/
def rv32 : Params := ⟨.rv32, .f, .zfh, .trap, [⟨0, 0x2000⟩], .precise, .fault, 0⟩

/-- The RV64 hart of `State.reset`. -/
def rv64 : Params := Params.full

/-- A hart after reset with `FS` = 1. -/
def hart (p : Params) : State := { State.resetWith p with fs := 1 }

/-- An RV64 hart whose `f1`, `f2`, `f3` hold halves. -/
def halves (a b c : BitVec 16) : State :=
  (((hart rv64).writeF 1 (box rv64 .H a)).writeF 2 (box rv64 .H b)).writeF 3 (box rv64 .H c)

/-- What `look` sees after one step that runs the word placed at `pc`. -/
def ran {α : Type} (s : State) (w : Nat) (look : State → α) : Option α :=
  match step (s.withFetchWord 32 w) with
  | .next t => some (look t)
  | _ => none

/-- The half that `f[r]` holds, the flags, and `FS`. -/
def halfAt (r : FReg) (t : State) : BitVec 16 × FlagSet × BitVec 2 := (t.operand .H r, t.fflags, t.fs)

/-- `x[r]`, the flags, and `FS`. -/
def intAt (r : XReg) (t : State) : Word × FlagSet × BitVec 2 := (t.readX r, t.fflags, t.fs)

/-- The trap record. -/
def record (t : State) : Option TrapRecord := t.trap

/-- `fcsr` with `NV`, `DZ`, `OF`, `UF`, `NX` at bits 4 to 0 (R118). -/
theorem test_flag_bits : [flagNV, flagDZ, flagOF, flagUF, flagNX] = [0x10, 0x08, 0x04, 0x02, 0x01] := by decide

-- FLH and FSH: the numbered data vectors of section 3.1
theorem test_flh_signaling_nan_unchanged :
    ran (((hart rv32).writeX 2 0x1000).loadBytes 0x1006 [0x01, 0x7C]) 0x00611087
      (fun t => (t.readF 1, t.fflags, t.fs, t.pc)) = some (0xFFFF7C01, 0, 3, 4) := by decide +kernel
theorem test_flh_misaligned_before_access_fault :
    ran ((hart rv32).writeX 2 0x1FF9) 0x00611087 record = some (some ⟨.loadAddressMisaligned 0x1FFF, 0⟩) ∧
    ran ((hart { rv32 with misaligned := .split }).writeX 2 0x1FF9) 0x00611087 record =
      some (some ⟨.loadAccessFault 0x2000, 0⟩) := by decide +kernel
theorem test_fsh_unboxed :
    ran (((hart rv32).writeX 2 0x1008).writeF 1 0x1234ABCD) 0xFE111F27
      (fun t => (t.mem.read 0x1006, t.mem.read 0x1007, t.fs, t.stored)) =
      some (0xCD, 0xAB, 1, [0x1006, 0x1007]) := by decide +kernel
theorem test_fsh_outside : ran ((hart rv32).writeX 2 0x2002) 0xFE111F27 record =
    some (some ⟨.storeAccessFault 0x2000, 0⟩) := by decide +kernel

-- arithmetic: sections 3.2, 3.3 and 3.5
theorem test_fadd_overflow : ran (halves 0x7BFF 0x7BFF 0) 0x042081D3 (halfAt 3) = some (0x7C00, 5, 3) := by decide +kernel
theorem test_fadd_inexact_up : ran (halves 0x3C00 0x1000 0) 0x0420B1D3 (halfAt 3) = some (0x3C01, 1, 3) := by
  decide +kernel
/-- 2 - 1 (R162): the subtrahend is `rs2`. -/
theorem test_fsub_order : ran (halves 0x4000 0x3C00 0) 0x0C2081D3 (halfAt 3) = some (0x3C00, 0, 3) := by decide +kernel
/-- 1 - 1 is -0 in RDN only (R124). -/
theorem test_fsub_exact_zero : ran (halves 0x3C00 0x3C00 0) 0x0C20A1D3 (halfAt 3) = some (0x8000, 0, 3) := by
  decide +kernel
/-- -2 * 3 = -6 (R126). -/
theorem test_fmul_sign : ran (halves 0xC000 0x4200 0) 0x142081D3 (halfAt 3) = some (0xC600, 0, 3) := by decide +kernel
theorem test_fmul_infinity_zero : ran (halves 0x7C00 0x8000 0) 0x142081D3 (halfAt 3) = some (0x7E00, 0x10, 3) := by
  decide +kernel
/-- 6 / -2 = -3, and 1 / -0 is minus infinity with DZ (R127). -/
theorem test_fdiv_order : ran (halves 0x4600 0xC000 0) 0x1C2081D3 (halfAt 3) = some (0xC200, 0, 3) := by decide +kernel
theorem test_fdiv_by_zero : ran (halves 0x3C00 0x8000 0) 0x1C2081D3 (halfAt 3) = some (0xFC00, 8, 3) := by decide +kernel
theorem test_fsqrt_two : ran (halves 0x4000 0 0) 0x5C0081D3 (halfAt 3) = some (0x3DA8, 1, 3) := by decide +kernel
theorem test_fsqrt_negative : ran (halves 0xBC00 0 0) 0x5C0081D3 (halfAt 3) = some (0x7E00, 0x10, 3) := by decide +kernel
theorem test_fmin_signaling : ran (halves 0x7C01 0x3C00 0) 0x2C2081D3 (halfAt 3) = some (0x3C00, 0x10, 3) := by
  decide +kernel
theorem test_fmin_zeros : ran (halves 0x0000 0x8000 0) 0x2C2081D3 (halfAt 3) = some (0x8000, 0, 3) := by decide +kernel
theorem test_fmax_zeros : ran (halves 0x0000 0x8000 0) 0x2C2091D3 (halfAt 3) = some (0x0000, 0, 3) := by decide +kernel
theorem test_fmax_two_nans : ran (halves 0xFE01 0x7F00 0) 0x2C2091D3 (halfAt 3) = some (0x7E00, 0, 3) := by decide +kernel
theorem test_fmadd_one_rounding :
    ran (halves 0x3C01 0x3C01 0xBC02) 0x1C208243 (halfAt 4) = some (0x0010, 0, 3) := by decide +kernel
theorem test_fmsub_subtracts : ran (halves 0x4000 0x4200 0x3C00) 0x1C208247 (halfAt 4) = some (0x4500, 0, 3) := by
  decide +kernel
theorem test_fnmsub_negates_product :
    ran (halves 0x4000 0x4200 0x3C00) 0x1C20824B (halfAt 4) = some (0xC500, 0, 3) := by decide +kernel
theorem test_fnmadd_negates_both :
    ran (halves 0x4000 0x4200 0x3C00) 0x1C20824F (halfAt 4) = some (0xC700, 0, 3) := by decide +kernel

-- conversions: sections 3.6 to 3.9
theorem test_fcvt_w_minus_three : ran (halves 0xC200 0 0) 0xC40092D3 (intAt 5) = some (0xFFFFFFFFFFFFFFFD, 0, 1) := by
  decide +kernel
theorem test_fcvt_wu_nan_sign_extended :
    ran (halves 0x7E00 0 0) 0xC41092D3 (intAt 5) = some (0xFFFFFFFFFFFFFFFF, 0x10, 3) := by decide +kernel
theorem test_fcvt_l_inexact : ran (halves 0x4100 0 0) 0xC42092D3 (intAt 5) = some (2, 1, 3) := by decide +kernel
/-- -1 is below the range of an unsigned type: 0 with NV only (R190). -/
theorem test_fcvt_lu_negative : ran (halves 0xBC00 0 0) 0xC43092D3 (intAt 5) = some (0, 0x10, 3) := by decide +kernel
theorem test_fcvt_h_w_signed : ran ((hart rv64).writeX 5 0xFFFFFFFD) 0xD40280D3 (halfAt 1) = some (0xC200, 0, 3) := by
  decide +kernel
theorem test_fcvt_h_wu_unsigned : ran ((hart rv64).writeX 5 0xFFFFFFFD) 0xD41280D3 (halfAt 1) = some (0x7C00, 5, 3) := by
  decide +kernel
theorem test_fcvt_h_l_signed :
    ran ((hart rv64).writeX 5 0xFFFFFFFF00000001) 0xD42280D3 (halfAt 1) = some (0xFC00, 5, 3) := by decide +kernel
theorem test_fcvt_h_lu_unsigned :
    ran ((hart rv64).writeX 5 0xFFFFFFFF00000001) 0xD43280D3 (halfAt 1) = some (0x7C00, 5, 3) := by decide +kernel
theorem test_fcvt_s_h : ran (halves 0x83FF 0 0) 0x40208153 (fun t => (t.operand .S 2, t.fflags)) =
    some (0xB87FC000, 0) := by decide +kernel
theorem test_fcvt_d_h : ran (halves 0x0001 0 0) 0x42208153 (fun t => (t.operand .D 2, t.fflags)) =
    some (0x3E70000000000000, 0) := by decide +kernel
theorem test_fcvt_q_h : ran (halves 0x7C01 0 0) 0x46208153 (fun t => (t.readF 2, t.fflags)) =
    some (0x7FFF8000000000000000000000000000, 0x10) := by decide +kernel
theorem test_fcvt_h_s : ran ((hart rv64).writeF 1 (box rv64 .S 0x3F800001)) 0x44008153 (halfAt 2) =
    some (0x3C00, 1, 3) := by decide +kernel
theorem test_fcvt_h_d : ran ((hart rv64).writeF 1 (box rv64 .D 0x40EFFC0000000000)) 0x44108153 (halfAt 2) =
    some (0x7BFF, 0, 3) := by decide +kernel
theorem test_fcvt_h_q : ran ((hart rv64).writeF 1 0xC0004000000000000000000000000000) 0x44308153 (halfAt 2) =
    some (0xC100, 0, 3) := by decide +kernel

-- sign injection, moves, compares, classify: sections 3.10 to 3.12; the signs by hand from R210 to R212
theorem test_fsgnj_nan_payload : ran (halves 0x7C01 0x8000 0) 0x242081D3 (halfAt 3) = some (0xFC01, 0, 3) := by
  decide +kernel
theorem test_fsgnjn : ran (halves 0x3C00 0x4000 0) 0x242091D3 (halfAt 3) = some (0xBC00, 0, 3) := by decide +kernel
theorem test_fsgnjx : ran (halves 0xBC00 0xC000 0) 0x2420A1D3 (halfAt 3) = some (0x3C00, 0, 3) := by decide +kernel
/-- The register is no boxed half: a checked operand is the canonical NaN (R114), FMV.X.H takes the bits (R115). -/
theorem test_fmv_x_h_unchecked : ran ((hart rv64).writeF 1 0xC100) 0xE40082D3 (intAt 5) =
    some (0xFFFFFFFFFFFFC100, 0, 1) := by decide +kernel
theorem test_fmv_h_x : ran ((hart rv32).writeX 5 0x12347D55) 0xF40280D3 (fun t => (t.readF 1, t.fflags, t.fs)) =
    some (0xFFFF7D55, 0, 3) := by decide +kernel
theorem test_feq_zeros : ran (halves 0x0000 0x8000 0) 0xA420A2D3 (intAt 5) = some (1, 0, 1) := by decide +kernel
theorem test_feq_quiet : ran (halves 0x7E00 0x3C00 0) 0xA420A2D3 (intAt 5) = some (0, 0, 1) := by decide +kernel
theorem test_flt_order : ran (halves 0xFC00 0xFBFF 0) 0xA42092D3 (intAt 5) = some (1, 0, 1) := by decide +kernel
theorem test_flt_quiet : ran (halves 0x7E00 0x3C00 0) 0xA42092D3 (intAt 5) = some (0, 0x10, 3) := by decide +kernel
theorem test_fle_equal : ran (halves 0x7C00 0x7C00 0) 0xA42082D3 (intAt 5) = some (1, 0, 1) := by decide +kernel
theorem test_fle_order : ran (halves 0x4000 0x3C00 0) 0xA42082D3 (intAt 5) = some (0, 0, 1) := by decide +kernel
theorem test_fclass_negative_subnormal : ran (halves 0x83FF 0 0) 0xE40092D3 (intAt 5) = some (0x004, 0, 1) := by
  decide +kernel
theorem test_fclass_unboxed : ran ((hart rv64).writeF 1 0xC100) 0xE40092D3 (intAt 5) = some (0x200, 0, 1) := by
  decide +kernel

-- the host subset: section 3.18
theorem test_lui_sign_extended : ran (hart rv64) 0x800002B7 (·.readX 5) = some 0xFFFFFFFF80000000 := by decide +kernel
theorem test_addi_wraps : ran (hart rv32) 0xFFF28293 (·.readX 5) = some 0xFFFFFFFF := by decide +kernel
theorem test_addi_x0 : ran (hart rv32) 0x00100013 (fun t => (t.readX 0, t.pc)) = some (0, 4) := by decide +kernel
theorem test_add_wraps : ran (((hart rv32).writeX 5 0xFFFFFFFF).writeX 6 2) 0x006282B3 (·.readX 5) = some 1 := by
  decide +kernel
theorem test_bne_taken : ran { (hart rv32).writeX 5 2 with pc := 0x20 } 0xFE029AE3 (·.pc) = some 0x14 := by decide +kernel
theorem test_bne_not_taken : ran { hart rv32 with pc := 0x20 } 0xFE029AE3 (·.pc) = some 0x24 := by decide +kernel
theorem test_beq_taken : ran { hart rv32 with pc := 0x34 } 0x00040463 (·.pc) = some 0x3C := by decide +kernel
theorem test_beq_misaligned : ran { hart rv32 with pc := 0x10 } 0x00028163 record =
    some (some ⟨.instructionAddressMisaligned 0x12, 0x10⟩) := by decide +kernel
theorem test_jal_links : ran { hart rv32 with pc := 0x40 } 0x008000EF (fun t => (t.readX 1, t.pc)) =
    some (0x44, 0x48) := by decide +kernel
theorem test_jal_self : ran { hart rv32 with pc := 0x124 } 0x0000006F (·.pc) = some 0x124 := by decide +kernel
theorem test_csrrwi_fcsr : ran { hart rv32 with fcsr := 0xE5 } 0x003FD2F3 (fun t => (t.readX 5, t.fcsr, t.fs)) =
    some (0xE5, 0x1F, 3) := by decide +kernel
theorem test_csrrw_fcsr : ran ((hart rv32).writeX 5 0xFFFFFFFF) 0x00329073 (fun t => (t.fcsr, t.fs)) =
    some (0xFF, 3) := by decide +kernel
theorem test_csrrs_frm_reads : ran { hart rv32 with fcsr := 0xA8 } 0x002022F3
    (fun t => (t.readX 5, t.fcsr, t.fs)) = some (5, 0xA8, 1) := by decide +kernel
theorem test_csrrs_fflags_writes : ran ((hart rv32).writeX 5 0xFFFFFFFF) 0x0012A073 (fun t => (t.fcsr, t.fs)) =
    some (0x1F, 3) := by decide +kernel
theorem test_csrrc_mstatus : ran { (hart rv32).writeX 5 0x6000 with fs := 3 } 0x3002B073 (·.fs) = some 0 := by
  decide +kernel
theorem test_csrrci_fflags : ran { hart rv32 with fcsr := 0x69 } 0x0010F3F3 (fun t => (t.readX 7, t.fcsr, t.fs)) =
    some (0x09, 0x68, 3) := by decide +kernel
theorem test_csrrsi_fflags : ran (hart rv32) 0x00186073 (·.fcsr) = some 0x10 := by decide +kernel
theorem test_ecall_fault : ran { hart rv32 with pc := 0x2C } 0x00000073 record =
    some (some ⟨.environmentCallFromMMode, 0x2C⟩) := by decide +kernel
theorem test_ecall_mmode : ran { hart rv64 with pc := 0x2C, mtvec := 0x80 } 0x00000073
    (fun t => (t.mepc, t.mcause, t.mtval, t.pc)) = some (0x2C, 11, 0, 0x80) := by decide +kernel
theorem test_ebreak : ran { hart rv64 with pc := 0x2C, mtvec := 0x80 } 0x00100073
    (fun t => (t.mepc, t.mcause, t.mtval, t.pc)) = some (0x2C, 3, 0x2C, 0x80) := by decide +kernel
theorem test_mret : ran { hart rv64 with mepc := 0x28 } 0x30200073 (fun t => (t.pc, t.readX 0)) = some (0x28, 0) := by
  decide +kernel
theorem test_mret_absent : ran (hart rv32) 0x30200073 record = some (some ⟨.illegalInstruction 0x30200073, 0⟩) := by
  decide +kernel

-- the gates: sections 3.14, 3.16, 3.17
theorem test_reserved_rounding_mode : ran (hart rv32) 0x0420D1D3 record =
    some (some ⟨.illegalInstruction 0x0420D1D3, 0⟩) := by decide +kernel
theorem test_rv64_only : ran (hart rv32) 0xC42092D3 record = some (some ⟨.illegalInstruction 0xC42092D3, 0⟩) := by
  decide +kernel
theorem test_unit_off : ran { (hart rv32).writeX 2 0x0FFB with fs := 0 } 0x00611087 record =
    some (some ⟨.illegalInstruction 0x00611087, 0⟩) := by decide +kernel

/-! ### Witnesses: the hypotheses of each statement are met together -/

/-- An RV64 hart with the unit on, the word at `pc` and these halves in `f1`, `f2`, `f3`. -/
def ready (w : Nat) : State := (halves 0x3C00 0x4000 0x4200).withFetchWord 32 w

/-- The same hart with `TRAP` = fault. -/
def faulting : State := hart { rv64 with trap := .fault }

theorem witness_OpcodeRowsAreDisjoint :
    (opcodeRows[0]?.map (·.accepts 0x00611087), opcodeRows[1]?.map (·.accepts 0xFE111F27)) = (some true, some true) := by
  decide +kernel
theorem witness_DecodeOfEncode :
    (Instr.jal 31 0x100000).wellFormed = true ∧ (Instr.beq 0 31 0x1000).wellFormed = true ∧
    (Instr.fsh 31 0 0x7FF).wellFormed = true := by decide
theorem witness_EncodeOfDecode : decoded 0xE5DF7FC3 = some (.fmaddH 31 30 29 28 .dyn) := by decide +kernel

theorem witness_ReservedCompareSelectorsRaise :
    let w : InstWord := 0xA420B2D3
    w.extractLsb' 0 7 = 0b1010011 ∧ w.extractLsb' 25 2 = 0b10 ∧ w.extractLsb' 27 5 = 0b10100 ∧
    0b011 ≤ (w.extractLsb' 12 3).toNat ∧ wordAt (ready 0xA420B2D3) = w := by decide +kernel
theorem witness_ReservedMoveSelectorsRaise :
    let w : InstWord := 0xE40122D3
    w.extractLsb' 0 7 = 0b1010011 ∧ w.extractLsb' 25 2 = 0b10 ∧ w.extractLsb' 27 5 = 0b11100 ∧
    0b010 ≤ (w.extractLsb' 12 3).toNat ∧ wordAt (ready 0xE40122D3) = w := by decide +kernel
theorem witness_ReservedMoveSelectorsRaise_rs2 :
    let w : InstWord := 0xE41082D3
    w.extractLsb' 0 7 = 0b1010011 ∧ w.extractLsb' 25 2 = 0b10 ∧ w.extractLsb' 27 5 = 0b11100 ∧
    w.extractLsb' 20 5 ≠ 0 ∧ wordAt (ready 0xE41082D3) = w := by decide +kernel
theorem witness_StepRunsDecodedInstruction :
    Runnable (ready 0x042081D3) ∧ decodeWord (wordAt (ready 0x042081D3)) = .ok (.faddH 3 1 2 .rne) :=
  ⟨⟨rfl, by decide +kernel, by decide +kernel, by decide +kernel⟩, by decide +kernel⟩
theorem witness_StepRaisesOnUndecodedWord :
    Runnable (ready 0xFFFFFFFF) ∧ ∀ i, decodeWord (wordAt (ready 0xFFFFFFFF)) ≠ .ok i := by
  have h : decoded (wordAt (ready 0xFFFFFFFF)) = none := by decide +kernel
  exact ⟨⟨rfl, by decide +kernel, by decide +kernel, by decide +kernel⟩, fun i hi => by simp [decoded, hi] at h⟩
/-- `Mem` ends two bytes into the instruction at 0x1FFC; `pc` = 2 is misaligned. -/
theorem witness_FetchReadsFourBytesOrRaises :
    let cut : State := { hart { rv32 with mem := [⟨0, 0x1FFE⟩] } with pc := 0x1FFC }
    let odd : State := { hart rv64 with pc := 2 }
    (cut.trap = none ∧ cut.pc.extractLsb' 0 2 = 0 ∧ ∃ k < 4, cut.params.inMem (cut.pc.toNat + k) = false) ∧
    (odd.trap = none ∧ odd.pc.extractLsb' 0 2 ≠ 0) := by decide +kernel
/-- The store goes to the last half of the instruction after it. -/
theorem witness_FetchOfStoredByteIsRefused :
    let s := hart rv64
    let t := { s with pc := 4, stored := [6, 7] }
    (s.effectiveAddr 0 6 = 6 ∧ s.checkHalf 6 = .permitted ∧ s.fs ≠ 0 ∧ Instr.existsOn s.params (.fsh 1 0 6) = true) ∧
    (t.trap = none ∧ t.pc.extractLsb' 0 2 = 0 ∧ (∀ k < 4, t.params.inMem (t.pc.toNat + k) = true) ∧
      ∃ k < 4, t.pc.toNat + k ∈ t.stored) := by decide +kernel
theorem witness_RaiseTakesTheException :
    faulting.params.trap = .fault ∧ (hart rv64).params.trap = .mmode ∧ (hart rv64).pc.extractLsb' 0 2 = 0 := by
  decide +kernel
theorem witness_MretReturns : faulting.params.trap = .fault ∧ (hart rv64).params.trap = .mmode := by decide
theorem witness_EcallAndEbreakRaise :
    faulting.params.trap = .fault ∧ (hart rv64).params.trap = .mmode ∧ (hart rv64).pc.extractLsb' 0 2 = 0 := by
  decide +kernel
theorem witness_AbsentInstructionsRaise :
    (Instr.fcvtLH 5 1 .rtz).existsOn rv32 = false ∧ (Instr.fcvtDH 2 1 .rne).existsOn rv32 = false ∧
    (Instr.faddH 3 1 2 .rne).existsOn { rv64 with level := .zfhmin } = false ∧ Instr.mret.existsOn rv32 = false := by
  decide
theorem witness_FloatingPointOffRaises : (Instr.fsh 1 2 0).isZfh = true ∧ State.reset.fs = 0 := by decide
theorem witness_InvalidRoundingModesRaise :
    (Instr.faddH 3 1 2 .rsv5).rmField? = some .rsv5 ∧ RmField.rsv5.toBits = 0b101 ∧
    (Instr.fcvtWH 3 1 .rsv6).rmField? = some .rsv6 ∧ RmField.rsv6.toBits = 0b110 ∧
    (Instr.fcvtSH 3 1 .dyn).rmField? = some .dyn ∧ RmField.dyn.toBits = 0b111 ∧
    5 ≤ { hart rv64 with fcsr := 0xA0 }.frm.toNat ∧ 5 ≤ { hart rv64 with fcsr := 0xFF }.frm.toNat := by decide +kernel
theorem witness_RoundingModeTable :
    (hart rv64).frm = 0 ∧ { hart rv64 with fcsr := 0x3F }.frm = 1 ∧ { hart rv64 with fcsr := 0x40 }.frm = 2 ∧
    { hart rv64 with fcsr := 0x60 }.frm = 3 ∧ { hart rv64 with fcsr := 0x9F }.frm = 4 ∧
    5 ≤ { hart rv64 with fcsr := 0xA0 }.frm.toNat := by decide +kernel
theorem witness_ZfhminIsASubset :
    let s := hart { rv64 with level := .zfhmin }
    let i : Instr := .fcvtQH 2 1 .rne
    i.isZfh = true ∧ s.params.level = .zfhmin ∧ i.existsOn s.params = true ∧
    (Instr.fsgnjH 3 1 2).isZfh = true ∧ (Instr.fsgnjH 3 1 2).existsOn s.params = false := by decide
theorem witness_ZfhminIsASubset_next :
    let s := hart { rv64 with level := .zfhmin }
    ∃ t, exec (.fmvXH 5 1) s = .next t := ⟨_, rfl⟩

/-- A state with something in every part of it. -/
def busy : State :=
  { ((hart rv64).writeX 31 (BitVec.allOnes 64)).writeF 31 (BitVec.allOnes 128) with
    pc := 0xFFFFFFFFFFFFFFFC, mem := [(8, 1), (2 ^ 64 - 1, 255)], stored := [8, 9], mtvec := 0x80, mepc := 4 }

theorem witness_StepKeepsInvariant_inv : busy.Inv where
  x0 := by decide +kernel
  xWidth := by unfold State.fitsX; decide +kernel
  fWidth := by decide +kernel
  pcWidth := by unfold State.fitsX; decide +kernel
  trapWidth := by unfold State.fitsX; decide +kernel
  pcAligned := by decide +kernel
  trapAligned := by decide +kernel
  memWf := by decide +kernel
  memExists := by decide +kernel
  storedSorted := by decide +kernel
  storedExists := by decide +kernel
  recordMode := by decide +kernel
theorem witness_StepKeepsInvariant : busy.Inv ∧ ∃ t, step busy = .next t :=
  ⟨witness_StepKeepsInvariant_inv, busy.raise (.illegalInstruction 0xFF000000), by rfl⟩
theorem witness_ResetMeetsInvariant : rv32.resetPc.extractLsb' 0 2 = 0 := by decide
theorem witness_ParametersNeverChange : ∃ t, step (ready 0x042081D3) = .next t := ⟨_, rfl⟩
theorem witness_FlagsAccrueByTable :
    (Instr.fdivH 3 1 2 .rne).isCsr = false ∧ ∃ t, exec (.fdivH 3 1 2 .rne) (halves 0x3C00 0 0) = .next t :=
  ⟨rfl, _, rfl⟩
theorem witness_OnlyFshWritesMemory :
    (∀ rs2 rs1 imm, Instr.flh 1 2 6 ≠ .fsh rs2 rs1 imm) ∧ ∃ t, exec (.flh 1 2 6) (hart rv64) = .next t :=
  ⟨fun _ _ _ h => (by cases h), _, rfl⟩
theorem witness_FsIsOldOrDirty :
    (∃ t, exec (.fsh 1 2 6) (hart rv64) = .next t) ∧ (Instr.fsh 1 2 6).isZfh = true ∧
    (hart rv64).params.fsTracking = .precise ∧ (∃ t, exec (.add 1 2 3) (hart rv64) = .next t) ∧
    (Instr.add 1 2 3).isZfh = false ∧ (Instr.add 1 2 3).isCsr = false :=
  ⟨⟨_, rfl⟩, rfl, rfl, ⟨_, rfl⟩, rfl, rfl⟩
/-- The clauses on precise tracking: an `f` register written; only a flag accrued, which stands already; neither, by FSH;
and an instruction that does not complete. -/
theorem witness_FsIsOldOrDirty_precise :
    let s := { halves 0x4100 0x4000 0x4200 with fcsr := 0x1F }
    s.params.fsTracking = .precise ∧
    (Completes s (.fdivH 3 1 2 .rne) ∧ (Instr.fdivH 3 1 2 .rne).writesF = true) ∧
    (Completes s (.fcvtWH 5 1 .dyn) ∧ (Instr.fcvtWH 5 1 .dyn).writesF = false ∧
      ∃ u, exec (.fcvtWH 5 1 .dyn) s.flagsCleared = .next u ∧ u.fflags = flagNX) ∧
    (Completes s (.fsh 1 0 6) ∧ (Instr.fsh 1 0 6).writesF = false ∧
      ∃ u, exec (.fsh 1 0 6) s.flagsCleared = .next u ∧ u.fflags = 0) ∧
    ¬ Completes State.reset (.fcvtWH 5 1 .dyn) := by
  refine ⟨rfl, ⟨⟨⟨rfl, by decide +kernel⟩, ?_, ?_⟩, rfl⟩, ⟨⟨⟨rfl, by decide +kernel⟩, ?_, ?_⟩, rfl, _, rfl, by decide +kernel⟩,
    ⟨⟨⟨rfl, by decide +kernel⟩, ?_, ?_⟩, rfl, _, rfl, by decide +kernel⟩, fun h => h.enabled.2 rfl⟩
  · rintro rm ⟨⟩; decide +kernel
  · rintro rs1 imm ⟨⟩
  · rintro rm ⟨⟩; decide +kernel
  · rintro rs1 imm ⟨⟩
  · rintro rm ⟨⟩
  · rintro rs1 imm ⟨⟩; decide +kernel
theorem witness_HalfResultsAreBoxed :
    (Instr.fmvHX 1 5).halfDest? = some 1 ∧ ∃ t, exec (.fmvHX 1 5) (hart rv64) = .next t := ⟨rfl, _, rfl⟩

/-- Each clause: `FS` = 0 at reset; then 1 and 0x2000 as effective addresses, and 0x1FFF and 0xFFFFFFFF with split
access; then the last half of `Mem`, and with all of memory the pair at 2^64-1 and 0. -/
theorem witness_FlhLoadsOrRaises :
    let split := hart { rv32 with misaligned := .split, mem := [⟨0, 0x1FFE⟩, ⟨0x1FFF, 1⟩] }
    let all := hart { rv64 with misaligned := .split }
    State.reset.fs = 0 ∧
    ((hart rv32).fs ≠ 0 ∧ (hart rv32).effectiveAddr 0 1 = 1 ∧ (hart rv32).params.misaligned = .trap) ∧
    ((hart rv32).effectiveAddr 0 0xFFE = 0xFFFFFFFE ∧ (hart rv32).params.inMem 0xFFFFFFFE = false) ∧
    (split.effectiveAddr 0 0xFFF = 0xFFFFFFFF ∧ split.params.inMem 0xFFFFFFFF = false) ∧
    ((split.writeX 1 0x1FFF).effectiveAddr 1 0 = 0x1FFF ∧ split.params.inMem 0x1FFF = true ∧
      split.params.inMem 0x2000 = false) ∧
    (((hart rv32).writeX 1 0x1FFE).effectiveAddr 1 0 = 0x1FFE ∧ rv32.inMem 0x1FFE = true ∧ rv32.inMem 0x1FFF = true) ∧
    (all.effectiveAddr 0 0xFFF = 0xFFFFFFFFFFFFFFFF ∧ all.params.truncX (0xFFFFFFFFFFFFFFFF + 1) = 0 ∧
      all.params.inMem 0xFFFFFFFFFFFFFFFF = true ∧ all.params.inMem 0 = true) := by decide +kernel
/-- The same addresses, and memory in canonical form. -/
theorem witness_FshStoresOrRaises :
    let split := hart { rv32 with misaligned := .split, mem := [⟨0, 0x1FFE⟩, ⟨0x1FFF, 1⟩] }
    State.reset.fs = 0 ∧
    ((hart rv32).fs ≠ 0 ∧ (hart rv32).effectiveAddr 0 1 = 1 ∧ (hart rv32).params.misaligned = .trap) ∧
    ((hart rv32).effectiveAddr 0 0xFFE = 0xFFFFFFFE ∧ (hart rv32).params.inMem 0xFFFFFFFE = false) ∧
    (split.effectiveAddr 0 0xFFF = 0xFFFFFFFF ∧ split.params.inMem 0xFFFFFFFF = false) ∧
    ((split.writeX 1 0x1FFF).effectiveAddr 1 0 = 0x1FFF ∧ split.params.inMem 0x1FFF = true ∧
      split.params.inMem 0x2000 = false) ∧
    (busy.mem.wf = true ∧ busy.fs ≠ 0 ∧ busy.effectiveAddr 31 0xFFF = 0xFFFFFFFFFFFFFFFE ∧
      busy.params.inMem 0xFFFFFFFFFFFFFFFE = true ∧ busy.params.inMem 0xFFFFFFFFFFFFFFFF = true) := by decide +kernel
/-- The load at the state right after the store. -/
theorem witness_FlhAfterFshReboxes :
    ∃ t, exec (.fsh 31 0 6) busy = .next t ∧ busy.mem.wf = true ∧ Enabled busy (.fsh 31 0 6) ∧
      (busy.effectiveAddr 0 6).getLsbD 0 = false ∧ busy.params.inMem 6 = true ∧ busy.params.inMem 7 = true ∧
      t.params = busy.params ∧ t.effectiveAddr 0 6 = busy.effectiveAddr 0 6 ∧ Enabled t (.flh 1 0 6) ∧
      ∃ v, exec (.flh 1 0 6) t = .next v := by
  refine ⟨_, rfl, ?_⟩
  unfold Enabled
  refine ⟨by decide +kernel, by decide +kernel, by decide +kernel, by decide +kernel, by decide +kernel,
    by decide +kernel, by decide +kernel, by decide +kernel, _, rfl⟩

/-- The hypotheses of the completion statements: one state at which every instruction of the extension may execute, and
a hart and a state at which it may not. -/
theorem enabled_halves (i : Instr) : Enabled (halves 0x3C00 0x4000 0x4200) i := by
  unfold Enabled
  exact ⟨by cases i <;> rfl, by decide +kernel⟩
theorem not_enabled_reset (i : Instr) : ¬ Enabled State.reset i := fun h => h.2 rfl
theorem roundingMode_halves :
    (halves 0x3C00 0x4000 0x4200).roundingMode .dyn = some .RNE ∧
    (halves 0x3C00 0x4000 0x4200).roundingMode .rmm = some .RMM ∧
    (halves 0x3C00 0x4000 0x4200).roundingMode .rsv5 = none := by decide +kernel
theorem witness_ArithmeticCompletes :
    Enabled (halves 0x3C00 0x4000 0x4200) (.fdivH 3 1 2 .dyn) ∧ ¬ Enabled State.reset (.fdivH 3 1 2 .dyn) ∧
    (halves 0x3C00 0x4000 0x4200).roundingMode .dyn = some .RNE :=
  ⟨enabled_halves _, not_enabled_reset _, roundingMode_halves.1⟩
theorem witness_SqrtCompletes :
    Enabled (halves 0x3C00 0x4000 0x4200) (.fsqrtH 3 1 .rmm) ∧ ¬ Enabled State.reset (.fsqrtH 3 1 .rmm) ∧
    (halves 0x3C00 0x4000 0x4200).roundingMode .rmm = some .RMM :=
  ⟨enabled_halves _, not_enabled_reset _, roundingMode_halves.2.1⟩
theorem witness_FusedMultiplyAddCompletes :
    Enabled (halves 0x3C00 0x4000 0x4200) (.fnmaddH 4 1 2 3 .dyn) ∧ ¬ Enabled State.reset (.fnmaddH 4 1 2 3 .dyn) ∧
    (halves 0x3C00 0x4000 0x4200).roundingMode .dyn = some .RNE :=
  ⟨enabled_halves _, not_enabled_reset _, roundingMode_halves.1⟩
theorem witness_MinMaxComplete :
    Enabled (halves 0x3C00 0x4000 0x4200) (.fminH 3 1 2) ∧ ¬ Enabled State.reset (.fmaxH 3 1 2) :=
  ⟨enabled_halves _, not_enabled_reset _⟩
/-- The clauses of the order: the NaN cases, and -0 against +0, whose values are equal. -/
theorem witness_MinMaxComplete_operands :
    Fp.isNaN .H 0x7C01 = true ∧ Fp.isNaN .H 0xFFFF = true ∧ Fp.isNaN .H 0x7C00 = false ∧
    Fp.ordQ .H 0x8000 = Fp.ordQ .H 0x0000 := by
  refine ⟨by decide +kernel, by decide +kernel, by decide +kernel, ?_⟩
  have h (a : Fp.Bits .H) (hi : Fp.isInf .H a = false) (hn : (Fp.val .H a).num = 0) :
      Fp.ordQ .H a = ((0 : ℚ) : WithTop ℚ) := by
    simp [Fp.ordQ, hi, Fp.valQ, Fp.Scaled.toRat, hn]
  rw [h 0x8000 (by decide +kernel) (by decide +kernel), h 0x0000 (by decide +kernel) (by decide +kernel)]
theorem witness_HalfToIntegerCompletes :
    Enabled (halves 0x3C00 0x4000 0x4200) (.fcvtLUH 5 1 .dyn) ∧ ¬ Enabled State.reset (.fcvtWH 5 1 .dyn) ∧
    (halves 0x3C00 0x4000 0x4200).roundingMode .dyn = some .RNE :=
  ⟨enabled_halves _, not_enabled_reset _, roundingMode_halves.1⟩
theorem witness_IntegerToHalfCompletes :
    Enabled (halves 0x3C00 0x4000 0x4200) (.fcvtHLU 1 5 .dyn) ∧ ¬ Enabled State.reset (.fcvtHW 1 5 .dyn) ∧
    (halves 0x3C00 0x4000 0x4200).roundingMode .dyn = some .RNE :=
  ⟨enabled_halves _, not_enabled_reset _, roundingMode_halves.1⟩
theorem witness_FormatConversionCompletes :
    Enabled (halves 0x3C00 0x4000 0x4200) (.fcvtHQ 2 1 .dyn) ∧ ¬ Enabled State.reset (.fcvtSH 2 1 .rsv5) ∧
    (halves 0x3C00 0x4000 0x4200).roundingMode .dyn = some .RNE ∧
    (halves 0x3C00 0x4000 0x4200).roundingMode .rsv5 = none :=
  ⟨enabled_halves _, not_enabled_reset _, roundingMode_halves.1, roundingMode_halves.2.2⟩
theorem witness_SignInjectionCompletes :
    Enabled (halves 0x3C00 0x4000 0x4200) (.fsgnjxH 3 1 2) ∧ ¬ Enabled State.reset (.fsgnjH 3 1 2) :=
  ⟨enabled_halves _, not_enabled_reset _⟩
theorem witness_MovesComplete : State.reset.fs = 0 ∧ (hart rv32).fs ≠ 0 := by decide
theorem witness_ComparesComplete :
    Enabled (halves 0x3C00 0x4000 0x4200) (.fleH 0 1 2) ∧ ¬ Enabled State.reset (.feqH 0 1 2) ∧
    Fp.isNaN .H ((halves 0x3C00 0x4000 0x4200).operand .H 1) = false ∧
    Fp.isNaN .H ((halves 0x3C00 0x4000 0x4200).operand .H 2) = false :=
  ⟨enabled_halves _, not_enabled_reset _, by decide +kernel, by decide +kernel⟩
theorem witness_ClassifyCompletes :
    Enabled (halves 0x3C00 0x4000 0x4200) (.fclassH 0 1) ∧ ¬ Enabled State.reset (.fclassH 0 1) :=
  ⟨enabled_halves _, not_enabled_reset _⟩

/-- Taken and not taken; targets 8 and -4 modulo 2^32 aligned, 2 misaligned. -/
theorem witness_BranchesCompleteOrRaise :
    (hart rv32).readX 0 = (hart rv32).readX 1 ∧ ((hart rv32).writeX 1 1).readX 0 ≠ ((hart rv32).writeX 1 1).readX 1 ∧
    ((hart rv32).branchTarget (8#13)).getLsbD 1 = false ∧ (hart rv32).branchTarget (0x1FFC#13) = 0xFFFFFFFC ∧
    ((hart rv32).branchTarget (2#13)).getLsbD 1 = true := by decide +kernel
theorem witness_JalCompletesOrRaises :
    ((hart rv32).branchTarget (0x1FFFFC#21)).getLsbD 1 = false ∧ ((hart rv32).branchTarget (2#21)).getLsbD 1 = true := by
  decide +kernel
theorem witness_CsrInstructionsComplete :
    Csr.ofAddr 0x343 = some .mtval ∧ (hart rv64).csrAllowed .mtval = true ∧ Csr.ofAddr 0x001 = some .fflags ∧
    (hart rv32).csrAllowed .fflags = true ∧ Csr.ofAddr 0x300 = some .mstatus ∧ State.reset.csrAllowed .mstatus = true := by
  decide
theorem witness_CsrAccessRaises :
    (0xC00 : BitVec 12) ∉ [0x001, 0x002, 0x003, 0x300, 0x305, 0x341, 0x342, 0x343] ∧ State.reset.fs = 0 ∧
    (hart rv32).params.trap = .fault := by decide

/-- 5/2, and the root of 2: a tie and an irrational. -/
theorem witness_RoundIntFollowsTable :
    Fp.Magnitude.IsValue (.quot 5 2 0) (5 / 2) ∧ Fp.Magnitude.IsValue (.root 2 0) (Real.sqrt 2) := by
  constructor <;> norm_num [Fp.Magnitude.IsValue]
/-- The least positive half and the least magnitude that overflows. -/
theorem witness_RoundFollowsProcedure :
    (Fp.Magnitude.IsValue (.quot 1 1 (-24)) (2 ^ (-24 : ℤ)) ∧ (0 : ℝ) < 2 ^ (-24 : ℤ)) ∧
    Fp.Magnitude.IsValue (.quot 65520 1 0) 65520 := by
  refine ⟨⟨?_, by positivity⟩, ?_⟩ <;> norm_num [Fp.Magnitude.IsValue]
/-- On both sides of each bound. -/
theorem witness_OverflowFollowsTable :
    Fp.Magnitude.IsValue (.quot 65519 1 0) 65519 ∧ Fp.Magnitude.IsValue (.quot 65520 1 0) 65520 ∧
    Fp.Magnitude.IsValue (.quot 131071 2 0) (131071 / 2) ∧ Fp.Magnitude.IsValue (.quot 65536 1 0) 65536 := by
  refine ⟨?_, ?_, ?_, ?_⟩ <;> norm_num [Fp.Magnitude.IsValue]
theorem test_overflow_bounds :
    Fp.round .H .RNE false (.quot 65519 1 0) = (0x7BFF, flagNX) ∧
    Fp.round .H .RNE false (.quot 65520 1 0) = (0x7C00, flagOF ||| flagNX) ∧
    Fp.round .H .RTZ true (.quot 131071 2 0) = (0xFBFF, flagNX) ∧
    Fp.round .H .RTZ false (.quot 65536 1 0) = (0x7BFF, flagOF ||| flagNX) := by decide +kernel

/-- Each class of operand that a row of R125 to R129 names. -/
theorem witness_arithmetic_rows :
    Fp.isSNaN .H 0x7C01 = true ∧ Fp.isQNaN .H 0x7E00 = true ∧ Fp.isInf .H 0xFC00 = true ∧ Fp.isZero .H 0x8000 = true ∧
    Fp.isSub .H 0x03FF = true ∧ Fp.isNormal .H 0x0400 = true ∧ Fp.sign .H 0x8000 = true ∧ Fp.sign .H 0x7FFF = false := by
  decide +kernel
/-- The widest format that fits, and the narrowest register; a boxed half, and one with its top bit cleared. -/
theorem witness_BoxingRules :
    rv64.fp = .fdq ∧ rv32.fp = .f ∧ { rv32 with fp := .fd }.fp = .fd ∧
    Format.width .Q ≤ rv64.flen ∧ Format.width .S ≤ rv32.flen ∧
    (∀ k < 32, 16 ≤ k → (0xFFFF3C00 : FWord).getLsbD k = true) ∧ (0x7FFF3C00 : FWord).getLsbD 31 = false := by
  decide +kernel
theorem witness_NaNResultsAreCanonical :
    Fp.isNaN .H (Fp.add .H .RNE 0x7C01 0x3C00).1 = true ∧ Fp.isSNaN .H 0x7C01 = true ∧ Fp.isNaN .H 0xFE01 = true ∧
    Fp.isNaN .S (Fp.convert .H .S .RNE 0xFE01).1 = true := by decide +kernel
/-- The signaling NaN as the addend of infinity times zero, the corner where two rows of R129 meet. -/
theorem test_fma_signaling_addend : Fp.fma .H .RNE 0x7C00 0x0000 0x7C01 = (0x7E00, flagNV) := by decide +kernel
theorem witness_WideningIsExact : Format.S ≠ .H ∧ Fp.isFinite .H 0x8001 = true ∧ Fp.isNaN .H 0xFC00 = false := by
  decide +kernel
theorem witness_CsrMap : (0x304 : BitVec 12) ∉ [0x001, 0x002, 0x003, 0x300, 0x305, 0x341, 0x342, 0x343] := by decide
/-- The decode clauses: a word of each mask and match that a statement names. -/
theorem witness_decode_masks :
    (0x00611087 &&& 0x0000707F, 0xFE111F27 &&& 0x0000707F) = (0x00001007#32, 0x00001027#32) ∧
    (0x5C0081D3 &&& 0xFFF0007F, 0x2C2081D3 &&& 0xFE00707F, 0x2C2091D3 &&& 0xFE00707F) =
      (0x5C000053#32, 0x2C000053#32, 0x2C001053#32) ∧
    (0xE40082D3 &&& 0xFFF0707F, 0xF40280D3 &&& 0xFFF0707F, 0xE40092D3 &&& 0xFFF0707F) =
      (0xE4000053#32, 0xF4000053#32, 0xE4001053#32) ∧
    (0x000022B7 &&& 0x0000007F, 0xFFF28293 &&& 0x0000707F, 0x006282B3 &&& 0xFE00707F) =
      (0x00000037#32, 0x00000013#32, 0x00000033#32) ∧
    (0x00040463 &&& 0x0000707F, 0xFE029AE3 &&& 0x0000707F, 0x008000EF &&& 0x0000007F) =
      (0x00000063#32, 0x00001063#32, 0x0000006F#32) ∧
    0x3002A073 &&& 0x0000007F = 0x00000073#32 ∧ (0x3002A073#32).extractLsb' 12 3 = 0b010 := by decide +kernel

end Sys2Proof.Tests
end

section
/-! PROOFS. 00_scope.md: which instruction exists on which hart, and what one that does not exist does. -/

namespace Sys2Proof

/-! ### The parameters D, Q and XLEN (R8) -/

theorem Params.hasD_iff (p : Params) : p.hasD = true ↔ p.fp = .fd ∨ p.fp = .fdq := by
  cases h : p.fp <;> simp [Params.hasD, h]

theorem Params.hasQ_iff (p : Params) : p.hasQ = true ↔ p.fp = .fdq := by
  cases h : p.fp <;> simp [Params.hasQ, h]

theorem Params.xbits_of_rv32 {p : Params} (h : p.xlen = .rv32) : p.xbits = 32 := by simp [Params.xbits, h]

theorem Params.xbits_of_rv64 {p : Params} (h : p.xlen = .rv64) : p.xbits = 64 := by simp [Params.xbits, h]

namespace Machine

/-! ### Execution goes through the gate -/

/-- Every instruction of the extension is the gate around some body: whatever the body does, it runs only where the gate
lets it. -/
theorem exec_eq_whenFpOn {i : Instr} (hz : i.isZfh = true) (s : State) :
    ∃ body, exec i s = .next (s.whenFpOn i body) := by
  cases i with
  | flh | fsh | fmvXH | fmvHX | fsgnjH | fsgnjnH | fsgnjxH | fminH | fmaxH | feqH | fltH | fleH | fclassH =>
    exact ⟨_, rfl⟩
  | faddH | fsubH | fmulH | fdivH | fsqrtH | fmaddH | fmsubH | fnmsubH | fnmaddH => exact ⟨_, rfl⟩
  | fcvtSH | fcvtHS | fcvtDH | fcvtHD | fcvtQH | fcvtHQ | fcvtWH | fcvtWUH | fcvtLH | fcvtLUH | fcvtHW | fcvtHWU
  | fcvtHL | fcvtHLU => exact ⟨_, rfl⟩
  | lui | addi | add | beq | bne | jal | csrrw | csrrs | csrrc | csrrwi | csrrsi | csrrci | ecall | ebreak | mret =>
    cases hz

/-- An instruction of the extension that does not exist on the hart, or finds the unit off, raises. -/
theorem exec_illegal_of_not_enabled {i : Instr} {s : State} (hz : i.isZfh = true) (h : ¬ Enabled s i) :
    exec i s = .next (s.illegal i) := by
  obtain ⟨body, hbody⟩ := exec_eq_whenFpOn hz s
  rw [hbody, State.whenFpOn_disabled h]

/-- MRET is the one instruction of the host subset that a hart may lack (R288). -/
theorem eq_mret_of_host_absent {i : Instr} {p : Params} (hz : i.isZfh = false) (h : i.existsOn p = false) :
    i = .mret := by
  cases i with
  | mret => rfl
  | lui | addi | add | beq | bne | jal | csrrw | csrrs | csrrc | csrrwi | csrrsi | csrrci | ecall | ebreak => cases h
  | flh | fsh | fmvXH | fmvHX | fsgnjH | fsgnjnH | fsgnjxH | fminH | fmaxH | feqH | fltH | fleH | fclassH => cases hz
  | faddH | fsubH | fmulH | fdivH | fsqrtH | fmaddH | fmsubH | fnmsubH | fnmaddH => cases hz
  | fcvtSH | fcvtHS | fcvtDH | fcvtHD | fcvtQH | fcvtHQ | fcvtWH | fcvtWUH | fcvtLH | fcvtLUH | fcvtHW | fcvtHWU
  | fcvtHL | fcvtHLU => cases hz

theorem exec_mret_of_absent {s : State} (h : Instr.existsOn s.params .mret = false) :
    exec .mret s = .next (s.illegal .mret) := by
  change execMret s = _
  rw [execMret, if_neg (by rw [h]; decide)]

/-- R9, R301 cause 2: an instruction that does not exist on the hart raises `IllegalInstruction`, in every state. -/
theorem exec_illegal_of_absent {i : Instr} {s : State} (h : i.existsOn s.params = false) :
    exec i s = .next (s.illegal i) := by
  cases hz : i.isZfh with
  | true =>
    have notEnabled : ¬ Enabled s i := fun ⟨hexists, _⟩ => by simp [h] at hexists
    exact exec_illegal_of_not_enabled hz notEnabled
  | false =>
    obtain rfl := eq_mret_of_host_absent hz h
    exact exec_mret_of_absent h

/-- Settles O15: the existence table row by row, and the gate (or MRET's own check) for an instruction outside it. -/
theorem absentInstructionsRaise : Obligations.AbsentInstructionsRaise := by
  unfold Obligations.AbsentInstructionsRaise
  refine ⟨fun i p => ?_, fun p => ⟨p.hasD_iff, p.hasQ_iff, Params.xbits_of_rv32, Params.xbits_of_rv64⟩,
    fun _ _ => exec_illegal_of_absent⟩
  cases i with
  | flh | fsh | fmvXH | fmvHX | fcvtSH | fcvtHS => exact iff_of_true rfl trivial
  | fcvtDH | fcvtHD => exact p.hasD_iff
  | fcvtQH | fcvtHQ => exact p.hasQ_iff
  | faddH | fsubH | fmulH | fdivH | fsqrtH | fminH | fmaxH | fmaddH | fmsubH | fnmsubH | fnmaddH | fsgnjH | fsgnjnH
  | fsgnjxH | feqH | fltH | fleH | fclassH | fcvtWH | fcvtWUH | fcvtHW | fcvtHWU => exact beq_iff_eq
  | fcvtLH | fcvtLUH | fcvtHL | fcvtHLU => simp [Instr.existsOn]
  | mret => exact beq_iff_eq
  | lui | addi | add | beq | bne | jal | csrrw | csrrs | csrrc | csrrwi | csrrsi | csrrci | ecall | ebreak =>
    exact iff_of_true rfl trivial

end Machine

end Sys2Proof
end

section
/-! PROOFS. 20_memory.md: what a fetch gives and when it raises, and how an address wraps. -/

namespace Sys2Proof

/-! ### Arithmetic modulo 2^XLEN over integers (R11, R52) -/

/-- The signed and the unsigned reading of a word agree modulo 2^64. -/
theorem Word.toInt_emod (v : Word) : v.toInt % ((2 ^ 64 : ℕ) : ℤ) = v.toNat := by
  rw [BitVec.toInt_eq_toNat_bmod, Int.bmod_emod]
  exact_mod_cast Nat.mod_eq_of_lt v.isLt

/-- Cutting to XLEN bits forgets whether a word was read as signed or as unsigned. -/
theorem Params.truncX_toNat_eq_toInt_emod (p : Params) (v : Word) :
    ((p.truncX v).toNat : ℤ) = v.toInt % 2 ^ p.xbits := by
  have hdvd : (2 : ℤ) ^ p.xbits ∣ ((2 ^ 64 : ℕ) : ℤ) := by exact_mod_cast pow_dvd_pow 2 p.xbits_le
  rw [← Int.emod_emod_of_dvd _ hdvd, Word.toInt_emod, p.truncX_toNat]
  norm_cast

/-- `sext_XLEN` gives the value's own integer, modulo 2^XLEN. -/
theorem Params.sextX_toNat_eq_toInt_emod {n : Nat} (hn : n ≤ 64) (p : Params) (v : BitVec n) :
    ((p.sextX v).toNat : ℤ) = v.toInt % 2 ^ p.xbits := by
  rw [Params.sextX, p.truncX_toNat_eq_toInt_emod, BitVec.toInt_signExtend_of_le hn]

/-- A sum of words cut to XLEN bits is the sum of their numbers modulo 2^XLEN: the carry out of bit 63 is a multiple of
2^XLEN. -/
theorem Params.truncX_add_toNat (p : Params) (v w : Word) :
    (p.truncX (v + w)).toNat = (v.toNat + w.toNat) % 2 ^ p.xbits := by
  rw [p.truncX_toNat, BitVec.toNat_add, Nat.mod_mod_of_dvd _ (pow_dvd_pow 2 p.xbits_le)]

/-- A base plus a sign-extended offset, modulo 2^XLEN. -/
theorem Params.truncX_add_sextX_toNat {n : Nat} (hn : n ≤ 64) (p : Params) (base : Word) (off : BitVec n) :
    ((p.truncX (base + p.sextX off)).toNat : ℤ) = (base.toNat + off.toInt) % 2 ^ p.xbits := by
  calc ((p.truncX (base + p.sextX off)).toNat : ℤ)
      = (base.toNat + (p.sextX off).toNat) % 2 ^ p.xbits := by simp [p.truncX_add_toNat]
    _ = (base.toNat + off.toInt % 2 ^ p.xbits) % 2 ^ p.xbits := by rw [p.sextX_toNat_eq_toInt_emod hn]
    _ = (base.toNat + off.toInt) % 2 ^ p.xbits := Int.add_emod_emod ..

namespace Machine

/-- Settles O28: the address is a base plus a sign-extended offset, and that sum wraps whatever the base and the offset. -/
theorem effectiveAddressWraps : Obligations.EffectiveAddressWraps := by
  unfold Obligations.EffectiveAddressWraps
  intro s rs1 imm
  exact s.params.truncX_add_sextX_toNat (by decide) (s.readX rs1) imm

/-! ### The outcome of a fetch (R51) -/

theorem mem_fetchAddrs_iff {pc : Word} {a : Nat} : a ∈ fetchAddrs pc ↔ ∃ k < 4, a = pc.toNat + k := by
  simp only [fetchAddrs, List.mem_cons, List.not_mem_nil, or_false]
  constructor
  · rintro (rfl | rfl | rfl | rfl)
    exacts [⟨0, by decide, rfl⟩, ⟨1, by decide, rfl⟩, ⟨2, by decide, rfl⟩, ⟨3, by decide, rfl⟩]
  · rintro ⟨k, hk, rfl⟩
    omega

theorem State.fetch_of_misaligned {s : State} (h : s.pc.extractLsb' 0 2 ≠ 0) :
    s.fetch = .raises (.instructionAddressMisaligned s.pc) := by
  obtain ⟨-, hfetch⟩ | ⟨haligned, -⟩ | ⟨haligned, -⟩ | ⟨haligned, -⟩ := s.fetch_cases
  · exact hfetch
  all_goals exact absurd haligned h

theorem State.fetch_of_absent {s : State} (h : s.pc.extractLsb' 0 2 = 0) {k : Nat} (hk : k < 4)
    (habsent : s.params.inMem (s.pc.toNat + k) = false) : s.fetch = .raises (.instructionAccessFault s.pc) := by
  have hmem : s.pc.toNat + k ∈ fetchAddrs s.pc := mem_fetchAddrs_iff.2 ⟨k, hk, rfl⟩
  obtain ⟨hne, -⟩ | ⟨-, -, hfetch⟩ | ⟨-, hall, -⟩ | ⟨-, hall, -⟩ := s.fetch_cases
  · exact absurd h hne
  · exact hfetch
  all_goals exact absurd (hall _ hmem) (by simp [habsent])

/-- The fetch of a runnable state gives the four bytes at `pc`. -/
theorem Runnable.fetch_eq {s : State} (h : Runnable s) :
    s.fetch = .bytes (s.mem.read s.pc.toNat) (s.mem.read (s.pc.toNat + 1)) (s.mem.read (s.pc.toNat + 2))
      (s.mem.read (s.pc.toNat + 3)) := by
  obtain ⟨hne, -⟩ | ⟨-, ⟨a, ha, habsent⟩, -⟩ | ⟨-, -, a, ha, hstored, -⟩ | ⟨-, -, -, hfetch⟩ := s.fetch_cases
  · exact absurd h.aligned hne
  · obtain ⟨k, hk, rfl⟩ := mem_fetchAddrs_iff.1 ha
    exact absurd (h.exist k hk) (by simp [habsent])
  · obtain ⟨k, hk, rfl⟩ := mem_fetchAddrs_iff.1 ha
    exact absurd hstored (h.unstored k hk)
  · exact hfetch

/-- An exception of the fetch is the whole step. -/
theorem step_of_fetch_raises {s : State} {e : Exception} (hrun : s.trap = none) (h : s.fetch = .raises e) :
    step s = .next (s.raise e) := by
  simp only [step, hrun, h]

/-- Settles O9: each clause's hypothesis picks one outcome of the fetch, and a fetch that raises is the whole step. -/
theorem fetchReadsFourBytesOrRaises : Obligations.FetchReadsFourBytesOrRaises := by
  unfold Obligations.FetchReadsFourBytesOrRaises
  intro s
  refine ⟨fun h => ⟨_, _, _, _, h.fetch_eq, rfl⟩, fun hrun hpc => ?_, fun hrun hpc ⟨k, hk, habsent⟩ => ?_⟩
  · exact step_of_fetch_raises hrun (State.fetch_of_misaligned hpc)
  · exact step_of_fetch_raises hrun (State.fetch_of_absent hpc hk habsent)

end Machine

end Sys2Proof
end

section
/-! PROOFS. 30_encoding.md: which rounding modes are invalid, and what an instruction with one does. -/

namespace Sys2Proof.Machine

/-! ### The codes that name no rounding mode (R98, R117) -/

theorem RoundingMode.ofBits_eq_none_iff (b : BitVec 3) : RoundingMode.ofBits b = none ↔ 5 ≤ b.toNat := by
  revert b
  decide

theorem State.roundingMode_dyn (s : State) : s.roundingMode .dyn = RoundingMode.ofBits s.frm := rfl

theorem State.roundingMode_static (s : State) {rm : RmField} (h : rm ≠ .dyn) :
    s.roundingMode rm = RoundingMode.ofBits rm.toBits := by
  rw [State.roundingMode, if_neg h]

/-- R98: an `rm` field gives no rounding mode exactly when its code is reserved, or is DYN and `frm` holds 5, 6 or 7. -/
theorem State.roundingMode_eq_none_iff (s : State) (rm : RmField) :
    s.roundingMode rm = none ↔
      rm.toBits = 0b101 ∨ rm.toBits = 0b110 ∨ (rm.toBits = 0b111 ∧ 5 ≤ s.frm.toNat) := by
  cases rm with
  | dyn =>
    rw [State.roundingMode_dyn, RoundingMode.ofBits_eq_none_iff]
    simp [RmField.toBits]
  | rne | rtz | rdn | rup | rmm | rsv5 | rsv6 =>
    rw [State.roundingMode_static s (by decide), RoundingMode.ofBits_eq_none_iff]
    simp [RmField.toBits]

/-! ### Execution of an instruction with an "RM" field goes through the rounding gate -/

/-- Every instruction with an "RM" field is the rounding gate around some body, and the field it hands to the gate is its
own: whatever the body does, it runs only with a valid mode. -/
theorem exec_eq_whenRounding {i : Instr} {rm : RmField} (hrm : i.rmField? = some rm) (s : State) :
    ∃ body, exec i s = .next (s.whenRounding i rm body) := by
  cases i with
  | faddH | fsubH | fmulH | fdivH | fsqrtH | fmaddH | fmsubH | fnmsubH | fnmaddH
  | fcvtSH | fcvtHS | fcvtDH | fcvtHD | fcvtQH | fcvtHQ | fcvtWH | fcvtWUH | fcvtLH | fcvtLUH | fcvtHW | fcvtHWU
  | fcvtHL | fcvtHLU =>
    obtain rfl := Option.some.inj hrm
    exact ⟨_, rfl⟩
  | flh | fsh | fmvXH | fmvHX | fsgnjH | fsgnjnH | fsgnjxH | fminH | fmaxH | feqH | fltH | fleH | fclassH
  | lui | addi | add | beq | bne | jal | csrrw | csrrs | csrrc | csrrwi | csrrsi | csrrci | ecall | ebreak | mret =>
    cases hrm

/-- R117: `RM(inst)` raises where the field and `frm` give no rounding mode. -/
theorem exec_illegal_of_roundingMode_none {i : Instr} {rm : RmField} {s : State} (hrm : i.rmField? = some rm)
    (hnone : s.roundingMode rm = none) : exec i s = .next (s.illegal i) := by
  obtain ⟨body, hbody⟩ := exec_eq_whenRounding hrm s
  rw [hbody, State.whenRounding_invalid hnone]

/-- Settles O17: an invalid `rm` field gives no rounding mode, and the gate that every instruction with an "RM" field
passes turns it down. -/
theorem invalidRoundingModesRaise : Obligations.InvalidRoundingModesRaise := by
  unfold Obligations.InvalidRoundingModesRaise
  intro i rm s hrm hinvalid
  exact exec_illegal_of_roundingMode_none hrm ((s.roundingMode_eq_none_iff rm).2 hinvalid)

end Sys2Proof.Machine
end

section
/-! PROOFS. 40_numerics.md, the rules on operands: the unit switched off (R116) and NaN boxing (R113 to R115). -/

namespace Sys2Proof.Machine

/-- Settles O16: an instruction of the extension is behind the gate, and the gate is shut where `FS` = 0. -/
theorem floatingPointOffRaises : Obligations.FloatingPointOffRaises := by
  unfold Obligations.FloatingPointOffRaises
  intro i s hz hoff
  have notEnabled : ¬ Enabled s i := fun ⟨_, hon⟩ => hon hoff
  exact exec_illegal_of_not_enabled hz notEnabled

/-! ### Boxing and unboxing (R113, R114) -/

/-- The box check of `unbox`, bit by bit. -/
theorem isBoxed_iff (p : Params) (F : Format) (v : FWord) :
    v.extractLsb' F.width (p.flen - F.width) = BitVec.allOnes (p.flen - F.width) ↔
      ∀ k, F.width ≤ k → k < p.flen → v.getLsbD k = true := by
  constructor
  · intro h k hlo hhi
    have hk : k - F.width < p.flen - F.width := by omega
    have hbit := congrArg (·.getLsbD (k - F.width)) h
    simpa [BitVec.getLsbD_extractLsb', hk, Nat.add_sub_cancel' hlo] using hbit
  · intro h
    apply BitVec.eq_of_getLsbD_eq
    intro i hi
    simp [hi, h (F.width + i) (by omega) (by omega)]

/-- A register whose bits above the format are all ones holds its low bits. -/
theorem unbox_of_ones {p : Params} {F : Format} {v : FWord}
    (h : ∀ k, F.width ≤ k → k < p.flen → v.getLsbD k = true) :
    unbox p F v = v.setWidth F.width := if_pos ((isBoxed_iff p F v).2 h)

/-- A register with a zero among the bits above the format is read as the canonical NaN. -/
theorem unbox_of_zero {p : Params} {F : Format} {v : FWord}
    (h : ∃ k, F.width ≤ k ∧ k < p.flen ∧ v.getLsbD k = false) : unbox p F v = Fp.cNaN F := by
  obtain ⟨k, hlo, hhi, hbit⟩ := h
  refine if_neg fun hboxed => ?_
  simp [(isBoxed_iff p F v).1 hboxed k hlo hhi] at hbit

section
variable {p : Params} {F : Format}

theorem box_setWidth (hF : F.width ≤ p.flen) (v : Fp.Bits F) : (box p F v).setWidth F.width = v := by
  apply BitVec.eq_of_getLsbD_eq
  intro i hi
  simp [box_getLsbD p F v hF, hi]

theorem box_low (hF : F.width ≤ p.flen) (v : Fp.Bits F) : (box p F v).extractLsb' 0 F.width = v := by
  calc (box p F v).extractLsb' 0 F.width = (box p F v).setWidth F.width := by ext i hi; simp
    _ = v := box_setWidth hF v

theorem box_getLsbD_above (hF : F.width ≤ p.flen) (v : Fp.Bits F) {k : Nat} (hk : F.width ≤ k) :
    (box p F v).getLsbD k = decide (k < p.flen) := by
  rw [box_getLsbD p F v hF, if_neg (by omega)]

theorem unbox_box (hF : F.width ≤ p.flen) (v : Fp.Bits F) : unbox p F (box p F v) = v := by
  rw [unbox_of_ones fun k hlo hhi => by simp [box_getLsbD_above hF v hlo, hhi], box_setWidth hF]

end

/-- Settles O57: the image of a value bit by bit, and the box check bit by bit. -/
theorem boxingRules : Obligations.BoxingRules := by
  unfold Obligations.BoxingRules
  refine ⟨fun p => ?_, fun _ _ _ => rfl, fun p F hF =>
    ⟨fun v => ⟨box_low hF v, fun k => box_getLsbD_above hF v, unbox_box hF v⟩,
      fun v => ⟨unbox_of_ones, unbox_of_zero⟩⟩⟩
  cases h : p.fp <;> simp [Params.flen, h]

end Sys2Proof.Machine
end

section
/-! PROOFS. 40_numerics.md, rounding: `RoundInt` (R119), `Round_F` (R120, R122) and overflow (R121) of the real number
that a magnitude stands for. -/

namespace Sys2Proof.Machine

/-! ### The numbers of a format (R110) -/

theorem Format.emax_add_bias (F : Format) : F.emax + F.bias + 2 = (2 ^ F.expBits : ℕ) := by cases F <;> rfl

theorem Format.emin_add_bias (F : Format) : F.emin + F.bias = 1 := by simp [Format.emin]

theorem Format.emin_le_emax (F : Format) : F.emin ≤ F.emax := by cases F <;> decide

namespace Fp

/-! ### Rounding to an integer (R119) -/

section
variable {x : ℝ} {sp : Split}

theorem IsSplit.floor_bounds (h : IsSplit x sp) : (sp.whole : ℝ) ≤ x ∧ x < sp.whole + 1 := by
  obtain ⟨whole, rest⟩ := sp
  cases rest with
  | zero | half => rw [IsSplit] at h; constructor <;> linarith
  | belowHalf | aboveHalf => obtain ⟨hlo, hhi⟩ := h; constructor <;> linarith

theorem IsSplit.aboveHalf_iff (h : IsSplit x sp) : sp.rest = .aboveHalf ↔ 1 / 2 < x - sp.whole := by
  obtain ⟨whole, rest⟩ := sp
  cases rest with
  | zero | half => rw [IsSplit] at h; exact iff_of_false Rest.noConfusion (by linarith)
  | belowHalf => obtain ⟨-, hhi⟩ := h; exact iff_of_false Rest.noConfusion (by linarith)
  | aboveHalf => obtain ⟨hlo, -⟩ := h; exact iff_of_true rfl (by linarith)

theorem IsSplit.half_iff (h : IsSplit x sp) : sp.rest = .half ↔ x - sp.whole = 1 / 2 := by
  obtain ⟨whole, rest⟩ := sp
  cases rest with
  | zero => rw [IsSplit] at h; exact iff_of_false Rest.noConfusion (by linarith)
  | half => rw [IsSplit] at h; exact iff_of_true rfl (by linarith)
  | belowHalf | aboveHalf => obtain ⟨hlo, hhi⟩ := h; exact iff_of_false Rest.noConfusion (by linarith)

theorem IsSplit.ne_zero_iff (h : IsSplit x sp) : sp.rest ≠ .zero ↔ 0 < x - sp.whole := by
  have hlo : (sp.whole : ℝ) ≤ x := h.floor_bounds.1
  rw [Ne, h.rest_zero_iff, sub_pos, lt_iff_le_and_ne, ne_comm]
  exact (and_iff_right hlo).symm

/-- The rest of an integer is zero. -/
theorem IsSplit.rest_zero_of_eq_natCast (h : IsSplit x sp) {k : ℕ} (hk : x = k) : sp.rest = .zero := by
  obtain ⟨hlo, hhi⟩ := h.floor_bounds
  rw [hk] at hlo hhi
  have hle : sp.whole ≤ k := by exact_mod_cast hlo
  have hlt : k < sp.whole + 1 := by exact_mod_cast hhi
  obtain rfl : k = sp.whole := by omega
  exact h.rest_zero_iff.2 hk

/-- The place of the rest is all that the table of R119 asks of a number. -/
theorem roundsUp_iff (h : IsSplit x sp) (rm : RoundingMode) (s : Bool) :
    roundsUp rm s sp = true ↔ RoundsUp rm s sp.whole (x - sp.whole) := by
  cases rm with
  | RNE => simp [roundsUp, RoundsUp, h.aboveHalf_iff, h.half_iff]
  | RTZ => simp [roundsUp, RoundsUp]
  | RDN | RUP => simp [roundsUp, RoundsUp, ← h.ne_zero_iff]
  | RMM =>
    rw [RoundsUp, le_iff_eq_or_lt, eq_comm (a := (1 : ℝ) / 2), ← h.aboveHalf_iff, ← h.half_iff]
    simp [roundsUp]

theorem IsSplit.isRoundInt (h : IsSplit x sp) (rm : RoundingMode) (s : Bool) :
    IsRoundInt rm s x (roundInt rm s sp) := by
  obtain ⟨hlo, hhi⟩ := h.floor_bounds
  refine ⟨sp.whole, hlo, hhi, ?_⟩
  rw [← roundsUp_iff h rm s]
  by_cases hup : roundsUp rm s sp = true <;> simp [roundInt, hup]

end

theorem Magnitude.isRoundInt_split {m : Magnitude} {x : ℝ} (h : m.IsValue x) (rm : RoundingMode) (s : Bool) (q : ℤ) :
    IsRoundInt rm s (x / 2 ^ q) (roundInt rm s (m.split q)) :=
  (Magnitude.isSplit_split h q).isRoundInt rm s

/-- Settles O49: the split of a magnitude tells the floor and the place of the rest of the real number. -/
theorem roundIntFollowsTable : Obligations.RoundIntFollowsTable := by
  unfold Obligations.RoundIntFollowsTable
  intro rm s m q x hx
  exact Magnitude.isRoundInt_split hx rm s q

/-- The numbers that rounding does not change are the integers. -/
theorem IsSplit.rest_zero_iff_roundInt {x : ℝ} {sp : Split} (h : IsSplit x sp) (rm : RoundingMode) (s : Bool) :
    sp.rest = .zero ↔ x = roundInt rm s sp := by
  refine ⟨fun hz => ?_, h.rest_zero_of_eq_natCast⟩
  have hdown : roundsUp rm s sp = false := by cases rm <;> simp [roundsUp, hz]
  simpa [roundInt, hdown] using h.rest_zero_iff.1 hz

/-! ### The steps of `Round_F` (R120) -/

/-- The integer of step 1, rounded as if the exponent range were unbounded. -/
def roundUnbounded (F : Format) (rm : RoundingMode) (s : Bool) (m : Magnitude) : Nat :=
  roundInt rm s (m.split (m.floorLog2 - F.fracBits))

/-- The exponent of the quantum that the format has at the size of the magnitude: `q` of step 3. -/
def quantumExp (F : Format) (m : Magnitude) : Int := max m.floorLog2 F.emin - F.fracBits

/-- Step 2: the unboundedly rounded magnitude is out of the format's range. -/
def Overflows (F : Format) (rm : RoundingMode) (s : Bool) (m : Magnitude) : Prop :=
  (2 : ℝ) ^ (F.emax + 1) ≤ roundUnbounded F rm s m * (2 : ℝ) ^ (m.floorLog2 - F.fracBits)

/-- R122: the unboundedly rounded magnitude is below the least normal number. -/
def isTiny (F : Format) (rm : RoundingMode) (s : Bool) (m : Magnitude) : Bool :=
  belowPow2 (roundUnbounded F rm s m) (m.floorLog2 - F.fracBits) F.emin

/-- The rounding of step 3 is not exact. -/
def isInexact (F : Format) (m : Magnitude) : Bool := (m.split (quantumExp F m)).rest != .zero

section
variable {F : Format} {rm : RoundingMode} {s : Bool} {m : Magnitude} {x : ℝ}

theorem belowPow2_emax_iff :
    belowPow2 (roundUnbounded F rm s m) (m.floorLog2 - F.fracBits) (F.emax + 1) = true ↔ ¬ Overflows F rm s m := by
  rw [belowPow2_iff, Overflows, not_le]

theorem round_of_overflows (h : Overflows F rm s m) : round F rm s m = (overflow F rm s, flagOF ||| flagNX) :=
  if_pos (by
    rw [Bool.not_eq_true', ← Bool.not_eq_true]
    exact fun hbelow => belowPow2_emax_iff.1 hbelow h)

theorem round_of_not_overflows (h : ¬ Overflows F rm s m) :
    round F rm s m =
      (encodeRounded F s (roundInt rm s (m.split (quantumExp F m))) (quantumExp F m),
        flagIf (isInexact F m) flagNX ||| flagIf (isTiny F rm s m && isInexact F m) flagUF) :=
  if_neg (by
    rw [Bool.not_eq_true', Bool.not_eq_false]
    exact belowPow2_emax_iff.2 h)

theorem isTiny_iff :
    isTiny F rm s m = true ↔ roundUnbounded F rm s m * (2 : ℝ) ^ (m.floorLog2 - F.fracBits) < (2 : ℝ) ^ F.emin :=
  belowPow2_iff ..

theorem isInexact_iff (hx : m.IsValue x) :
    isInexact F m = true ↔ (roundInt rm s (m.split (quantumExp F m)) : ℝ) * 2 ^ quantumExp F m ≠ x := by
  have hsplit := Magnitude.isSplit_split hx (quantumExp F m)
  rw [isInexact, bne_iff_ne, Ne, hsplit.rest_zero_iff_roundInt rm s, div_eq_iff (by positivity), eq_comm]

/-- A magnitude between two powers of two is rounded to an integer between them, in units of the quantum. -/
theorem roundInt_split_bounds (hx : m.IsValue x) (rm : RoundingMode) (s : Bool) {q : ℤ} {a b : ℕ}
    (hlo : (a : ℝ) * 2 ^ q ≤ x) (hhi : x < b * 2 ^ q) :
    a ≤ roundInt rm s (m.split q) ∧ roundInt rm s (m.split q) ≤ b := by
  have hq : (0 : ℝ) < 2 ^ q := by positivity
  exact isRoundInt_bounds (Magnitude.isRoundInt_split hx rm s q) ((le_div_iff₀ hq).2 hlo) ((div_lt_iff₀ hq).2 hhi)

theorem two_pow_mul_zpow (n : ℕ) (k : ℤ) : ((2 ^ n : ℕ) : ℝ) * 2 ^ (k - n) = 2 ^ k := by
  rw [zpow_sub₀ two_ne_zero, zpow_natCast]
  push_cast
  field_simp

/-- Step 1 keeps the magnitude between the powers of two around it. -/
theorem roundUnbounded_bounds (hx : m.IsValue x) (hpos : 0 < x) :
    2 ^ F.fracBits ≤ roundUnbounded F rm s m ∧ roundUnbounded F rm s m ≤ 2 ^ (F.fracBits + 1) := by
  obtain ⟨hlo, hhi⟩ := floorLog2_spec hx hpos
  apply roundInt_split_bounds hx
  · rwa [two_pow_mul_zpow]
  · rwa [show m.floorLog2 - F.fracBits = m.floorLog2 + 1 - (F.fracBits + 1 : ℕ) by push_cast; ring, two_pow_mul_zpow]

theorem zpow_floorLog2_le_roundUnbounded (hx : m.IsValue x) (hpos : 0 < x) :
    (2 : ℝ) ^ m.floorLog2 ≤ roundUnbounded F rm s m * (2 : ℝ) ^ (m.floorLog2 - F.fracBits) := by
  have hlo : 2 ^ F.fracBits ≤ roundUnbounded F rm s m := (roundUnbounded_bounds hx hpos).1
  rw [← two_pow_mul_zpow F.fracBits m.floorLog2]
  gcongr

theorem roundUnbounded_le_zpow_floorLog2 (hx : m.IsValue x) (hpos : 0 < x) :
    roundUnbounded F rm s m * (2 : ℝ) ^ (m.floorLog2 - F.fracBits) ≤ 2 ^ (m.floorLog2 + 1) := by
  have hhi : roundUnbounded F rm s m ≤ 2 ^ (F.fracBits + 1) := (roundUnbounded_bounds hx hpos).2
  rw [← two_pow_mul_zpow (F.fracBits + 1) (m.floorLog2 + 1),
    show m.floorLog2 + 1 - (F.fracBits + 1 : ℕ) = m.floorLog2 - F.fracBits by push_cast; ring]
  gcongr

theorem floorLog2_le_emax (hx : m.IsValue x) (hpos : 0 < x) (h : ¬ Overflows F rm s m) : m.floorLog2 ≤ F.emax := by
  by_contra hlarge
  apply h
  calc (2 : ℝ) ^ (F.emax + 1) ≤ 2 ^ m.floorLog2 := zpow_le_zpow_right₀ one_le_two (by omega)
    _ ≤ _ := zpow_floorLog2_le_roundUnbounded hx hpos

/-- Step 3 gives at most `2^(t+1)`. -/
theorem roundInt_quantum_le (hx : m.IsValue x) (hpos : 0 < x) :
    roundInt rm s (m.split (quantumExp F m)) ≤ 2 ^ (F.fracBits + 1) := by
  refine (roundInt_split_bounds (a := 0) hx rm s (by simpa using hpos.le) ?_).2
  calc x < 2 ^ (m.floorLog2 + 1) := (floorLog2_spec hx hpos).2
    _ ≤ 2 ^ (max m.floorLog2 F.emin + 1) := zpow_le_zpow_right₀ one_le_two (by omega)
    _ = (2 ^ (F.fracBits + 1) : ℕ) * 2 ^ quantumExp F m := by
      rw [← two_pow_mul_zpow (F.fracBits + 1), quantumExp]
      congr 2
      push_cast
      ring

end

/-- Step 4: the fields of the encoded number. -/
theorem encodeRounded_fields (F : Format) (s : Bool) {r : ℕ} {q : ℤ} (hr : r ≤ 2 ^ (F.fracBits + 1))
    (hq : q + F.fracBits ≤ F.emax) :
    (r < 2 ^ F.fracBits → HasFields F (encodeRounded F s r q) s 0 r) ∧
    (2 ^ F.fracBits ≤ r → r < 2 ^ (F.fracBits + 1) →
      HasFields F (encodeRounded F s r q) s (q + F.fracBits + F.bias).toNat (r - 2 ^ F.fracBits)) ∧
    (2 ^ (F.fracBits + 1) ≤ r → r = 2 ^ (F.fracBits + 1) ∧
      HasFields F (encodeRounded F s r q) s (q + 1 + F.fracBits + F.bias).toNat 0) := by
  have hE := F.emax_add_bias
  have hpos : 0 < 2 ^ F.expBits := by positivity
  have hpow : 2 ^ (F.fracBits + 1) = 2 * 2 ^ F.fracBits := by ring
  refine ⟨fun hsub => ?_, fun hlo hhi => ?_, fun hge => ?_⟩
  · rw [encodeRounded, if_pos hsub]
    exact pack_fields F s hpos hsub
  · rw [encodeRounded, if_neg (by omega), if_neg (by omega)]
    exact pack_fields F s (by omega) (by omega)
  · obtain rfl : r = 2 ^ (F.fracBits + 1) := by omega
    rw [encodeRounded, if_neg (by omega), if_pos rfl]
    exact ⟨rfl, pack_fields F s (by omega) (by positivity)⟩

/-- What `Fp.round` computes of a positive real number. -/
theorem round_isRounded {m : Magnitude} {x : ℝ} (F : Format) (rm : RoundingMode) (s : Bool) (hx : m.IsValue x)
    (hpos : 0 < x) : IsRounded F rm s x (round F rm s m) := by
  obtain ⟨hlo, hhi⟩ := floorLog2_spec hx hpos
  refine ⟨m.floorLog2, roundUnbounded F rm s m, hlo, hhi, Magnitude.isRoundInt_split hx rm s _, round_of_overflows,
    fun hbelow => ?_⟩
  have hno : ¬ Overflows F rm s m := not_le.2 hbelow
  have hq : quantumExp F m + F.fracBits ≤ F.emax := by
    have := floorLog2_le_emax hx hpos hno
    have := F.emin_le_emax
    unfold quantumExp
    omega
  rw [round_of_not_overflows hno]
  exact ⟨quantumExp F m, roundInt rm s (m.split (quantumExp F m)), isTiny F rm s m, isInexact F m, rfl,
    Magnitude.isRoundInt_split hx rm s _, isTiny_iff, isInexact_iff hx, rfl,
    encodeRounded_fields F s (roundInt_quantum_le hx hpos) hq⟩

/-- Settles O50: the branches of `Fp.round` are the steps of `Round_F`. -/
theorem roundFollowsProcedure : Obligations.RoundFollowsProcedure := by
  unfold Obligations.RoundFollowsProcedure
  intro F rm s m x hx hpos
  exact round_isRounded F rm s hx hpos

end Fp

end Sys2Proof.Machine
end

section
/-! PROOFS. 40_numerics.md, rounding: when `Round_F` sets OF and UF (R120 to R122), and the results of an overflow
(R121). -/

namespace Sys2Proof.Machine.Fp

/-! ### The results of an overflow (R121) -/

theorem inf_fields (F : Format) (s : Bool) : HasFields F (inf F s) s (2 ^ F.expBits - 1) 0 := by
  have hpos : 0 < 2 ^ F.expBits := by positivity
  exact pack_fields F s (by unfold expOnes; omega) (by positivity)

theorem maxFinite_fields (F : Format) (s : Bool) :
    HasFields F (maxFinite F s) s (2 ^ F.expBits - 2) (2 ^ F.fracBits - 1) := by
  have hE : 0 < 2 ^ F.expBits := by positivity
  have hT : 0 < 2 ^ F.fracBits := by positivity
  exact pack_fields F s (by unfold expOnes; omega) (by omega)

/-! ### When OF and UF are set -/

section
variable {F : Format} {rm : RoundingMode} {s : Bool} {m : Magnitude} {x : ℝ}

theorem round_flagOF_iff : (round F rm s m).2 &&& flagOF ≠ 0 ↔ Overflows F rm s m := by
  by_cases h : Overflows F rm s m
  · simp only [round_of_overflows h, h, iff_true]
    decide
  · simp only [round_of_not_overflows h, h, iff_false, not_not]
    cases isInexact F m <;> cases isTiny F rm s m <;> rfl

/-- UF takes a result that is both tiny and inexact. -/
theorem round_flagUF_eq_zero (h : isTiny F rm s m = false ∨ isInexact F m = false) :
    (round F rm s m).2 &&& flagUF = 0 := by
  by_cases hover : Overflows F rm s m
  · simp only [round_of_overflows hover]
    rfl
  · have hnot : (isTiny F rm s m && isInexact F m) = false := by simpa [or_iff_not_imp_left] using h
    simp only [round_of_not_overflows hover, hnot]
    cases isInexact F m <;> rfl

/-- A magnitude below the greatest power of two of the format does not overflow, however it is rounded. -/
theorem not_overflows_of_lt (hx : m.IsValue x) (hpos : 0 < x) (h : x < 2 ^ F.emax) : ¬ Overflows F rm s m := by
  have hlog : m.floorLog2 < F.emax :=
    (zpow_lt_zpow_iff_right₀ one_lt_two).1 ((floorLog2_spec hx hpos).1.trans_lt h)
  refine not_le.2 ?_
  calc _ ≤ (2 : ℝ) ^ (m.floorLog2 + 1) := roundUnbounded_le_zpow_floorLog2 hx hpos
    _ < 2 ^ (F.emax + 1) := zpow_lt_zpow_right₀ one_lt_two (by omega)

theorem overflows_of_ge (hx : m.IsValue x) (hpos : 0 < x) (h : (2 : ℝ) ^ (F.emax + 1) ≤ x) : Overflows F rm s m := by
  have hlog : F.emax + 1 < m.floorLog2 + 1 :=
    (zpow_lt_zpow_iff_right₀ one_lt_two).1 (h.trans_lt (floorLog2_spec hx hpos).2)
  calc (2 : ℝ) ^ (F.emax + 1) ≤ 2 ^ m.floorLog2 := zpow_le_zpow_right₀ one_le_two (by omega)
    _ ≤ _ := zpow_floorLog2_le_roundUnbounded hx hpos

/-- A magnitude of the size of a normal number is not tiny. -/
theorem not_isTiny_of_le (hx : m.IsValue x) (hpos : 0 < x) (h : (2 : ℝ) ^ F.emin ≤ x) : isTiny F rm s m = false := by
  have hlog : F.emin < m.floorLog2 + 1 :=
    (zpow_lt_zpow_iff_right₀ one_lt_two).1 (h.trans_lt (floorLog2_spec hx hpos).2)
  rw [← Bool.not_eq_true, isTiny_iff, not_lt]
  calc (2 : ℝ) ^ F.emin ≤ 2 ^ m.floorLog2 := zpow_le_zpow_right₀ one_le_two (by omega)
    _ ≤ _ := zpow_floorLog2_le_roundUnbounded hx hpos

end

/-! ### Overflow in half precision (R121) -/

section
variable {rm : RoundingMode} {s : Bool} {m : Magnitude} {x : ℝ}

theorem two_zpow_emax_H : (2 : ℝ) ^ Format.emax .H = 32768 := by
  rw [show Format.emax .H = (15 : ℕ) by rfl, zpow_natCast]
  norm_num

theorem two_zpow_emax_succ_H : (2 : ℝ) ^ (Format.emax .H + 1) = 65536 := by
  rw [show Format.emax .H + 1 = (16 : ℕ) by rfl, zpow_natCast]
  norm_num

/-- The last binade of half precision has the quantum 32. -/
theorem two_zpow_quantum_H (h : m.floorLog2 = 15) : (2 : ℝ) ^ (m.floorLog2 - Format.fracBits .H) = 32 := by
  rw [h, show (15 : ℤ) - Format.fracBits .H = (5 : ℕ) by rfl, zpow_natCast]
  norm_num

theorem floorLog2_of_last_binade_H (hx : m.IsValue x) (hlo : 32768 ≤ x) (hhi : x < 65536) : m.floorLog2 = 15 := by
  obtain ⟨hle, hlt⟩ := floorLog2_spec hx (by linarith)
  rw [← two_zpow_emax_H] at hlo
  rw [← two_zpow_emax_succ_H] at hhi
  have hupper : m.floorLog2 < 16 := (zpow_lt_zpow_iff_right₀ one_lt_two).1 (hle.trans_lt hhi)
  have hlower : 15 < m.floorLog2 + 1 := (zpow_lt_zpow_iff_right₀ one_lt_two).1 (hlo.trans_lt hlt)
  omega

/-- In the last binade of half precision a number overflows exactly when it is rounded up from 2047. -/
theorem overflows_H_iff_roundsUp (hx : m.IsValue x) (hlo : 32768 ≤ x) (hhi : x < 65536) :
    Overflows .H rm s m ↔ 2047 ≤ x / 32 ∧ RoundsUp rm s 2047 (x / 32 - 2047) := by
  have hlog : m.floorLog2 = 15 := floorLog2_of_last_binade_H hx hlo hhi
  have hover : Overflows .H rm s m ↔ 2048 ≤ roundUnbounded .H rm s m := by
    rw [Overflows, two_zpow_quantum_H hlog, two_zpow_emax_succ_H, ← Nat.cast_le (α := ℝ)]
    constructor <;> intro h <;> push_cast at h ⊢ <;> linarith
  obtain ⟨n, hfloor, hceil, hround⟩ : IsRoundInt rm s (x / 32) (roundUnbounded .H rm s m) := by
    rw [← two_zpow_quantum_H hlog]
    exact Magnitude.isRoundInt_split hx rm s _
  have hn : n < 2048 := by
    have : (n : ℝ) < (2048 : ℕ) := by push_cast; linarith
    exact_mod_cast this
  rw [hover]
  constructor
  · intro hge
    obtain ⟨hup, hk⟩ | ⟨-, hk⟩ := hround
    · obtain rfl : n = 2047 := by omega
      exact ⟨by exact_mod_cast hfloor, by exact_mod_cast hup⟩
    · omega
  · rintro ⟨hge, hup⟩
    obtain rfl : n = 2047 := by
      have : ((2047 : ℕ) : ℝ) < n + 1 := by push_cast; linarith
      have : 2047 < n + 1 := by exact_mod_cast this
      omega
    obtain ⟨-, hk⟩ | ⟨hdown, -⟩ := hround
    · omega
    · exact absurd (by exact_mod_cast hup) hdown

/-- Half precision overflows from 65536 on and not below 32768; between them the last binade decides. -/
theorem overflows_H_iff (hx : m.IsValue x) (hpos : 0 < x) {limit : ℝ} (hlo : 32768 ≤ limit) (hhi : limit ≤ 65536)
    (hlast : 32768 ≤ x → x < 65536 → (2047 ≤ x / 32 ∧ RoundsUp rm s 2047 (x / 32 - 2047) ↔ limit ≤ x)) :
    Overflows .H rm s m ↔ limit ≤ x := by
  rcases lt_or_ge x 32768 with hsmall | hge
  · exact iff_of_false (not_overflows_of_lt hx hpos (by rwa [two_zpow_emax_H])) (by linarith)
  rcases lt_or_ge x 65536 with hlt | hlarge
  · rw [overflows_H_iff_roundsUp hx hge hlt, hlast hge hlt]
  · exact iff_of_true (overflows_of_ge hx hpos (by rwa [two_zpow_emax_succ_H])) (hhi.trans hlarge)

theorem roundsUp_2047_iff (hrm : rm = .RNE ∨ rm = .RMM) (r : ℝ) : RoundsUp rm s 2047 r ↔ 1 / 2 ≤ r := by
  obtain rfl | rfl := hrm
  · simp [RoundsUp, le_iff_eq_or_lt, or_comm, eq_comm]
  · rfl

theorem overflows_H_nearest (hx : m.IsValue x) (hpos : 0 < x) (hrm : rm = .RNE ∨ rm = .RMM) :
    Overflows .H rm s m ↔ 65520 ≤ x := by
  refine overflows_H_iff hx hpos (by norm_num) (by norm_num) fun _ _ => ?_
  rw [roundsUp_2047_iff hrm]
  constructor
  · rintro ⟨-, hhalf⟩
    linarith
  · intro h
    constructor <;> linarith

theorem overflows_H_RTZ (hx : m.IsValue x) (hpos : 0 < x) : Overflows .H .RTZ s m ↔ 65536 ≤ x :=
  overflows_H_iff hx hpos (by norm_num) le_rfl fun _ hlt => iff_of_false (fun ⟨_, hup⟩ => hup) (not_le.2 hlt)

end

/-- Settles O51: OF is set exactly where the unboundedly rounded magnitude is out of range, and in the last binade of half
precision that takes a rounding up from 2047 units of 32. -/
theorem overflowFollowsTable : Obligations.OverflowFollowsTable := by
  unfold Obligations.OverflowFollowsTable
  refine ⟨fun F s => ⟨inf_fields F s, maxFinite_fields F s, rfl, rfl, by cases s <;> rfl, by cases s <;> rfl, rfl⟩,
    by decide, fun rm s m x hx hpos => ?_⟩
  obtain ⟨hlo, hhi⟩ := floorLog2_spec hx hpos
  refine ⟨fun hof => round_of_overflows (round_flagOF_iff.1 hof),
    ⟨m.floorLog2, roundUnbounded .H rm s m, hlo, hhi, Magnitude.isRoundInt_split hx rm s _, ?_⟩,
    fun hrm => round_flagOF_iff.trans (overflows_H_nearest hx hpos hrm), ?_⟩
  · rw [round_flagOF_iff, Overflows, two_zpow_emax_succ_H]
    rfl
  · rintro rfl
    exact round_flagOF_iff.trans (overflows_H_RTZ hx hpos)

end Sys2Proof.Machine.Fp
end

section
/-! PROOFS. 40_numerics.md, arithmetic: addition, multiplication, division, square root and the fused multiply-add (R123
to R129), over rational and real numbers. -/

namespace Sys2Proof.Machine

theorem Format.one_le_emax (F : Format) : 1 ≤ F.emax := by cases F <;> decide

theorem Format.emin_add_fracBits_nonpos (F : Format) : F.emin + F.fracBits ≤ 0 := by cases F <;> decide

namespace Fp

/-! ### The value of a pattern (R111) -/

section
variable {F : Format} {a : Bits F}

theorem val_of_expField_zero (h : expField F a = 0) :
    (val F a).num.natAbs = fracField F a ∧ (val F a).exp = F.emin - F.fracBits := by
  unfold val
  rw [if_pos h]
  cases sign F a with
  | false => exact ⟨Int.natAbs_natCast _, rfl⟩
  | true => exact ⟨(Int.natAbs_neg _).trans (Int.natAbs_natCast _), rfl⟩

theorem val_of_expField_ne_zero (h : expField F a ≠ 0) :
    (val F a).num.natAbs = 2 ^ F.fracBits + fracField F a ∧
      (val F a).exp = expField F a - F.bias - F.fracBits := by
  unfold val
  rw [if_neg h]
  cases sign F a with
  | false => exact ⟨Int.natAbs_natCast _, rfl⟩
  | true => exact ⟨(Int.natAbs_neg _).trans (Int.natAbs_natCast _), rfl⟩

theorem isZero_iff : isZero F a = true ↔ expField F a = 0 ∧ fracField F a = 0 := by simp [isZero]

theorem val_num_eq_zero_iff : (val F a).num = 0 ↔ isZero F a = true := by
  have hpos : 0 < 2 ^ F.fracBits := by positivity
  rw [← Int.natAbs_eq_zero, isZero_iff]
  by_cases hE : expField F a = 0
  · simp [val_of_expField_zero hE, hE]
  · rw [(val_of_expField_ne_zero hE).1]
    exact iff_of_false (by omega) (fun h => hE h.1)

theorem valQ_eq_zero_iff : valQ F a = 0 ↔ isZero F a = true :=
  (Scaled.toRat_eq_zero _).trans val_num_eq_zero_iff

theorem valQ_nonneg_of_sign (h : ¬ sign F a = true) : 0 ≤ valQ F a := by
  have hnum : 0 ≤ (val F a).num := by
    unfold val
    rw [if_neg h]
    split <;> exact Int.natCast_nonneg _
  exact mul_nonneg (by exact_mod_cast hnum) (by positivity)

/-- A value is a multiple of the quantum of the subnormal numbers. -/
theorem emin_sub_fracBits_le_val_exp : F.emin - F.fracBits ≤ (val F a).exp := by
  by_cases hE : expField F a = 0
  · exact (val_of_expField_zero hE).2.ge
  · have hsum := F.emin_add_bias
    rw [(val_of_expField_ne_zero hE).2]
    omega

theorem expField_lt : expField F a < 2 ^ F.expBits := BitVec.isLt _

theorem fracField_lt : fracField F a < 2 ^ F.fracBits := BitVec.isLt _

theorem expField_ne_expOnes (hnan : ¬ isNaN F a = true) (hinf : ¬ isInf F a = true) : expField F a ≠ expOnes F := by
  intro hE
  by_cases hT : fracField F a = 0
  · exact hinf (by simp [isInf, hE, hT])
  · exact hnan (by simp [isNaN, hE, hT])

theorem Scaled.abs_toRat (v : Scaled) : |v.toRat| = v.num.natAbs * 2 ^ v.exp := by
  rw [Scaled.toRat, abs_mul, abs_of_pos (show (0 : ℚ) < 2 ^ v.exp by positivity), Nat.cast_natAbs, Int.cast_abs]

/-- The least positive number of a format bounds every value but zero. -/
theorem le_abs_valQ (h : ¬ isZero F a = true) : (2 : ℚ) ^ (F.emin - F.fracBits) ≤ |valQ F a| := by
  have hnum : 1 ≤ (val F a).num.natAbs := Int.natAbs_pos.2 (mt val_num_eq_zero_iff.1 h)
  rw [valQ, Scaled.abs_toRat]
  calc (2 : ℚ) ^ (F.emin - F.fracBits) ≤ 2 ^ (val F a).exp :=
        zpow_le_zpow_right₀ one_le_two emin_sub_fracBits_le_val_exp
    _ ≤ (val F a).num.natAbs * 2 ^ (val F a).exp := le_mul_of_one_le_left (by positivity) (by exact_mod_cast hnum)

theorem val_exp_le (hE : expField F a ≠ expOnes F) : (val F a).exp ≤ F.emax - F.fracBits := by
  by_cases hzero : expField F a = 0
  · have hle := F.emin_le_emax
    rw [(val_of_expField_zero hzero).2]
    omega
  · have hsum := F.emax_add_bias
    have hlt := expField_lt (F := F) (a := a)
    rw [(val_of_expField_ne_zero hzero).2]
    unfold expOnes at hE
    omega

theorem val_num_lt : (val F a).num.natAbs < 2 ^ (F.fracBits + 1) := by
  have hT := fracField_lt (F := F) (a := a)
  by_cases hE : expField F a = 0
  · rw [(val_of_expField_zero hE).1]
    omega
  · rw [(val_of_expField_ne_zero hE).1]
    omega

theorem abs_valQ_lt (hnan : ¬ isNaN F a = true) (hinf : ¬ isInf F a = true) :
    |valQ F a| < (2 : ℚ) ^ (F.emax + 1) := by
  have hnum : ((val F a).num.natAbs : ℚ) < 2 ^ (F.fracBits + 1) := by exact_mod_cast val_num_lt
  have hexp := val_exp_le (expField_ne_expOnes hnan hinf)
  rw [valQ, Scaled.abs_toRat]
  calc (val F a).num.natAbs * (2 : ℚ) ^ (val F a).exp < 2 ^ (F.fracBits + 1) * 2 ^ (val F a).exp := by gcongr
    _ ≤ 2 ^ (F.fracBits + 1) * 2 ^ (F.emax - F.fracBits) := by gcongr; exact one_le_two
    _ = 2 ^ (F.emax + 1) := by
      rw [← zpow_natCast, ← zpow_add₀ two_ne_zero]
      congr 1
      push_cast
      ring

theorem isNaN_eq_isQNaN (h : ¬ isSNaN F a = true) : isNaN F a = isQNaN F a := by
  unfold isSNaN at h
  unfold isQNaN
  cases hn : isNaN F a <;> simp_all

end

/-! ### Magnitudes of exact results -/

theorem Scaled.quotient_isValue (v : Scaled) {u : Scaled} (hu : u.num ≠ 0) :
    (v.quotient u).IsValue ((|v.toRat| / |u.toRat| : ℚ) : ℝ) := by
  refine ⟨Int.natAbs_ne_zero.2 hu, ?_⟩
  rw [Scaled.abs_toRat, Scaled.abs_toRat, zpow_sub₀ two_ne_zero]
  push_cast
  ring

theorem Scaled.root_isValue {v : Scaled} (h : 0 ≤ v.toRat) :
    (Magnitude.root v.num.natAbs v.exp).IsValue (Real.sqrt (v.toRat : ℝ)) := by
  refine ⟨Real.sqrt_nonneg _, ?_⟩
  rw [Real.sq_sqrt (by exact_mod_cast h), ← abs_of_nonneg h, Scaled.abs_toRat]
  push_cast
  rfl

/-! ### Rounding exact results (R124, R130) -/

theorem flagNone_and (fl : FlagSet) : flagNone &&& fl = 0 := BitVec.zero_and

theorem nvIf_and {fl : FlagSet} (h : flagNV &&& fl = 0) (c : Bool) : nvIf c &&& fl = 0 := by
  cases c
  exacts [flagNone_and fl, h]

theorem rmZero_eq (F : Format) (rm : RoundingMode) :
    rmZero F rm = if rm = .RDN then zero F true else zero F false := by cases rm <;> rfl

/-- An exact number that is not zero, rounded. -/
theorem round_magnitude_isRounded (F : Format) (rm : RoundingMode) (s : Bool) {v : Scaled} (hv : v.num ≠ 0) :
    IsRounded F rm s ((|v.toRat| : ℚ) : ℝ) (round F rm s v.magnitude) :=
  round_isRounded F rm s v.magnitude_isValue (by exact_mod_cast abs_pos.2 (mt v.toRat_eq_zero.1 hv))

theorem roundSum_isRoundedSum (F : Format) (rm : RoundingMode) (v : Scaled) :
    IsRoundedSum F rm v.toRat (roundSum F rm v) := by
  constructor
  · intro hzero
    rw [roundSum, if_pos (v.toRat_eq_zero.1 hzero), rmZero_eq]
  · intro hne
    have hnum : v.num ≠ 0 := mt v.toRat_eq_zero.2 hne
    rw [roundSum, if_neg hnum, decide_eq_decide.2 v.toRat_neg]
    exact round_magnitude_isRounded F rm _ hnum

/-- A sum of multiples of the quantum of the subnormal numbers is exact wherever it is tiny, so it never underflows. -/
theorem roundSum_flagUF (F : Format) (rm : RoundingMode) {v : Scaled} (hexp : F.emin - F.fracBits ≤ v.exp) :
    (roundSum F rm v).2 &&& flagUF = 0 := by
  unfold roundSum
  split
  · exact flagNone_and flagUF
  next hnum =>
    have hpos : (0 : ℝ) < ((|v.toRat| : ℚ) : ℝ) := by exact_mod_cast abs_pos.2 (mt v.toRat_eq_zero.1 hnum)
    apply round_flagUF_eq_zero
    rcases le_or_gt F.emin v.magnitude.floorLog2 with hnormal | hsmall
    · left
      refine not_isTiny_of_le v.magnitude_isValue hpos (le_trans ?_ (floorLog2_spec v.magnitude_isValue hpos).1)
      exact zpow_le_zpow_right₀ one_le_two hnormal
    · right
      have hquantum : quantumExp F v.magnitude = F.emin - F.fracBits := by unfold quantumExp; omega
      have hinteger : ((|v.toRat| : ℚ) : ℝ) / 2 ^ quantumExp F v.magnitude =
          ((v.numAt (F.emin - F.fracBits)).natAbs : ℕ) := by
        rw [hquantum, div_eq_iff (by positivity), ← v.numAt_toRat hexp, abs_mul,
          abs_of_pos (show (0 : ℚ) < 2 ^ (F.emin - F.fracBits) by positivity), Nat.cast_natAbs]
        push_cast
        rfl
      have hrest := (Magnitude.isSplit_split v.magnitude_isValue _).rest_zero_of_eq_natCast hinteger
      simp [isInexact, hrest]

/-- A row of a table: where its condition holds the branch gives the row's entry `a'`, and else the rest of the branches
follow the rest of the rows. -/
theorem table_row {α : Type} {c Q : Prop} [Decidable c] {out a a' b : α} (ha : a = a') (hout : out = if c then a else b)
    (hrest : ¬ c → out = b → Q) : if c then out = a' else Q := by
  by_cases hc : c
  · rw [if_pos hc] at hout ⊢
    rw [hout, ha]
  · rw [if_neg hc] at hout ⊢
    exact hrest hc hout

/-! ### Addition and the fused multiply-add (R125, R129) -/

theorem add_flagUF (F : Format) (rm : RoundingMode) (x y : Bits F) : (add F rm x y).2 &&& flagUF = 0 := by
  have hexp : F.emin - F.fracBits ≤ ((val F x).add (val F y)).exp :=
    le_min emin_sub_fracBits_le_val_exp emin_sub_fracBits_le_val_exp
  unfold add
  split_ifs
  · exact nvIf_and (by decide) _
  · exact (by decide : flagNV &&& flagUF = 0)
  · exact flagNone_and flagUF
  · exact flagNone_and flagUF
  · exact flagNone_and flagUF
  · exact flagNone_and flagUF
  · exact roundSum_flagUF F rm hexp

/-- Settles O52: the branches of `Fp.add` are the rows of the table; a sum is a multiple of the quantum of the subnormal
numbers, so UF is never set, in any format. -/
theorem addFollowsTable : Obligations.AddFollowsTable := by
  unfold Obligations.AddFollowsTable
  refine ⟨fun F rm x y => ?_, fun _ _ _ _ => rfl,
    fun rm x y => ⟨add_flagUF .H rm x y, add_flagUF .H rm x (neg .H y)⟩, by decide⟩
  have hsum := roundSum_isRoundedSum F rm ((val F x).add (val F y))
  rw [Scaled.toRat_add] at hsum
  refine table_row rfl rfl fun _ h => table_row rfl h fun _ h => table_row rfl h fun _ h => table_row rfl h fun _ h =>
    table_row rfl h fun _ h => table_row (by rw [rmZero_eq]) h fun _ h => ?_
  rw [h]
  exact hsum

/-- Settles O55: the branches of `Fp.fma` are the rows of the table, and the exact product plus addend is rounded once. -/
theorem fusedFollowsTable : Obligations.FusedFollowsTable := by
  unfold Obligations.FusedFollowsTable
  intro F rm x y z
  have hsum := roundSum_isRoundedSum F rm (((val F x).mul (val F y)).add (val F z))
  rw [Scaled.toRat_add, Scaled.toRat_mul] at hsum
  refine table_row rfl rfl fun _ h => table_row rfl h fun _ h => table_row rfl h fun _ h => table_row rfl h fun _ h =>
    table_row rfl h fun _ h => table_row rfl h fun _ h => table_row (by rw [rmZero_eq]) h fun _ h => ?_
  rw [h]
  exact hsum

/-! ### Multiplication and division (R126, R127) -/

section
variable {F : Format} {x y : Bits F}

theorem mul_isRounded (rm : RoundingMode) (s : Bool) (hx : ¬ isZero F x = true) (hy : ¬ isZero F y = true) :
    IsRounded F rm s ((|valQ F x| * |valQ F y| : ℚ) : ℝ) (round F rm s ((val F x).mul (val F y)).magnitude) := by
  have hnum : ((val F x).mul (val F y)).num ≠ 0 :=
    mul_ne_zero (mt val_num_eq_zero_iff.1 hx) (mt val_num_eq_zero_iff.1 hy)
  have h := round_magnitude_isRounded F rm s hnum
  rwa [Scaled.toRat_mul, abs_mul] at h

theorem div_isRounded (rm : RoundingMode) (s : Bool) (hx : ¬ isZero F x = true) (hy : ¬ isZero F y = true) :
    IsRounded F rm s ((|valQ F x| / |valQ F y| : ℚ) : ℝ) (round F rm s ((val F x).quotient (val F y))) := by
  have hpos : 0 < |valQ F x| / |valQ F y| :=
    div_pos (abs_pos.2 (mt valQ_eq_zero_iff.1 hx)) (abs_pos.2 (mt valQ_eq_zero_iff.1 hy))
  exact round_isRounded F rm s ((val F x).quotient_isValue (mt val_num_eq_zero_iff.1 hy)) (by exact_mod_cast hpos)

end

/-- Settles O53: the branches of `Fp.mul` and `Fp.div` are the rows of the tables; in the last rows both operands are not
zero, and their exact product or quotient is rounded once. -/
theorem mulAndDivFollowTables : Obligations.MulAndDivFollowTables := by
  unfold Obligations.MulAndDivFollowTables
  intro F rm x y
  constructor
  · refine table_row rfl rfl fun _ h => table_row rfl h fun _ h => table_row rfl h fun _ h =>
      table_row rfl h fun hzero h => ?_
    rw [Bool.or_eq_true, not_or] at hzero
    obtain ⟨hx, hy⟩ := hzero
    rw [h]
    exact mul_isRounded rm _ hx hy
  · refine table_row rfl rfl fun _ h => table_row rfl h fun _ h => table_row rfl h fun _ h => table_row rfl h fun _ h =>
      table_row rfl h fun hy h => table_row rfl h fun hx h => ?_
    rw [h]
    exact div_isRounded rm _ hx hy

/-! ### The square root (R128) -/

section
variable {F : Format} {x : Bits F}

theorem sqrt_valQ_pos (hzero : ¬ isZero F x = true) (hsign : ¬ sign F x = true) :
    0 < Real.sqrt ((valQ F x : ℚ) : ℝ) := by
  have hne : valQ F x ≠ 0 := mt valQ_eq_zero_iff.1 hzero
  have hnonneg : 0 ≤ valQ F x := valQ_nonneg_of_sign hsign
  exact Real.sqrt_pos.2 (by exact_mod_cast lt_of_le_of_ne hnonneg hne.symm)

theorem sqrt_isValue (hsign : ¬ sign F x = true) :
    (Magnitude.root (val F x).num.natAbs (val F x).exp).IsValue (Real.sqrt ((valQ F x : ℚ) : ℝ)) :=
  Scaled.root_isValue (valQ_nonneg_of_sign hsign)

theorem valQ_eq_abs (hsign : ¬ sign F x = true) : valQ F x = |valQ F x| :=
  (abs_of_nonneg (valQ_nonneg_of_sign hsign)).symm

/-- Square roots stay within the normal range: the least is `2^(emin-t)`, the square of no less than `2^emin`. -/
theorem le_sqrt_valQ (hzero : ¬ isZero F x = true) (hsign : ¬ sign F x = true) :
    (2 : ℝ) ^ F.emin ≤ Real.sqrt ((valQ F x : ℚ) : ℝ) := by
  have hle : (2 : ℝ) ^ (F.emin - F.fracBits) ≤ ((valQ F x : ℚ) : ℝ) := by
    rw [valQ_eq_abs hsign]
    simpa using (Rat.cast_le (K := ℝ)).2 (le_abs_valQ hzero)
  have hnonpos := F.emin_add_fracBits_nonpos
  apply Real.le_sqrt_of_sq_le
  calc ((2 : ℝ) ^ F.emin) ^ 2 = 2 ^ (F.emin + F.emin) := by rw [zpow_add₀ two_ne_zero, sq]
    _ ≤ 2 ^ (F.emin - F.fracBits) := zpow_le_zpow_right₀ one_le_two (by omega)
    _ ≤ _ := hle

theorem sqrt_valQ_lt (hnan : ¬ isNaN F x = true) (hinf : ¬ isInf F x = true) (hsign : ¬ sign F x = true) :
    Real.sqrt ((valQ F x : ℚ) : ℝ) < (2 : ℝ) ^ F.emax := by
  have hlt : ((valQ F x : ℚ) : ℝ) < (2 : ℝ) ^ (F.emax + 1) := by
    rw [valQ_eq_abs hsign]
    simpa using (Rat.cast_lt (K := ℝ)).2 (abs_valQ_lt hnan hinf)
  have hone := F.one_le_emax
  rw [Real.sqrt_lt' (by positivity)]
  calc _ < (2 : ℝ) ^ (F.emax + 1) := hlt
    _ ≤ 2 ^ (F.emax + F.emax) := zpow_le_zpow_right₀ one_le_two (by omega)
    _ = (2 ^ F.emax) ^ 2 := by rw [zpow_add₀ two_ne_zero, sq]

end

/-- A square root neither overflows nor underflows. -/
theorem sqrt_flagOF_flagUF (F : Format) (rm : RoundingMode) (x : Bits F) :
    (sqrt F rm x).2 &&& (flagOF ||| flagUF) = 0 := by
  unfold sqrt
  split_ifs with _ hnan hzero hsign hinf
  · exact (by decide : flagNV &&& (flagOF ||| flagUF) = 0)
  · exact flagNone_and _
  · exact flagNone_and _
  · exact (by decide : flagNV &&& (flagOF ||| flagUF) = 0)
  · exact flagNone_and _
  · have hvalue := sqrt_isValue hsign
    have hpos := sqrt_valQ_pos hzero hsign
    have hno := not_overflows_of_lt (rm := rm) (s := false) hvalue hpos (sqrt_valQ_lt hnan hinf hsign)
    have htiny := not_isTiny_of_le (rm := rm) (s := false) hvalue hpos (le_sqrt_valQ hzero hsign)
    rw [BitVec.and_or_distrib_left, not_not.1 (mt round_flagOF_iff.1 hno), round_flagUF_eq_zero (.inl htiny)]
    rfl

/-- Settles O54: the branches of `Fp.sqrt` are the rows of the table, and the real root is rounded once; it lies in the
normal range, so neither OF nor UF is set, in any format. -/
theorem sqrtFollowsTable : Obligations.SqrtFollowsTable := by
  unfold Obligations.SqrtFollowsTable
  refine ⟨fun F rm x => ?_, sqrt_flagOF_flagUF .H, fun rm => by cases rm <;> decide⟩
  refine table_row rfl rfl fun hsnan h => ?_
  rw [isNaN_eq_isQNaN hsnan] at h
  refine table_row rfl h fun _ h => table_row rfl h fun hzero h => table_row rfl h fun hsign h =>
    table_row rfl h fun _ h => ?_
  rw [h]
  exact round_isRounded F rm false (sqrt_isValue hsign) (sqrt_valQ_pos hzero hsign)

end Fp

end Sys2Proof.Machine
end

section
/-! PROOFS. 41_load_store.md: FLH, FSH, and a load after a store. -/

namespace Sys2Proof

/-! ### Decoding a load or a store (R93, R94) -/

/-- A word is the instruction of the row that accepts it, if no row before that one does. -/
theorem decodeWord_of_accepts {w : InstWord} {before after : List OpcodeRow} {row : OpcodeRow}
    (hrows : opcodeRows = before ++ row :: after) (hbefore : ∀ r ∈ before, r.accepts w = false)
    (haccepts : row.accepts w = true) : decodeWord w = .ok (row.build w) := by
  have hfind : opcodeRows.find? (·.accepts w) = some row :=
    List.find?_eq_some_iff_append.2 ⟨haccepts, before, after, hrows, fun r hr => by rw [hbefore r hr]; rfl⟩
  rw [decodeWord, hfind]

theorem decodeWord_flh {w : InstWord} (h : w &&& 0x0000707F = 0x00001007) :
    decodeWord w = .ok (.flh (rdField w) (rs1Field w) (immI w)) :=
  decodeWord_of_accepts (before := []) rfl (by simp) (beq_iff_eq.2 h)

/-- FLH's row is the one before FSH's; it has the same mask and another match. -/
theorem decodeWord_fsh {w : InstWord} (h : w &&& 0x0000707F = 0x00001027) :
    decodeWord w = .ok (.fsh (rs2Field w) (rs1Field w) (immS w)) := by
  refine decodeWord_of_accepts (before := opcodeRows.take 1) rfl (fun r hr => ?_) (beq_iff_eq.2 h)
  obtain rfl := List.mem_singleton.1 hr
  exact (congrArg (· == 0x00001007#32) h).trans rfl

/-- Settles O4: the table is run on each of the words. -/
theorem exampleWordsDecode : Obligations.ExampleWordsDecode := by
  unfold Obligations.ExampleWordsDecode
  exact ⟨decodeWord_flh rfl, decodeWord_fsh rfl, rfl, rfl, rfl, rfl, rfl, rfl, rfl, rfl, rfl, rfl, rfl, rfl, rfl⟩

namespace Machine

/-! ### The checks on an access (R53 to R56) -/

/-- An aligned access reports its own address, whichever of its bytes is missing. -/
theorem State.checkHalf_of_aligned_outside {s : State} {a : Word} (haligned : a.getLsbD 0 = false)
    (habsent : s.params.inMem a.toNat = false ∨ s.params.inMem (s.addrAfter a).toNat = false) :
    s.checkHalf a = .outside a := by
  obtain h | h := habsent <;>
    simp only [State.checkHalf, haligned, h, Bool.false_and, Bool.and_false, Bool.false_eq_true, if_false]

theorem State.checkHalf_of_split_first_outside {s : State} {a : Word} (hodd : a.getLsbD 0 = true)
    (hsplit : s.params.misaligned = .split) (habsent : s.params.inMem a.toNat = false) :
    s.checkHalf a = .outside a := by
  simp [State.checkHalf, hodd, hsplit, habsent]

theorem State.checkHalf_of_split_second_outside {s : State} {a : Word} (hodd : a.getLsbD 0 = true)
    (hsplit : s.params.misaligned = .split) (hfirst : s.params.inMem a.toNat = true)
    (habsent : s.params.inMem (s.addrAfter a).toNat = false) : s.checkHalf a = .outside (s.addrAfter a) := by
  simp [State.checkHalf, hodd, hsplit, hfirst, habsent]

theorem State.addrAfter_toNat (s : State) (a : Word) : (s.addrAfter a).toNat = (a.toNat + 1) % 2 ^ s.params.xbits :=
  s.params.truncX_add_toNat a 1

theorem State.effectiveAddr_lt (s : State) (rs1 : XReg) (imm : BitVec 12) :
    (s.effectiveAddr rs1 imm).toNat < 2 ^ s.params.xbits := by
  rw [State.effectiveAddr, Params.truncX_toNat]
  exact Nat.mod_lt _ (by positivity)

/-- The wrap-around at 2^XLEN does not bring the second byte of an access back to the first. -/
theorem State.addrAfter_ne {s : State} {a : Word} (ha : a.toNat < 2 ^ s.params.xbits) :
    (s.addrAfter a).toNat ≠ a.toNat := by
  have htwo : 2 ≤ 2 ^ s.params.xbits := by unfold Params.xbits; split <;> decide
  rw [State.addrAfter_toNat]
  obtain hlast | hnext := Nat.eq_or_lt_of_le (Nat.succ_le_of_lt ha)
  · rw [show a.toNat + 1 = 2 ^ s.params.xbits from hlast, Nat.mod_self]
    omega
  · rw [Nat.mod_eq_of_lt hnext]
    omega

/-! ### FLH (R150) -/

section
variable {s : State} {rd : FReg} {rs1 : XReg} {imm : BitVec 12}

theorem enabled_flh_iff : Enabled s (.flh rd rs1 imm) ↔ s.fs ≠ 0 := and_iff_right rfl

theorem exec_flh_of_misaligned (hon : s.fs ≠ 0) (h : s.checkHalf (s.effectiveAddr rs1 imm) = .misaligned) :
    exec (.flh rd rs1 imm) s = .next (s.raise (.loadAddressMisaligned (s.effectiveAddr rs1 imm))) := by
  change execFlh rd rs1 imm s = _
  simp only [execFlh, State.whenFpOn_enabled (enabled_flh_iff.2 hon), h]

theorem exec_flh_of_outside {a : Word} (hon : s.fs ≠ 0) (h : s.checkHalf (s.effectiveAddr rs1 imm) = .outside a) :
    exec (.flh rd rs1 imm) s = .next (s.raise (.loadAccessFault a)) := by
  change execFlh rd rs1 imm s = _
  simp only [execFlh, State.whenFpOn_enabled (enabled_flh_iff.2 hon), h]

theorem exec_flh_of_permitted (hon : s.fs ≠ 0) (h : s.checkHalf (s.effectiveAddr rs1 imm) = .permitted) :
    ∃ t, exec (.flh rd rs1 imm) s = .next t ∧
      WroteF s t rd (box s.params .H (s.readHalf (s.effectiveAddr rs1 imm))) flagNone := by
  refine ⟨_, ?_, State.finishF_wroteF (truncF_box _ _ _ (width_H_le_flen _)) rd flagNone⟩
  change execFlh rd rs1 imm s = _
  simp only [execFlh, State.whenFpOn_enabled (enabled_flh_iff.2 hon), h]

end

/-- Settles O29: each clause's hypotheses pick one outcome of the checks, and the outcome is what FLH does. -/
theorem flhLoadsOrRaises : Obligations.FlhLoadsOrRaises := by
  unfold Obligations.FlhLoadsOrRaises
  refine ⟨fun _ => decodeWord_flh, fun s rd rs1 imm => ⟨floatingPointOffRaises _ s rfl, fun hon => ?_⟩⟩
  refine ⟨?_, ?_, ?_, ?_, ?_⟩
  · intro hodd htrap
    exact exec_flh_of_misaligned hon ((s.checkHalf_misaligned_iff _).2 ⟨hodd, htrap⟩)
  · intro haligned habsent
    exact exec_flh_of_outside hon (State.checkHalf_of_aligned_outside haligned habsent)
  · intro hodd hsplit habsent
    exact exec_flh_of_outside hon (State.checkHalf_of_split_first_outside hodd hsplit habsent)
  · intro hodd hsplit hfirst habsent
    exact exec_flh_of_outside hon (State.checkHalf_of_split_second_outside hodd hsplit hfirst habsent)
  · intro halign hfirst hsecond
    exact exec_flh_of_permitted hon ((s.checkHalf_permitted_iff _).2 ⟨hfirst, hsecond, halign⟩)

/-! ### FSH (R151) -/

/-- An FSH completed and stored the half `h` at `a`: what it leaves of memory, byte by byte, and of the rest of the
state. -/
structure StoredHalf (s t : State) (a : Word) (h : BitVec 16) : Prop where
  low : t.mem.read a.toNat = h.extractLsb' 0 8
  high : t.mem.read (s.addrAfter a).toNat = h.extractLsb' 8 8
  otherBytes : ∀ b : Nat, b ≠ a.toNat → b ≠ (s.addrAfter a).toNat → t.mem.read b = s.mem.read b
  sameX : ∀ r, t.readX r = s.readX r
  sameF : ∀ r, t.readF r = s.readF r
  fcsr : t.fcsr = s.fcsr
  fs : t.fs = s.fsAfter false
  pc : t.pc = s.nextPc
  traps : SameTrapState s t
  params : t.params = s.params

theorem State.writeHalf_completeFp_storedHalf {s : State} {a : Word} (hwf : s.mem.wf = true)
    (ha : a.toNat < 2 ^ s.params.xbits) (h : BitVec 16) :
    StoredHalf s ((s.writeHalf a h).completeFp false) a h where
  low := by rw [State.completeFp_mem, State.writeHalf_read hwf, if_neg (State.addrAfter_ne ha).symm, if_pos rfl]
  high := by rw [State.completeFp_mem, State.writeHalf_read hwf, if_pos rfl]
  otherBytes b hlow hhigh := by rw [State.completeFp_mem, State.writeHalf_read hwf, if_neg hhigh, if_neg hlow]
  sameX r := State.readX_congr (by simp) (by simp) r
  sameF r := State.readF_congr (by simp) (by simp) r
  fcsr := by simp
  fs := rfl
  pc := rfl
  traps := by simp [SameTrapState]
  params := by simp

section
variable {s : State} {rs2 : FReg} {rs1 : XReg} {imm : BitVec 12}

theorem enabled_fsh_iff : Enabled s (.fsh rs2 rs1 imm) ↔ s.fs ≠ 0 := and_iff_right rfl

theorem exec_fsh_of_misaligned (hon : s.fs ≠ 0) (h : s.checkHalf (s.effectiveAddr rs1 imm) = .misaligned) :
    exec (.fsh rs2 rs1 imm) s = .next (s.raise (.storeAddressMisaligned (s.effectiveAddr rs1 imm))) := by
  change execFsh rs2 rs1 imm s = _
  simp only [execFsh, State.whenFpOn_enabled (enabled_fsh_iff.2 hon), h]

theorem exec_fsh_of_outside {a : Word} (hon : s.fs ≠ 0) (h : s.checkHalf (s.effectiveAddr rs1 imm) = .outside a) :
    exec (.fsh rs2 rs1 imm) s = .next (s.raise (.storeAccessFault a)) := by
  change execFsh rs2 rs1 imm s = _
  simp only [execFsh, State.whenFpOn_enabled (enabled_fsh_iff.2 hon), h]

theorem exec_fsh_of_permitted (hwf : s.mem.wf = true) (hon : s.fs ≠ 0)
    (h : s.checkHalf (s.effectiveAddr rs1 imm) = .permitted) :
    ∃ t, exec (.fsh rs2 rs1 imm) s = .next t ∧ StoredHalf s t (s.effectiveAddr rs1 imm) (s.rawHalf rs2) := by
  refine ⟨_, ?_, State.writeHalf_completeFp_storedHalf hwf (s.effectiveAddr_lt rs1 imm) (s.rawHalf rs2)⟩
  change execFsh rs2 rs1 imm s = _
  simp only [execFsh, State.whenFpOn_enabled (enabled_fsh_iff.2 hon), h]

end

/-- Settles O30: as for FLH, with the store's frame read off `StoredHalf`. -/
theorem fshStoresOrRaises : Obligations.FshStoresOrRaises := by
  unfold Obligations.FshStoresOrRaises
  refine ⟨fun _ => decodeWord_fsh, fun s rs2 rs1 imm => ⟨floatingPointOffRaises _ s rfl, fun hon => ?_⟩⟩
  refine ⟨?_, ?_, ?_, ?_, ?_⟩
  · intro hodd htrap
    exact exec_fsh_of_misaligned hon ((s.checkHalf_misaligned_iff _).2 ⟨hodd, htrap⟩)
  · intro haligned habsent
    exact exec_fsh_of_outside hon (State.checkHalf_of_aligned_outside haligned habsent)
  · intro hodd hsplit habsent
    exact exec_fsh_of_outside hon (State.checkHalf_of_split_first_outside hodd hsplit habsent)
  · intro hodd hsplit hfirst habsent
    exact exec_fsh_of_outside hon (State.checkHalf_of_split_second_outside hodd hsplit hfirst habsent)
  · intro hwf halign hfirst hsecond
    obtain ⟨t, hexec, hstored⟩ :=
      exec_fsh_of_permitted (rs2 := rs2) hwf hon ((s.checkHalf_permitted_iff _).2 ⟨hfirst, hsecond, halign⟩)
    have hlow := hstored.low.trans (BitVec.extractLsb'_setWidth_of_le (by decide))
    have hhigh := hstored.high.trans (BitVec.extractLsb'_setWidth_of_le (by decide))
    have hprecise (h : s.params.fsTracking = .precise) : t.fs = s.fs :=
      hstored.fs.trans (State.fsAfter_precise h false)
    exact ⟨t, hexec, hlow, hhigh, hstored.otherBytes, hstored.sameX, hstored.sameF, hstored.fcsr, hstored.fs,
      hprecise, hstored.pc, hstored.traps, hstored.params⟩

/-! ### FLH after FSH (R152) -/

/-- Where both bytes of a stored half are as the store left them, the half is read back. -/
theorem StoredHalf.readHalf {s t u : State} {a : Word} {h : BitVec 16} (hstored : StoredHalf s t a h)
    (hparams : u.params = s.params) (hlow : u.mem.read a.toNat = t.mem.read a.toNat)
    (hhigh : u.mem.read (s.addrAfter a).toNat = t.mem.read (s.addrAfter a).toNat) : u.readHalf a = h := by
  have hafter : u.addrAfter a = s.addrAfter a := by rw [State.addrAfter, hparams, State.addrAfter]
  rw [State.readHalf, hafter, hhigh, hlow, hstored.high, hstored.low,
    BitVec.extractLsb'_append_extractLsb'_eq_extractLsb' (by decide), BitVec.extractLsb'_eq_self]

/-- Settles O31: the access that was permitted to FSH is permitted to FLH, which reads back the half stored. -/
theorem flhAfterFshReboxes : Obligations.FlhAfterFshReboxes := by
  unfold Obligations.FlhAfterFshReboxes
  intro s t u v rs2 rd rs1 rs1' imm imm' a hwf hfsh haligned hfirst hsecond hstore hparams haddr hlow hhigh hflh hload
  have hpermitted : s.checkHalf a = .permitted := (s.checkHalf_permitted_iff a).2 ⟨hfirst, hsecond, .inl haligned⟩
  have hpermitted' : u.checkHalf (u.effectiveAddr rs1' imm') = .permitted := by
    rw [haddr, ← hpermitted, State.checkHalf, State.checkHalf, State.addrAfter, State.addrAfter, hparams]
  obtain ⟨t', hexec, hstored⟩ := exec_fsh_of_permitted (rs2 := rs2) hwf (enabled_fsh_iff.1 hfsh) hpermitted
  obtain rfl : t' = t := by simpa [hexec] using hstore
  obtain ⟨v', hexec', hwrote⟩ := exec_flh_of_permitted (rd := rd) (enabled_flh_iff.1 hflh) hpermitted'
  obtain rfl : v' = v := by simpa [hexec'] using hload
  have hhalf : u.readHalf (u.effectiveAddr rs1' imm') = s.rawHalf rs2 := by
    rw [haddr]
    exact hstored.readHalf hparams hlow hhigh
  rw [hwrote.dest, hhalf, hparams, State.rawHalf, BitVec.setWidth_eq_extractLsb' (by decide)]

end Machine

end Sys2Proof
end

section
/-! PROOFS. 42_computational.md: arithmetic, the square root, the fused multiply-adds, minimum and maximum. -/

namespace Sys2Proof

/-! ### Decoding a computational instruction (R93, R94) -/

/-- A word that one mask cuts down to a pattern is turned down by a row that asks for another value of a common bit. -/
theorem OpcodeRow.accepts_eq_false_of_conflict {w m p : InstWord} {r : OpcodeRow} (h : w &&& m = p)
    (hconflict : p &&& r.mask ≠ r.pattern &&& m) : r.accepts w = false := by
  refine beq_eq_false_iff_ne.2 fun haccepts => hconflict ?_
  calc p &&& r.mask = w &&& m &&& r.mask := by rw [h]
    _ = w &&& r.mask &&& m := by ac_rfl
    _ = r.pattern &&& m := by rw [haccepts]

/-- A word that row `n` accepts is that row's instruction, if each row before it asks for another value of a common
bit. -/
theorem decodeWord_of_getElem? {w : InstWord} {n : Nat} {row : OpcodeRow} (hrow : opcodeRows[n]? = some row)
    (hbefore : ∀ r ∈ opcodeRows.take n, row.pattern &&& r.mask ≠ r.pattern &&& row.mask)
    (h : w &&& row.mask = row.pattern) : decodeWord w = .ok (row.build w) := by
  have hsplit : opcodeRows = opcodeRows.take n ++ row :: opcodeRows.drop (n + 1) := by
    obtain ⟨hn, rfl⟩ := List.getElem?_eq_some_iff.1 hrow
    rw [List.getElem_cons_drop, List.take_append_drop]
  exact decodeWord_of_accepts hsplit (fun r hr => OpcodeRow.accepts_eq_false_of_conflict h (hbefore r hr))
    (beq_iff_eq.2 h)

/-- A word that no row accepts decodes to nothing (R97). -/
theorem decodeWord_ne_ok_of_no_row {w : InstWord} (h : ∀ r ∈ opcodeRows, r.accepts w = false) (i : Instr) :
    decodeWord w ≠ .ok i := by
  have hfind : opcodeRows.find? (·.accepts w) = none := List.find?_eq_none.2 fun r hr => by simp [h r hr]
  rw [decodeWord, hfind]
  exact nofun

theorem decodeWord_fsqrtH {w : InstWord} (h : w &&& 0xFFF0007F = 0x5C000053) :
    decodeWord w = .ok (.fsqrtH (rdField w) (rs1Field w) (rmField w)) :=
  decodeWord_of_getElem? (n := 10) rfl (by decide) h

theorem decodeWord_fminH {w : InstWord} (h : w &&& 0xFE00707F = 0x2C000053) :
    decodeWord w = .ok (.fminH (rdField w) (rs1Field w) (rs2Field w)) :=
  decodeWord_of_getElem? (n := 14) rfl (by decide) h

theorem decodeWord_fmaxH {w : InstWord} (h : w &&& 0xFE00707F = 0x2C001053) :
    decodeWord w = .ok (.fmaxH (rdField w) (rs1Field w) (rs2Field w)) :=
  decodeWord_of_getElem? (n := 15) rfl (by decide) h

/-- FSQRT.H's row is the only one with its `funct5`, `fmt` and opcode. -/
theorem fsqrtH_row_of_no_conflict : ∀ r ∈ opcodeRows,
    0x5C000053 &&& r.mask = r.pattern &&& 0xFE00007F → r.mask = 0xFFF0007F ∧ r.pattern = 0x5C000053 := by
  decide

/-- R165: FSQRT.H with a non-zero `rs2` field is no instruction. -/
theorem decodeWord_fsqrtH_of_rs2_ne_zero {w : InstWord} (h : w &&& 0xFE00007F = 0x5C000053) (hrs2 : rs2Field w ≠ 0)
    (i : Instr) : decodeWord w ≠ .ok i := by
  refine decodeWord_ne_ok_of_no_row (fun r hr => ?_) i
  by_cases hsame : 0x5C000053 &&& r.mask = r.pattern &&& 0xFE00007F
  · obtain ⟨hmask, hpattern⟩ := fsqrtH_row_of_no_conflict r hr hsame
    rw [OpcodeRow.accepts, hmask, hpattern]
    refine beq_eq_false_iff_ne.2 fun haccepts => hrs2 ?_
    calc rs2Field w = rs2Field (w &&& 0xFFF0007F) := by
          rw [rs2Field, rs2Field, BitVec.extractLsb'_and]
          exact (BitVec.and_allOnes).symm
      _ = 0 := by rw [haccepts]; rfl
  · exact OpcodeRow.accepts_eq_false_of_conflict h hsame

namespace Machine

/-! ### An instruction that writes a half-precision result (R16, R113) -/

/-- An instruction behind the gate raises `IllegalInstruction`, or completes with its result boxed. -/
theorem raises_or_completes_of_whenFpOn {s : State} {i : Instr} {rd : FReg} {result : Fp.Bits .H × FlagSet}
    (hexec : exec i s = .next (s.whenFpOn i (s.finishF rd (box s.params .H result.1) result.2))) :
    (¬ Enabled s i → exec i s = .next (s.raise (.illegalInstruction (encode i)))) ∧
    (Enabled s i → ∃ t, exec i s = .next t ∧ WroteF s t rd (box s.params .H result.1) result.2) := by
  constructor
  · intro hoff
    rw [hexec, State.whenFpOn_disabled hoff, State.illegal]
  · intro hon
    rw [hexec, State.whenFpOn_enabled hon]
    exact ⟨_, rfl, State.finishF_wroteF (truncF_box _ _ _ (width_H_le_flen _)) rd _⟩

/-- The same of the gate with a rounding mode, the result being the one computed in that mode. -/
theorem raises_or_completes_of_whenRounding {s : State} {i : Instr} {rd : FReg} {rm : RmField}
    {result : RoundingMode → Fp.Bits .H × FlagSet}
    (hexec : exec i s =
      .next (s.whenRounding i rm fun r => s.finishF rd (box s.params .H (result r).1) (result r).2)) :
    (¬ Enabled s i ∨ s.roundingMode rm = none → exec i s = .next (s.raise (.illegalInstruction (encode i)))) ∧
    ∀ r, Enabled s i → s.roundingMode rm = some r →
      ∃ t, exec i s = .next t ∧ WroteF s t rd (box s.params .H (result r).1) (result r).2 := by
  constructor
  · rintro (hoff | hnone)
    · rw [hexec, State.whenRounding, State.whenFpOn_disabled hoff, State.illegal]
    · rw [hexec, State.whenRounding_invalid hnone, State.illegal]
  · intro r hon hr
    rw [hexec, State.whenRounding_enabled hon hr]
    exact ⟨_, rfl, State.finishF_wroteF (truncF_box _ _ _ (width_H_le_flen _)) rd _⟩

/-- Settles O32: each of the four is `State.arith2` of its function, which is the gate around the function's result. -/
theorem arithmeticCompletes : Obligations.ArithmeticCompletes := by
  unfold Obligations.ArithmeticCompletes
  intro s rd rs1 rs2 rm i op h
  have hexec : exec i s = .next (s.arith2 i rd rs1 rs2 rm op) := by
    obtain ⟨rfl, rfl⟩ | ⟨rfl, rfl⟩ | ⟨rfl, rfl⟩ | ⟨rfl, rfl⟩ := h <;> rfl
  exact raises_or_completes_of_whenRounding (result := fun r => op r (s.operand .H rs1) (s.operand .H rs2)) hexec

/-! ### Flags that are never set, and the root of a negative number -/

namespace Fp

/-- A pattern is its sign and its two fields (R111). -/
theorem eq_pack_fields (F : Format) (a : Bits F) : a = pack F (sign F a) (expField F a) (fracField F a) := by
  have hlt := a.isLt
  have hsign : (sign F a).toNat = a.toNat / 2 ^ (F.width - 1) % 2 := by
    rw [sign, ← BitVec.testBit_toNat, Nat.toNat_testBit]
  apply BitVec.eq_of_toNat_eq
  simp only [pack, hsign, expField, fracField, BitVec.toNat_ofNat, BitVec.extractLsb'_toNat, Nat.shiftRight_eq_div_pow]
  cases F <;> simp only [Format.width, Format.expBits, Format.fracBits] at hlt ⊢ <;> omega

theorem round_flagDZ (F : Format) (rm : RoundingMode) (s : Bool) (m : Magnitude) :
    (round F rm s m).2 &&& flagDZ = 0 := by
  by_cases h : Overflows F rm s m
  · simp only [round_of_overflows h]
    rfl
  · simp only [round_of_not_overflows h]
    cases isInexact F m <;> cases isTiny F rm s m <;> rfl

theorem roundSum_flagDZ (F : Format) (rm : RoundingMode) (v : Scaled) : (roundSum F rm v).2 &&& flagDZ = 0 := by
  unfold roundSum
  split
  · exact flagNone_and flagDZ
  · exact round_flagDZ F rm _ _

/-- R129: a fused multiply-add divides nothing. -/
theorem fma_flagDZ (F : Format) (rm : RoundingMode) (x y z : Bits F) : (fma F rm x y z).2 &&& flagDZ = 0 := by
  have hNV : flagNV &&& flagDZ = 0 := by decide
  unfold fma
  dsimp only
  split_ifs
  · exact hNV
  · exact nvIf_and hNV _
  · exact hNV
  · exact flagNone_and flagDZ
  · exact flagNone_and flagDZ
  · exact flagNone_and flagDZ
  · exact flagNone_and flagDZ
  · exact roundSum_flagDZ F rm _

theorem sqrt_flagDZ (F : Format) (rm : RoundingMode) (x : Bits F) : (sqrt F rm x).2 &&& flagDZ = 0 := by
  have hNV : flagNV &&& flagDZ = 0 := by decide
  unfold sqrt
  split_ifs
  · exact hNV
  · exact flagNone_and flagDZ
  · exact flagNone_and flagDZ
  · exact hNV
  · exact flagNone_and flagDZ
  · exact round_flagDZ F rm _ _

theorem sqrt_flagDZ_flagOF_flagUF (F : Format) (rm : RoundingMode) (x : Bits F) :
    (sqrt F rm x).2 &&& (flagDZ ||| flagOF ||| flagUF) = 0 := by
  rw [BitVec.or_assoc, BitVec.and_or_distrib_left, sqrt_flagDZ, sqrt_flagOF_flagUF]
  rfl

/-- The root of a number below zero, minus infinity included (R128). -/
theorem sqrt_of_negative {F : Format} {x : Bits F} (rm : RoundingMode) (hsign : sign F x = true)
    (hzero : isZero F x = false) (hnan : isNaN F x = false) : sqrt F rm x = (cNaN F, flagNV) := by
  have hsnan : isSNaN F x = false := by rw [isSNaN, hnan, Bool.false_and]
  simp [sqrt, hsnan, hnan, hzero, hsign]

/-- Half precision has one zero with the sign bit set. -/
theorem isZero_H_eq_false {x : Bits .H} (hsign : sign .H x = true) (hne : x ≠ 0x8000) : isZero .H x = false := by
  refine Bool.eq_false_iff.2 fun hzero => hne ?_
  obtain ⟨hexp, hfrac⟩ := isZero_iff.1 hzero
  rw [eq_pack_fields .H x, hsign, hexp, hfrac]
  rfl

end Fp

/-- Settles O33: the row of FSQRT.H, the gate, and the table of R128. -/
theorem sqrtCompletes : Obligations.SqrtCompletes := by
  unfold Obligations.SqrtCompletes
  obtain ⟨-, -, hleast⟩ := Fp.sqrtFollowsTable
  refine ⟨fun _ => decodeWord_fsqrtH, fun _ => decodeWord_fsqrtH_of_rs2_ne_zero, fun s rd rs1 rm => ?_, fun r => ?_⟩
  · exact raises_or_completes_of_whenRounding (result := fun r => Fp.sqrt .H r (s.operand .H rs1)) rfl
  · exact ⟨Fp.sqrt_flagDZ_flagOF_flagUF .H r, rfl, rfl, rfl, hleast r, fun x hsign hne hnan =>
      Fp.sqrt_of_negative r hsign (Fp.isZero_H_eq_false hsign hne) hnan⟩

/-! ### The fused multiply-adds (R169) -/

/-- R169: bit 15 is flipped. -/
theorem negIf_eq (n : Bool) (a : Fp.Bits .H) : negIf n a = if n then a ^^^ 0x8000 else a := rfl

/-- Settles O34: each of the four is `State.fused` with its two negations, and a fused multiply-add never sets DZ. -/
theorem fusedMultiplyAddCompletes : Obligations.FusedMultiplyAddCompletes := by
  unfold Obligations.FusedMultiplyAddCompletes
  intro s rd rs1 rs2 rs3 rm i n1 n3 h
  have hexec : exec i s = .next (s.fused i rd rs1 rs2 rs3 rm n1 n3) := by
    obtain ⟨rfl, rfl, rfl⟩ | ⟨rfl, rfl, rfl⟩ | ⟨rfl, rfl, rfl⟩ | ⟨rfl, rfl, rfl⟩ := h <;> rfl
  obtain ⟨hraise, hcomplete⟩ := raises_or_completes_of_whenRounding (result := fun r =>
    Fp.fma .H r (negIf n1 (s.operand .H rs1)) (s.operand .H rs2) (negIf n3 (s.operand .H rs3))) hexec
  refine ⟨hraise, fun r hon hr => ?_⟩
  obtain ⟨t, hnext, hwrote⟩ := hcomplete r hon hr
  rw [negIf_eq, negIf_eq] at hwrote
  exact ⟨t, hnext, hwrote, Fp.fma_flagDZ ..⟩

/-! ### Minimum and maximum (R166, R167) -/

namespace Fp

/-- The extended rational that an `ExtVal` stands for. -/
def ExtVal.toExtRat : ExtVal → WithBot (WithTop ℚ)
  | .negInf => ⊥
  | .fin v => ((v.toRat : WithTop ℚ) : WithBot (WithTop ℚ))
  | .posInf => ((⊤ : WithTop ℚ) : WithBot (WithTop ℚ))

theorem ord_toExtRat (F : Format) (a : Bits F) : (ord F a).toExtRat = ordQ F a := by
  unfold ord ordQ
  cases isInf F a with
  | false => rfl
  | true => cases sign F a <;> rfl

theorem ExtVal.lt_iff (v u : ExtVal) : v.lt u = true ↔ v.toExtRat < u.toExtRat := by
  cases v with
  | negInf => cases u <;> simp [ExtVal.lt, ExtVal.toExtRat]
  | fin v =>
    cases u with
    | negInf => simp [ExtVal.lt, ExtVal.toExtRat]
    | fin u => simp [ExtVal.lt, ExtVal.toExtRat, Scaled.lt_iff]
    | posInf => exact iff_of_true rfl (WithBot.coe_lt_coe.2 (WithTop.coe_lt_top _))
  | posInf => cases u <;> simp [ExtVal.lt, ExtVal.toExtRat]

theorem ord_lt_iff (F : Format) (a b : Bits F) : (ord F a).lt (ord F b) = true ↔ ordQ F a < ordQ F b := by
  rw [ExtVal.lt_iff, ord_toExtRat, ord_toExtRat]

/-- The function of FMAX.H or of FMIN.H. -/
def extremum (F : Format) (isMax : Bool) : Bits F → Bits F → Bits F × FlagSet :=
  if isMax then maxNum F else minNum F

/-- `v` is the operand that the order picks: the table of R166, or that of R167. -/
structure IsExtremum (F : Format) (isMax : Bool) (a b v : Bits F) : Prop where
  bothNaN : isNaN F a = true → isNaN F b = true → v = cNaN F
  firstNaN : isNaN F a = true → isNaN F b = false → v = b
  secondNaN : isNaN F a = false → isNaN F b = true → v = a
  less : isNaN F a = false → isNaN F b = false → ordQ F a < ordQ F b → v = if isMax then b else a
  greater : isNaN F a = false → isNaN F b = false → ordQ F b < ordQ F a → v = if isMax then a else b
  equal : isNaN F a = false → isNaN F b = false → ordQ F a = ordQ F b → v = if sign F a = isMax then b else a

theorem extremum_isExtremum (F : Format) (isMax : Bool) (a b : Bits F) :
    IsExtremum F isMax a b (extremum F isMax a b).1 where
  bothNaN ha hb := by cases isMax <;> simp [extremum, minNum, maxNum, ha, hb]
  firstNaN ha hb := by cases isMax <;> simp [extremum, minNum, maxNum, ha, hb]
  secondNaN ha hb := by cases isMax <;> simp [extremum, minNum, maxNum, ha, hb]
  less ha hb hlt := by cases isMax <;> simp [extremum, minNum, maxNum, ha, hb, ord_lt_iff, hlt, hlt.not_gt]
  greater ha hb hgt := by cases isMax <;> simp [extremum, minNum, maxNum, ha, hb, ord_lt_iff, hgt, hgt.not_gt]
  equal ha hb heq := by
    cases isMax <;> cases hs : sign F a <;> simp [extremum, minNum, maxNum, ha, hb, ord_lt_iff, heq, hs]

/-- NV exactly for a signaling NaN, whichever row gives the value. -/
theorem extremum_flags (F : Format) (isMax : Bool) (a b : Bits F) :
    (extremum F isMax a b).2 = nvIf (isSNaN F a || isSNaN F b) := by
  cases isMax with
  | false => change (minNum F a b).2 = _; unfold minNum; split_ifs <;> rfl
  | true => change (maxNum F a b).2 = _; unfold maxNum; split_ifs <;> rfl

end Fp

/-- Settles O35: FMIN.H and FMAX.H are `State.select2` of their function, which picks by the order of R166. -/
theorem minMaxComplete : Obligations.MinMaxComplete := by
  unfold Obligations.MinMaxComplete
  refine ⟨fun _ => decodeWord_fminH, fun _ => decodeWord_fmaxH, ?_⟩
  intro s rd rs1 rs2 a b fl i isMax h
  have hexec : exec i s = .next (s.select2 i rd rs1 rs2 (Fp.extremum .H isMax)) := by
    obtain ⟨rfl, rfl⟩ | ⟨rfl, rfl⟩ := h <;> rfl
  have hflags : (Fp.extremum .H isMax a b).2 = fl := Fp.extremum_flags .H isMax a b
  have hpick := Fp.extremum_isExtremum .H isMax a b
  obtain ⟨hraise, hcomplete⟩ := raises_or_completes_of_whenFpOn (result := Fp.extremum .H isMax a b) hexec
  refine ⟨hraise, fun hon => ?_⟩
  obtain ⟨t, hnext, hwrote⟩ := hcomplete hon
  rw [hflags] at hwrote
  exact ⟨t, _, hnext, hwrote, hpick.bothNaN, hpick.firstNaN, hpick.secondNaN,
    fun ha hb => ⟨hpick.less ha hb, hpick.greater ha hb, hpick.equal ha hb⟩⟩

end Machine

end Sys2Proof
end

section
/-! PROOFS. 43_convert_move.md: the conversions, sign injection, and the moves between the register files. -/

namespace Sys2Proof

/-! ### Decoding a move (R93, R94) -/

theorem decodeWord_fmvXH {w : InstWord} (h : w &&& 0xFFF0707F = 0xE4000053) :
    decodeWord w = .ok (.fmvXH (rdField w) (rs1Field w)) :=
  decodeWord_of_getElem? (n := 33) rfl (by decide) h

theorem decodeWord_fmvHX {w : InstWord} (h : w &&& 0xFFF0707F = 0xF4000053) :
    decodeWord w = .ok (.fmvHX (rdField w) (rs1Field w)) :=
  decodeWord_of_getElem? (n := 35) rfl (by decide) h

namespace Machine

/-! ### The gate, whatever it guards (R16, R116, R117) -/

/-- An instruction behind the gate raises `IllegalInstruction`, or does what the gate guards. -/
theorem raises_or_runs_of_whenFpOn {s body : State} {i : Instr} (hexec : exec i s = .next (s.whenFpOn i body)) :
    (¬ Enabled s i → exec i s = .next (s.raise (.illegalInstruction (encode i)))) ∧
    (Enabled s i → exec i s = .next body) := by
  constructor
  · intro hoff
    rw [hexec, State.whenFpOn_disabled hoff, State.illegal]
  · intro hon
    rw [hexec, State.whenFpOn_enabled hon]

/-- The same of the gate with a rounding mode. -/
theorem raises_or_runs_of_whenRounding {s : State} {i : Instr} {rm : RmField} {body : RoundingMode → State}
    (hexec : exec i s = .next (s.whenRounding i rm body)) :
    (¬ Enabled s i ∨ s.roundingMode rm = none → exec i s = .next (s.raise (.illegalInstruction (encode i)))) ∧
    ∀ r, Enabled s i → s.roundingMode rm = some r → exec i s = .next (body r) := by
  constructor
  · rintro (hoff | hnone)
    · rw [hexec, State.whenRounding, State.whenFpOn_disabled hoff, State.illegal]
    · rw [hexec, State.whenRounding_invalid hnone, State.illegal]
  · intro r hon hr
    rw [hexec, State.whenRounding_enabled hon hr]

/-- An instruction that exists on every hart is enabled wherever the unit is on (R9, R116). -/
theorem enabled_iff_fs_ne_zero {s : State} {i : Instr} (hexists : i.existsOn s.params = true) :
    Enabled s i ↔ s.fs ≠ 0 := and_iff_right hexists

/-! ### The conversions, over rational and real numbers (R190, R199, R206) -/

namespace Fp

/-- The magnitude of a value, rounded to an integer, and NX exactly where that changes it. -/
theorem isRoundInt_valQ (F : Format) (rm : RoundingMode) (s : Bool) (a : Bits F) :
    IsRoundInt rm s ((|valQ F a| : ℚ) : ℝ) (roundInt rm s ((val F a).magnitude.split 0)) ∧
    flagIf (((val F a).magnitude.split 0).rest != .zero) flagNX =
      if (roundInt rm s ((val F a).magnitude.split 0) : ℚ) ≠ |valQ F a| then flagNX else flagNone := by
  have hsplit : IsSplit ((|valQ F a| : ℚ) : ℝ) ((val F a).magnitude.split 0) := by
    simpa only [zpow_zero, div_one, valQ] using Magnitude.isSplit_split (val F a).magnitude_isValue 0
  have hexact : ((val F a).magnitude.split 0).rest = .zero ↔
      (roundInt rm s ((val F a).magnitude.split 0) : ℚ) = |valQ F a| := by
    rw [hsplit.rest_zero_iff_roundInt rm s, eq_comm]
    norm_cast
  refine ⟨hsplit.isRoundInt rm s, ?_⟩
  rw [flagIf]
  exact if_congr (bne_iff_ne.trans (not_congr hexact)) rfl rfl

/-- The range check of R190, on the rounded integer `v`. -/
theorem saturate_rows {v lo hi : ℤ} {fl : FlagSet} {out : ℤ × FlagSet} (hrange : lo ≤ hi)
    (hout : out = if v < lo then (lo, flagNV) else if v > hi then (hi, flagNV) else (v, fl)) :
    (v < lo → out = (lo, flagNV)) ∧ (hi < v → out = (hi, flagNV)) ∧ (lo ≤ v → v ≤ hi → out = (v, fl)) := by
  subst hout
  refine ⟨fun hlow => if_pos hlow, fun hhigh => ?_, fun hlow hhigh => ?_⟩
  · rw [if_neg (by omega), if_pos hhigh]
  · rw [if_neg (by omega), if_neg (by omega)]

/-- The branches of `Fp.toInt` are the rows of R190; the two for infinities are one row. -/
theorem toInt_isToInt (F : Format) (rm : RoundingMode) (a : Bits F) {lo hi : ℤ} (hrange : lo ≤ hi) :
    IsToInt F rm a lo hi (toInt F rm a lo hi) := by
  obtain ⟨hround, hflags⟩ := isRoundInt_valQ F rm (sign F a) a
  refine table_row rfl rfl fun _ h => ?_
  rw [h]
  cases isInf F a with
  | true => cases sign F a <;> rfl
  | false =>
    refine ⟨_, hround, ?_⟩
    rw [← hflags]
    exact saturate_rows hrange rfl

/-- The branches of `Fp.fromInt` are the rows of R199. -/
theorem fromInt_isFromInt (F : Format) (rm : RoundingMode) (n : ℤ) : IsFromInt F rm n (fromInt F rm n) := by
  constructor
  · intro hzero
    rw [fromInt, if_pos hzero]
  · intro hne
    have hvalue : (⟨n, 0⟩ : Scaled).toRat = n := by simp [Scaled.toRat]
    have hrounded := round_magnitude_isRounded F rm (decide (n < 0)) (v := ⟨n, 0⟩) hne
    rw [hvalue] at hrounded
    rw [fromInt, if_neg hne]
    exact_mod_cast hrounded

/-- The branches of `Fp.convert` are the rows of R206. -/
theorem convert_isConverted (F G : Format) (rm : RoundingMode) (a : Bits F) :
    IsConverted F G rm a (convert F G rm a) := by
  refine table_row rfl rfl fun _ h => table_row rfl h fun _ h => table_row rfl h fun _ h =>
    table_row rfl h fun hnonzero h => ?_
  rw [h]
  exact round_magnitude_isRounded G rm _ (mt val_num_eq_zero_iff.1 hnonzero)

end Fp

/-- Settles O36: each of the four is `State.halfToInt` of its type's range. -/
theorem halfToIntegerCompletes : Obligations.HalfToIntegerCompletes := by
  unfold Obligations.HalfToIntegerCompletes
  intro s rd rs1 rm i n lo hi h
  have hexec : exec i s = .next (s.halfToInt i rd rs1 rm n lo hi) := by
    obtain ⟨rfl, rfl, rfl, rfl⟩ | ⟨rfl, rfl, rfl, rfl⟩ | ⟨rfl, rfl, rfl, rfl⟩ | ⟨rfl, rfl, rfl, rfl⟩ := h <;> rfl
  have hrange : lo ≤ hi := by
    obtain ⟨-, -, rfl, rfl⟩ | ⟨-, -, rfl, rfl⟩ | ⟨-, -, rfl, rfl⟩ | ⟨-, -, rfl, rfl⟩ := h <;> norm_num
  obtain ⟨hraise, hrun⟩ := raises_or_runs_of_whenRounding hexec
  exact ⟨hraise, fun r hon hr => ⟨_, _, _, hrun r hon hr, Fp.toInt_isToInt .H r (s.operand .H rs1) hrange,
    State.finishX_wroteX (Params.truncX_sextX _ _) rd _⟩⟩

/-- Settles O37: each of the four is `State.intToHalf` of the source integer. -/
theorem integerToHalfCompletes : Obligations.IntegerToHalfCompletes := by
  unfold Obligations.IntegerToHalfCompletes
  intro s rd rs1 rm i n h
  have hlow : (s.readX rs1).extractLsb' 0 32 = (s.readX rs1).setWidth 32 :=
    (BitVec.setWidth_eq_extractLsb' (by decide)).symm
  have hexec : exec i s = .next (s.intToHalf i rd rm n) := by
    rw [hlow] at h
    obtain ⟨rfl, rfl⟩ | ⟨rfl, rfl⟩ | ⟨rfl, rfl⟩ | ⟨rfl, rfl⟩ := h <;> rfl
  obtain ⟨hraise, hcomplete⟩ := raises_or_completes_of_whenRounding (result := fun r => Fp.fromInt .H r n) hexec
  refine ⟨hraise, fun r hon hr => ?_⟩
  obtain ⟨t, hnext, hwrote⟩ := hcomplete r hon hr
  exact ⟨t, _, hnext, Fp.fromInt_isFromInt .H r n, hwrote⟩

/-- Settles O38: each of the six is `State.convertFp` of its formats; where it exists its result fits the register. -/
theorem formatConversionCompletes : Obligations.FormatConversionCompletes := by
  unfold Obligations.FormatConversionCompletes
  intro s rd rs1 rm i F G h
  have hexec : exec i s = .next (s.convertFp i F G rd rs1 rm) := by
    obtain ⟨rfl, rfl, rfl⟩ | ⟨rfl, rfl, rfl⟩ | ⟨rfl, rfl, rfl⟩ | ⟨rfl, rfl, rfl⟩ | ⟨rfl, rfl, rfl⟩ | ⟨rfl, rfl, rfl⟩ :=
      h <;> rfl
  have hfits : i.existsOn s.params = true → G.width ≤ s.params.flen := by
    obtain ⟨rfl, -, rfl⟩ | ⟨-, -, rfl⟩ | ⟨rfl, -, rfl⟩ | ⟨-, -, rfl⟩ | ⟨rfl, -, rfl⟩ | ⟨-, -, rfl⟩ := h
    · exact fun _ => width_S_le_flen s.params
    · exact fun _ => width_H_le_flen s.params
    · exact width_D_le_flen
    · exact fun _ => width_H_le_flen s.params
    · exact width_Q_le_flen
    · exact fun _ => width_H_le_flen s.params
  obtain ⟨hraise, hrun⟩ := raises_or_runs_of_whenRounding hexec
  refine ⟨hraise, fun r hon hr => ?_⟩
  have ⟨hexists, _⟩ := hon
  exact ⟨_, _, hrun r hon hr, Fp.convert_isConverted F G r (s.operand F rs1),
    State.finishF_wroteF (truncF_box _ _ _ (hfits hexists)) rd _⟩

/-- Settles O39: each of the three is `State.signInject` of its rule for the sign. -/
theorem signInjectionCompletes : Obligations.SignInjectionCompletes := by
  unfold Obligations.SignInjectionCompletes
  intro s rd rs1 rs2 a b i sgn h
  have hlow : a.extractLsb' 0 15 = a.setWidth 15 := (BitVec.setWidth_eq_extractLsb' (by decide)).symm
  have hexec : exec i s = .next (s.whenFpOn i
      (s.finishF rd (box s.params .H (BitVec.ofBool sgn ++ a.extractLsb' 0 15)) flagNone)) := by
    rw [hlow]
    obtain ⟨rfl, rfl⟩ | ⟨rfl, rfl⟩ | ⟨rfl, rfl⟩ := h <;> rfl
  exact raises_or_completes_of_whenFpOn (result := (BitVec.ofBool sgn ++ a.extractLsb' 0 15, flagNone)) hexec

/-- Settles O40: the rows of the two moves, the gate, and the 16 bits that pass it. -/
theorem movesComplete : Obligations.MovesComplete := by
  unfold Obligations.MovesComplete
  refine ⟨fun _ => decodeWord_fmvXH, fun _ => decodeWord_fmvHX, fun s => ⟨fun rd rs1 => ?_, fun rd rs1 => ?_⟩⟩
  · obtain ⟨hraise, hrun⟩ := raises_or_runs_of_whenFpOn (i := .fmvXH rd rs1) (s := s) rfl
    rw [enabled_iff_fs_ne_zero rfl] at hraise hrun
    refine ⟨fun hoff => hraise (not_not.2 hoff), fun hon => ⟨_, hrun hon, ?_⟩⟩
    rw [State.rawHalf, BitVec.setWidth_eq_extractLsb' (by decide)]
    exact State.finishX_wroteX (Params.truncX_sextX _ _) rd _
  · obtain ⟨hraise, hrun⟩ := raises_or_runs_of_whenFpOn (i := .fmvHX rd rs1) (s := s) rfl
    rw [enabled_iff_fs_ne_zero rfl] at hraise hrun
    refine ⟨fun hoff => hraise (not_not.2 hoff), fun hon => ⟨_, hrun hon, ?_⟩⟩
    rw [BitVec.setWidth_eq_extractLsb' (by decide)]
    exact State.finishF_wroteF (truncF_box _ _ _ (width_H_le_flen _)) rd _

end Machine

end Sys2Proof
end

section
/-! PROOFS. 44_compare.md: the reserved selectors of the compare group, and FEQ.H, FLT.H and FLE.H. -/

namespace Sys2Proof

/-! ### A truth value in an integer register (R11, R240) -/

/-- A truth value fits every XLEN: it is 1 or 0. -/
theorem Params.zextX_ofBool (p : Params) (c : Bool) : p.zextX (BitVec.ofBool c) = if c then 1 else 0 := by
  cases h : p.xlen with
  | rv32 => cases c <;> simp [Params.zextX, Params.truncX, Params.xbits_of_rv32 h]
  | rv64 => cases c <;> simp [Params.zextX, Params.truncX, Params.xbits_of_rv64 h]

/-! ### The reserved selectors of the compare group (R93, R97, R244) -/

/-- A row that accepts a word agrees with each field of it, on the bits of the field that its mask reads. -/
theorem OpcodeRow.extractLsb'_of_accepts {r : OpcodeRow} {w : InstWord} (h : r.accepts w = true) (start len : Nat) :
    w.extractLsb' start len &&& r.mask.extractLsb' start len = r.pattern.extractLsb' start len := by
  have hword : w &&& r.mask = r.pattern := beq_iff_eq.1 h
  rw [← BitVec.extractLsb'_and, hword]

/-- A row that agrees with the compare group's opcode, `fmt` and `funct5` reads the whole `rm` field and asks for 0, 1 or
2. -/
theorem compare_rows_read_funct3 : ∀ r ∈ opcodeRows,
    0b1010011 &&& opcodeField r.mask = opcodeField r.pattern →
    0b10 &&& r.mask.extractLsb' 25 2 = r.pattern.extractLsb' 25 2 →
    0b10100 &&& r.mask.extractLsb' 27 5 = r.pattern.extractLsb' 27 5 →
    funct3Field r.mask = BitVec.allOnes 3 ∧ (funct3Field r.pattern).toNat < 0b011 := by
  decide

/-- R244: no row accepts a word of the compare group with an `rm` field of 3 to 7. -/
theorem not_accepts_of_reserved_compare {w : InstWord} (hopcode : opcodeField w = 0b1010011)
    (hfmt : w.extractLsb' 25 2 = 0b10) (hfunct5 : w.extractLsb' 27 5 = 0b10100)
    (hrm : 0b011 ≤ (funct3Field w).toNat) : ∀ r ∈ opcodeRows, r.accepts w = false := by
  intro r hr
  refine Bool.eq_false_iff.2 fun haccepts => ?_
  have hfields := OpcodeRow.extractLsb'_of_accepts haccepts
  obtain ⟨hmask, hpattern⟩ := compare_rows_read_funct3 r hr (hopcode ▸ hfields 0 7) (hfmt ▸ hfields 25 2)
    (hfunct5 ▸ hfields 27 5)
  have hfunct3 : funct3Field w = funct3Field r.pattern := by
    have hfield : funct3Field w &&& funct3Field r.mask = funct3Field r.pattern := hfields 12 3
    rwa [hmask, BitVec.and_allOnes] at hfield
  rw [hfunct3] at hrm
  omega

/-- Four bytes whose word no row accepts do not decode. -/
theorem decode_of_decodeWord_error {b0 b1 b2 b3 : Byte} {e : DecodeError}
    (h : decodeWord (wordOfBytes b0 b1 b2 b3) = .error e) (rest : List Byte) :
    decode (b0 :: b1 :: b2 :: b3 :: rest) = .error e := by
  simp only [decode, h]

namespace Machine

/-- R301 cause 1: a runnable state whose word decodes to nothing raises `IllegalInstruction` with the word. -/
theorem step_of_undecoded {s : State} (hrun : Runnable s) (h : ∀ i, decodeWord (wordAt s) ≠ .ok i) :
    step s = .next (s.raise (.illegalInstruction (wordAt s))) := by
  cases hword : decodeWord (wordAt s) with
  | ok i => exact absurd hword (h i)
  | error e =>
    simp only [step, hrun.running, hrun.fetch_eq, decode_of_decodeWord_error hword]
    rfl

/-- Settles O5: no row accepts such a word, and a word that decodes to nothing raises. -/
theorem reservedCompareSelectorsRaise : Obligations.ReservedCompareSelectorsRaise := by
  unfold Obligations.ReservedCompareSelectorsRaise
  intro w hopcode hfmt hfunct5 hrm
  have hnone : ∀ i, decodeWord w ≠ .ok i :=
    decodeWord_ne_ok_of_no_row (not_accepts_of_reserved_compare hopcode hfmt hfunct5 hrm)
  refine ⟨hnone, fun s hrun hword => ?_⟩
  subst hword
  exact step_of_undecoded hrun hnone

namespace Fp

/-! ### The order of a format, on the integers its patterns spell (R111, R240) -/

/-- The bits below the sign bit, as a number. -/
def magnitudeBits (F : Format) (a : Bits F) : ℕ := (a.extractLsb' 0 (F.width - 1)).toNat

/-- The integer whose order is that of the values: the bits below the sign bit, negated under a set sign bit (R240). -/
def key (F : Format) (a : Bits F) : ℤ := if sign F a then -(magnitudeBits F a : ℤ) else magnitudeBits F a

/-- The value of the magnitude bits `m`, in units of the least positive number of the format. The bits of infinity count
as those of the number after the largest finite one. -/
def quanta (F : Format) (m : ℕ) : ℕ :=
  if m < 2 ^ F.fracBits then m else (2 ^ F.fracBits + m % 2 ^ F.fracBits) * 2 ^ (m / 2 ^ F.fracBits - 1)

/-- `quanta`, of a key. -/
def signedQuanta (F : Format) (k : ℤ) : ℤ := k.sign * quanta F k.natAbs

/-- The key of plus infinity. -/
def infKey (F : Format) : ℤ := (expOnes F * 2 ^ F.fracBits : ℕ)

/-- `ord` (R240) of the patterns with the key `k`, none of them a NaN. -/
def ordOfKey (F : Format) (k : ℤ) : WithBot (WithTop ℚ) :=
  if k ≤ -infKey F then ⊥
  else if infKey F ≤ k then ((⊤ : WithTop ℚ) : WithBot (WithTop ℚ))
  else (((signedQuanta F k : ℚ) * 2 ^ (F.emin - F.fracBits) : ℚ) : WithTop ℚ)

section
variable {F : Format} {a : Bits F}

theorem magnitudeBits_eq (F : Format) (a : Bits F) :
    magnitudeBits F a = expField F a * 2 ^ F.fracBits + fracField F a := by
  have hlt := a.isLt
  simp only [magnitudeBits, expField, fracField, BitVec.extractLsb'_toNat, Nat.shiftRight_eq_div_pow]
  cases F <;> simp only [Format.width, Format.expBits, Format.fracBits] at hlt ⊢ <;> omega

theorem quanta_of_expField_zero (F : Format) {T : ℕ} (hT : T < 2 ^ F.fracBits) : quanta F T = T := if_pos hT

theorem quanta_of_expField_succ (F : Format) (E : ℕ) {T : ℕ} (hT : T < 2 ^ F.fracBits) :
    quanta F ((E + 1) * 2 ^ F.fracBits + T) = (2 ^ F.fracBits + T) * 2 ^ E := by
  have hmod : ((E + 1) * 2 ^ F.fracBits + T) % 2 ^ F.fracBits = T := by
    rw [Nat.mul_add_mod_self_right, Nat.mod_eq_of_lt hT]
  have hdiv : ((E + 1) * 2 ^ F.fracBits + T) / 2 ^ F.fracBits = E + 1 := by
    rw [Nat.mul_comm, Nat.mul_add_div (by positivity), Nat.div_eq_of_lt hT, Nat.add_zero]
  have hge : ¬ (E + 1) * 2 ^ F.fracBits + T < 2 ^ F.fracBits := by
    rw [Nat.add_one_mul]
    omega
  rw [quanta, if_neg hge, hmod, hdiv, Nat.add_sub_cancel]

/-- From each pattern to the next the value grows: within a binade by its unit, and from the last pattern of a binade to
the first of the next. -/
theorem quanta_strictMono (F : Format) : StrictMono (quanta F) := by
  refine strictMono_nat_of_lt_succ fun m => ?_
  have hpos : 0 < 2 ^ F.fracBits := by positivity
  obtain ⟨E, T, hT, rfl⟩ : ∃ E T, T < 2 ^ F.fracBits ∧ m = E * 2 ^ F.fracBits + T :=
    ⟨_, _, Nat.mod_lt m hpos, (Nat.div_add_mod' m _).symm⟩
  by_cases hlast : T + 1 = 2 ^ F.fracBits
  · have hnext : E * 2 ^ F.fracBits + T + 1 = (E + 1) * 2 ^ F.fracBits + 0 := by
      rw [Nat.add_assoc, hlast, Nat.add_one_mul, Nat.add_zero]
    rw [hnext, quanta_of_expField_succ F E hpos]
    cases E with
    | zero =>
      rw [Nat.zero_mul, Nat.zero_add, quanta_of_expField_zero F hT]
      omega
    | succ E =>
      rw [quanta_of_expField_succ F E hT]
      calc (2 ^ F.fracBits + T) * 2 ^ E < (2 ^ F.fracBits * 2) * 2 ^ E :=
            Nat.mul_lt_mul_of_pos_right (by omega) (by positivity)
        _ = (2 ^ F.fracBits + 0) * 2 ^ (E + 1) := by ring
  · have hT' : T + 1 < 2 ^ F.fracBits := by omega
    rw [Nat.add_assoc]
    cases E with
    | zero =>
      rw [Nat.zero_mul, Nat.zero_add, Nat.zero_add, quanta_of_expField_zero F hT, quanta_of_expField_zero F hT']
      exact Nat.lt_succ_self T
    | succ E =>
      rw [quanta_of_expField_succ F E hT, quanta_of_expField_succ F E hT']
      exact Nat.mul_lt_mul_of_pos_right (by omega) (by positivity)

theorem quanta_zero (F : Format) : quanta F 0 = 0 := quanta_of_expField_zero F (by positivity)

theorem signedQuanta_neg (F : Format) (k : ℤ) : signedQuanta F (-k) = -signedQuanta F k := by
  rw [signedQuanta, Int.sign_neg, Int.natAbs_neg, neg_mul, signedQuanta]

theorem signedQuanta_natCast (F : Format) (m : ℕ) : signedQuanta F m = quanta F m := by
  cases m with
  | zero => simp [signedQuanta, quanta_zero]
  | succ m => rw [signedQuanta, Int.sign_natCast_of_ne_zero m.succ_ne_zero, one_mul, Int.natAbs_natCast]

theorem signedQuanta_strictMono (F : Format) : StrictMono (signedQuanta F) := by
  refine strictMono_of_odd_strictMonoOn_nonneg (signedQuanta_neg F) fun k hk l hl hlt => ?_
  lift k to ℕ using hk
  lift l to ℕ using hl
  rw [signedQuanta_natCast, signedQuanta_natCast]
  exact_mod_cast quanta_strictMono F (by exact_mod_cast hlt)

/-- Between the infinities the order of the keys is that of the values, and the infinities lie outside. -/
theorem ordOfKey_strictMonoOn (F : Format) : StrictMonoOn (ordOfKey F) (Set.Icc (-infKey F) (infKey F)) := by
  intro k hk l hl hlt
  have hk_top : ¬ infKey F ≤ k := by have := hl.2; omega
  have hl_bot : ¬ l ≤ -infKey F := by have := hk.1; omega
  simp only [ordOfKey, if_neg hk_top, if_neg hl_bot]
  split_ifs with hk_bot hl_top hl_top
  · exact WithBot.bot_lt_coe _
  · exact WithBot.bot_lt_coe _
  · exact WithBot.coe_lt_coe.2 (WithTop.coe_lt_top _)
  · have hvalue : (signedQuanta F k : ℚ) < signedQuanta F l := by exact_mod_cast signedQuanta_strictMono F hlt
    exact WithBot.coe_lt_coe.2 (WithTop.coe_lt_coe.2 (mul_lt_mul_of_pos_right hvalue (by positivity)))

/-! ### The key of a pattern gives its value -/

theorem abs_valQ_eq_quanta (F : Format) (a : Bits F) :
    |valQ F a| = quanta F (magnitudeBits F a) * 2 ^ (F.emin - F.fracBits) := by
  rw [valQ, Scaled.abs_toRat, magnitudeBits_eq]
  cases hE : expField F a with
  | zero =>
    obtain ⟨hnum, hexp⟩ := val_of_expField_zero hE
    rw [hnum, hexp, Nat.zero_mul, Nat.zero_add, quanta_of_expField_zero F fracField_lt]
  | succ E =>
    obtain ⟨hnum, hexp⟩ := val_of_expField_ne_zero (F := F) (a := a) (by omega)
    have hexp' : (val F a).exp = E + (F.emin - F.fracBits) := by
      have := F.emin_add_bias
      omega
    rw [hnum, hexp', quanta_of_expField_succ F E fracField_lt, zpow_add₀ two_ne_zero]
    push_cast
    rw [zpow_natCast, mul_assoc]

theorem valQ_nonpos_of_sign (h : sign F a = true) : valQ F a ≤ 0 := by
  have hnum : (val F a).num ≤ 0 := by
    unfold val
    rw [if_pos h]
    split <;> exact neg_nonpos.2 (Int.natCast_nonneg _)
  exact mul_nonpos_of_nonpos_of_nonneg (by exact_mod_cast hnum) (by positivity)

theorem valQ_eq_signedQuanta (F : Format) (a : Bits F) :
    valQ F a = signedQuanta F (key F a) * 2 ^ (F.emin - F.fracBits) := by
  have habs := abs_valQ_eq_quanta F a
  by_cases hs : sign F a = true
  · rw [abs_of_nonpos (valQ_nonpos_of_sign hs)] at habs
    rw [key, if_pos hs, signedQuanta_neg, signedQuanta_natCast]
    push_cast
    rw [neg_mul, ← habs, neg_neg]
  · rw [abs_of_nonneg (valQ_nonneg_of_sign hs)] at habs
    rw [key, if_neg hs, signedQuanta_natCast, habs]
    norm_cast

theorem isInf_iff : isInf F a = true ↔ expField F a = expOnes F ∧ fracField F a = 0 := by simp [isInf]

theorem magnitudeBits_of_isInf (h : isInf F a = true) : (magnitudeBits F a : ℤ) = infKey F := by
  obtain ⟨hE, hT⟩ := isInf_iff.1 h
  rw [magnitudeBits_eq, hE, hT, Nat.add_zero, infKey]

/-- The finite numbers lie below infinity. -/
theorem magnitudeBits_lt_infKey (hnan : isNaN F a = false) (hinf : isInf F a = false) :
    (magnitudeBits F a : ℤ) < infKey F := by
  have hE : expField F a + 1 ≤ expOnes F := by
    have hlt : expField F a < 2 ^ F.expBits := expField_lt
    have hne : expField F a ≠ expOnes F := expField_ne_expOnes (by simp [hnan]) (by simp [hinf])
    unfold expOnes at hne ⊢
    omega
  have hlt : magnitudeBits F a < expOnes F * 2 ^ F.fracBits := by
    calc magnitudeBits F a = expField F a * 2 ^ F.fracBits + fracField F a := magnitudeBits_eq F a
      _ < (expField F a + 1) * 2 ^ F.fracBits := by
          rw [Nat.add_one_mul]
          exact Nat.add_lt_add_left fracField_lt _
      _ ≤ expOnes F * 2 ^ F.fracBits := Nat.mul_le_mul_right _ hE
  exact Int.ofNat_lt.2 hlt

theorem abs_key (F : Format) (a : Bits F) : |key F a| = magnitudeBits F a := by
  unfold key
  split
  · rw [abs_neg, Nat.abs_cast]
  · exact Nat.abs_cast _

theorem key_mem_Icc (hnan : isNaN F a = false) : key F a ∈ Set.Icc (-infKey F) (infKey F) := by
  rw [Set.mem_Icc, ← abs_le, abs_key]
  cases hinf : isInf F a with
  | true => exact (magnitudeBits_of_isInf hinf).le
  | false => exact (magnitudeBits_lt_infKey hnan hinf).le

theorem infKey_pos (F : Format) : 0 < infKey F := by cases F <;> decide

/-- `ord` depends on a pattern through its key only: the two zeros share the key 0. -/
theorem ordQ_eq_ordOfKey (hnan : isNaN F a = false) : ordQ F a = ordOfKey F (key F a) := by
  have hpos := infKey_pos F
  cases hinf : isInf F a with
  | true =>
    have hmag := magnitudeBits_of_isInf hinf
    cases hs : sign F a with
    | true => simp [ordQ, ordOfKey, key, hinf, hs, hmag]
    | false => simp [ordQ, ordOfKey, key, hinf, hs, hmag, show ¬ infKey F ≤ -infKey F by omega]
  | false =>
    have habs : |key F a| < infKey F := abs_key F a ▸ magnitudeBits_lt_infKey hnan hinf
    obtain ⟨hbot, htop⟩ := abs_lt.1 habs
    rw [ordQ, hinf, if_neg Bool.false_ne_true, ordOfKey, if_neg hbot.not_ge, if_neg htop.not_ge, valQ_eq_signedQuanta]

variable {b : Bits F}

theorem ordQ_lt_iff_key_lt (ha : isNaN F a = false) (hb : isNaN F b = false) :
    ordQ F a < ordQ F b ↔ key F a < key F b := by
  rw [ordQ_eq_ordOfKey ha, ordQ_eq_ordOfKey hb]
  exact (ordOfKey_strictMonoOn F).lt_iff_lt (key_mem_Icc ha) (key_mem_Icc hb)

theorem ordQ_eq_iff_key_eq (ha : isNaN F a = false) (hb : isNaN F b = false) :
    ordQ F a = ordQ F b ↔ key F a = key F b := by
  rw [ordQ_eq_ordOfKey ha, ordQ_eq_ordOfKey hb]
  exact (ordOfKey_strictMonoOn F).injOn.eq_iff (key_mem_Icc ha) (key_mem_Icc hb)

end

/-! ### The three comparisons (R240) -/

/-- The relation a comparison asks of the extended real values. -/
def Comparison.Holds (op : Comparison) (v u : WithBot (WithTop ℚ)) : Prop :=
  match op with
  | .EQ => v = u
  | .LT => v < u
  | .LE => v ≤ u

/-- The operands for which a comparison sets NV. -/
def Comparison.invalid (op : Comparison) (F : Format) (a b : Bits F) : Bool :=
  match op with
  | .EQ => isSNaN F a || isSNaN F b
  | .LT | .LE => isNaN F a || isNaN F b

theorem ExtVal.eq_iff (v u : ExtVal) : v.eq u = true ↔ v.toExtRat = u.toExtRat := by
  cases v with
  | negInf => cases u <;> simp [ExtVal.eq, ExtVal.toExtRat]
  | fin v => cases u <;> simp [ExtVal.eq, ExtVal.toExtRat, Scaled.eq_iff]
  | posInf => cases u <;> simp [ExtVal.eq, ExtVal.toExtRat]

theorem ord_eq_iff (F : Format) (a b : Bits F) : (ord F a).eq (ord F b) = true ↔ ordQ F a = ordQ F b := by
  rw [ExtVal.eq_iff, ord_toExtRat, ord_toExtRat]

theorem compare_of_nan (F : Format) (op : Comparison) {a b : Bits F} (h : (isNaN F a || isNaN F b) = true) :
    compare F op a b = (false, nvIf (op.invalid F a b)) := by
  unfold compare
  rw [if_pos h]
  cases op with
  | EQ => rfl
  | LT | LE => rw [Comparison.invalid, h]; rfl

theorem invalid_of_not_nan (F : Format) (op : Comparison) {a b : Bits F} (h : (isNaN F a || isNaN F b) = false) :
    op.invalid F a b = false := by
  obtain ⟨ha, hb⟩ := Bool.or_eq_false_iff.1 h
  cases op with
  | EQ => simp [Comparison.invalid, isSNaN, ha, hb]
  | LT | LE => exact h

theorem compare_of_not_nan (F : Format) (op : Comparison) {a b : Bits F} (h : (isNaN F a || isNaN F b) = false) :
    ((compare F op a b).1 = true ↔ op.Holds (ordQ F a) (ordQ F b)) ∧ (compare F op a b).2 = flagNone := by
  unfold compare
  rw [if_neg (Bool.eq_false_iff.1 h)]
  cases op with
  | EQ => exact ⟨ord_eq_iff F a b, rfl⟩
  | LT => exact ⟨ord_lt_iff F a b, rfl⟩
  | LE =>
    refine ⟨?_, rfl⟩
    rw [Bool.or_eq_true, ord_lt_iff, ord_eq_iff]
    exact le_iff_lt_or_eq.symm

/-- The outcome of a comparison: a NaN operand makes it false, whatever is asked. -/
theorem compare_fst_iff (F : Format) (op : Comparison) (a b : Bits F) :
    (compare F op a b).1 = true ↔ (isNaN F a || isNaN F b) = false ∧ op.Holds (ordQ F a) (ordQ F b) := by
  cases h : isNaN F a || isNaN F b with
  | true => simp [compare_of_nan F op h]
  | false => simpa using (compare_of_not_nan F op h).1

theorem compare_snd (F : Format) (op : Comparison) (a b : Bits F) :
    (compare F op a b).2 = if op.invalid F a b then flagNV else flagNone := by
  cases h : isNaN F a || isNaN F b with
  | true => rw [compare_of_nan F op h]; rfl
  | false => rw [(compare_of_not_nan F op h).2, invalid_of_not_nan F op h]; rfl

end Fp

/-- Settles O41: each of the three is `State.compareHalf` of its comparison, whose order is that of the key. -/
theorem comparesComplete : Obligations.ComparesComplete := by
  unfold Obligations.ComparesComplete
  intro s rd rs1 rs2 a b nan snan key
  constructor
  · intro hnan
    obtain ⟨ha, hb⟩ := Bool.or_eq_false_iff.1 hnan
    exact ⟨Fp.ordQ_lt_iff_key_lt ha hb, Fp.ordQ_eq_iff_key_eq ha hb⟩
  · intro i holds invalid h
    obtain ⟨op, hexec, rfl, rfl⟩ : ∃ op : Fp.Comparison, exec i s = .next (s.compareHalf i rd rs1 rs2 op) ∧
        holds = op.Holds (Fp.ordQ .H a) (Fp.ordQ .H b) ∧ invalid = op.invalid .H a b := by
      obtain ⟨rfl, rfl, rfl⟩ | ⟨rfl, rfl, rfl⟩ | ⟨rfl, rfl, rfl⟩ := h
      exacts [⟨.EQ, rfl, rfl, rfl⟩, ⟨.LT, rfl, rfl, rfl⟩, ⟨.LE, rfl, rfl, rfl⟩]
    obtain ⟨hraise, hrun⟩ := raises_or_runs_of_whenFpOn hexec
    refine ⟨hraise, fun hon => ⟨_, s.params.zextX (BitVec.ofBool (Fp.compare .H op a b).1), hrun hon, ?_,
      fun htrue => ?_, fun hfalse => ?_⟩⟩
    · rw [← Fp.compare_snd]
      exact State.finishX_wroteX (Params.truncX_zextX _ _) rd _
    · rw [Params.zextX_ofBool, if_pos ((Fp.compare_fst_iff .H op a b).2 htrue)]
    · rw [Params.zextX_ofBool, if_neg (mt (Fp.compare_fst_iff .H op a b).1 hfalse)]

end Machine

end Sys2Proof
end

section
/-! PROOFS. 45_classify.md: the reserved selectors of the FMV.X.H and FCLASS.H group, and FCLASS.H. -/

namespace Sys2Proof

/-! ### The move and classify group (R93, R97, R251) -/

theorem decodeWord_fclassH {w : InstWord} (h : w &&& 0xFFF0707F = 0xE4001053) :
    decodeWord w = .ok (.fclassH (rdField w) (rs1Field w)) :=
  decodeWord_of_getElem? (n := 34) rfl (by decide) h

/-- A field that the row's mask reads whole is the pattern's, in every word the row accepts. -/
theorem OpcodeRow.extractLsb'_eq_of_accepts {r : OpcodeRow} {w : InstWord} (h : r.accepts w = true) {start len : Nat}
    (hmask : r.mask.extractLsb' start len = BitVec.allOnes len) :
    w.extractLsb' start len = r.pattern.extractLsb' start len := by
  rw [← OpcodeRow.extractLsb'_of_accepts h, hmask, BitVec.and_allOnes]

/-- A row that agrees with the group's opcode, `fmt` and `funct5` reads the whole `rm` and `rs2` fields, and asks for an
`rm` of 0 or 1 and an `rs2` of 0: it is FMV.X.H's or FCLASS.H's. -/
theorem move_rows_read_funct3_rs2 : ∀ r ∈ opcodeRows,
    0b1010011 &&& opcodeField r.mask = opcodeField r.pattern →
    0b10 &&& r.mask.extractLsb' 25 2 = r.pattern.extractLsb' 25 2 →
    0b11100 &&& r.mask.extractLsb' 27 5 = r.pattern.extractLsb' 27 5 →
    (funct3Field r.mask = BitVec.allOnes 3 ∧ (funct3Field r.pattern).toNat < 0b010) ∧
    (rs2Field r.mask = BitVec.allOnes 5 ∧ rs2Field r.pattern = 0) := by
  decide

/-- R251: no row accepts a word of the group with an `rm` field of 2 to 7 or a non-zero `rs2` field. -/
theorem not_accepts_of_reserved_move {w : InstWord} (hopcode : opcodeField w = 0b1010011)
    (hfmt : w.extractLsb' 25 2 = 0b10) (hfunct5 : w.extractLsb' 27 5 = 0b11100)
    (hreserved : 0b010 ≤ (funct3Field w).toNat ∨ rs2Field w ≠ 0) : ∀ r ∈ opcodeRows, r.accepts w = false := by
  intro r hr
  refine Bool.eq_false_iff.2 fun haccepts => ?_
  have hfields := OpcodeRow.extractLsb'_of_accepts haccepts
  obtain ⟨⟨hrmMask, hrm⟩, hrs2Mask, hrs2⟩ := move_rows_read_funct3_rs2 r hr (hopcode ▸ hfields 0 7)
    (hfmt ▸ hfields 25 2) (hfunct5 ▸ hfields 27 5)
  have hfunct3 : funct3Field w = funct3Field r.pattern := OpcodeRow.extractLsb'_eq_of_accepts haccepts hrmMask
  have hrs2Field : rs2Field w = rs2Field r.pattern := OpcodeRow.extractLsb'_eq_of_accepts haccepts hrs2Mask
  obtain hbig | hnonzero := hreserved
  · rw [hfunct3] at hbig
    omega
  · exact hnonzero (hrs2Field.trans hrs2)

/-! ### A single bit in an integer register (R8, R11) -/

theorem Params.le_xbits (p : Params) : 32 ≤ p.xbits := by unfold Params.xbits; split <;> decide

/-- One of the low 32 bits alone fits every XLEN. -/
theorem Params.truncX_twoPow (p : Params) {k : Nat} (hk : k < 32) :
    p.truncX (BitVec.twoPow 64 k) = BitVec.twoPow 64 k := by
  have hxlen : 2 ^ k < 2 ^ p.xbits := Nat.pow_lt_pow_right (by decide) (hk.trans_le p.le_xbits)
  have hword : 2 ^ k < 2 ^ 64 := Nat.pow_lt_pow_right (by decide) (by omega)
  apply BitVec.eq_of_toNat_eq
  rw [Params.truncX_toNat, BitVec.toNat_twoPow, Nat.mod_eq_of_lt hword, Nat.mod_eq_of_lt hxlen]

theorem Params.zextX_twoPow (p : Params) {k : Nat} (hk : k < 32) :
    p.zextX (BitVec.twoPow 64 k) = BitVec.twoPow 64 k := by
  rw [Params.zextX, BitVec.setWidth_eq, p.truncX_twoPow hk]

namespace Machine

/-- Settles O6: no row accepts such a word, and a word that decodes to nothing raises. -/
theorem reservedMoveSelectorsRaise : Obligations.ReservedMoveSelectorsRaise := by
  unfold Obligations.ReservedMoveSelectorsRaise
  intro w hopcode hfmt hfunct5 hreserved
  have hnone : ∀ i, decodeWord w ≠ .ok i :=
    decodeWord_ne_ok_of_no_row (not_accepts_of_reserved_move hopcode hfmt hfunct5 hreserved)
  refine ⟨hnone, fun s hrun hword => ?_⟩
  subst hword
  exact step_of_undecoded hrun hnone

namespace Fp

/-! ### The ten classes (R250) -/

/-- The pattern meets the condition of row `k` of R250's table, for any format: the exponent field of a normal number
lies strictly between 0 and the ones of an infinity or NaN, and the top fraction bit tells a quiet NaN. -/
def InClass (F : Format) (a : Bits F) : Nat → Prop
  | 0 => a = inf F true
  | 1 => sign F a = true ∧ 1 ≤ expField F a ∧ expField F a ≤ expOnes F - 1
  | 2 => sign F a = true ∧ expField F a = 0 ∧ fracField F a ≠ 0
  | 3 => a = zero F true
  | 4 => a = zero F false
  | 5 => sign F a = false ∧ expField F a = 0 ∧ fracField F a ≠ 0
  | 6 => sign F a = false ∧ 1 ≤ expField F a ∧ expField F a ≤ expOnes F - 1
  | 7 => a = inf F false
  | 8 => expField F a = expOnes F ∧ fracField F a ≠ 0 ∧ a.getLsbD (F.fracBits - 1) = false
  | 9 => expField F a = expOnes F ∧ a.getLsbD (F.fracBits - 1) = true
  | _ => False

theorem expOnes_pos (F : Format) : 0 < expOnes F := by cases F <;> decide

theorem zero_fields (F : Format) (s : Bool) : HasFields F (zero F s) s 0 0 :=
  pack_fields F s (by positivity) (by positivity)

section

variable {F : Format} {a : Bits F}

theorem expField_le_expOnes : expField F a ≤ expOnes F := Nat.le_sub_one_of_lt expField_lt

/-- A pattern is determined by its sign and its two fields (R111). -/
theorem HasFields.eq_pack {s : Bool} {E T : ℕ} (h : HasFields F a s E T) : a = pack F s E T := by
  obtain ⟨rfl, rfl, rfl⟩ := h
  exact eq_pack_fields F a

/-- The top bit of the fraction is a bit of the fraction field. -/
theorem fracField_ne_zero_of_top_bit (h : a.getLsbD (F.fracBits - 1) = true) : fracField F a ≠ 0 := by
  have hlt : F.fracBits - 1 < F.fracBits := by cases F <;> decide
  have hbit : (a.extractLsb' 0 F.fracBits).getLsbD (F.fracBits - 1) = true := by
    rw [BitVec.getLsbD_extractLsb', Nat.zero_add, h, decide_eq_true hlt, Bool.true_and]
  intro hzero
  have hfrac : a.extractLsb' 0 F.fracBits = 0#_ := BitVec.eq_of_toNat_eq hzero
  simp [hfrac] at hbit

/-! The index, from the fields: one equation for each kind of exponent and fraction field. -/

theorem classIndex_of_isNaN (hE : expField F a = expOnes F) (hT : fracField F a ≠ 0) :
    classIndex F a = if a.getLsbD (F.fracBits - 1) then 9 else 8 := by
  cases hbit : a.getLsbD (F.fracBits - 1) <;> simp [classIndex, isSNaN, isQNaN, isNaN, hE, hT, hbit]

theorem classIndex_of_isInf (hE : expField F a = expOnes F) (hT : fracField F a = 0) :
    classIndex F a = if sign F a then 0 else 7 := by
  have hpos : expOnes F ≠ 0 := (expOnes_pos F).ne'
  simp [classIndex, isSNaN, isQNaN, isNaN, isInf, isZero, isSub, isNormal, hE, hT, hpos]

theorem classIndex_of_isNormal (hlo : 1 ≤ expField F a) (hhi : expField F a ≤ expOnes F - 1) :
    classIndex F a = if sign F a then 1 else 6 := by
  have hzero : expField F a ≠ 0 := by omega
  have hones : expField F a ≠ expOnes F := by omega
  simp [classIndex, isSNaN, isQNaN, isNaN, isInf, isZero, isSub, isNormal, hzero, hones]

theorem classIndex_of_isSub (hE : expField F a = 0) (hT : fracField F a ≠ 0) :
    classIndex F a = if sign F a then 2 else 5 := by
  have hones : 0 ≠ expOnes F := (expOnes_pos F).ne
  simp [classIndex, isSNaN, isQNaN, isNaN, isInf, isZero, isSub, isNormal, hE, hT, hones]

theorem classIndex_of_isZero (hE : expField F a = 0) (hT : fracField F a = 0) :
    classIndex F a = if sign F a then 3 else 4 := by
  have hones : 0 ≠ expOnes F := (expOnes_pos F).ne
  simp [classIndex, isSNaN, isQNaN, isNaN, isInf, isZero, isSub, isNormal, hE, hT, hones]

/-- The conditions exclude each other: one that holds decides the index. -/
theorem classIndex_of_inClass {k : ℕ} (h : InClass F a k) : classIndex F a = k := by
  match k, h with
  | 0, h | 7, h =>
    obtain ⟨hs, hE, hT⟩ := h ▸ inf_fields F _
    rw [classIndex_of_isInf hE hT, hs]; rfl
  | 3, h | 4, h =>
    obtain ⟨hs, hE, hT⟩ := h ▸ zero_fields F _
    rw [classIndex_of_isZero hE hT, hs]; rfl
  | 1, ⟨hs, hlo, hhi⟩ | 6, ⟨hs, hlo, hhi⟩ => rw [classIndex_of_isNormal hlo hhi, hs]; rfl
  | 2, ⟨hs, hE, hT⟩ | 5, ⟨hs, hE, hT⟩ => rw [classIndex_of_isSub hE hT, hs]; rfl
  | 8, ⟨hE, hT, hbit⟩ => rw [classIndex_of_isNaN hE hT, hbit]; rfl
  | 9, ⟨hE, hbit⟩ => rw [classIndex_of_isNaN hE (fracField_ne_zero_of_top_bit hbit), hbit]; rfl

/-- The conditions are exhaustive. -/
theorem exists_inClass (F : Format) (a : Bits F) : ∃ k ≤ 9, InClass F a k := by
  have hmax : expField F a ≤ expOnes F := expField_le_expOnes
  by_cases hzero : expField F a = 0
  · by_cases hT : fracField F a = 0
    · cases hs : sign F a with
      | true => exact ⟨3, by decide, HasFields.eq_pack ⟨hs, hzero, hT⟩⟩
      | false => exact ⟨4, by decide, HasFields.eq_pack ⟨hs, hzero, hT⟩⟩
    · cases hs : sign F a with
      | true => exact ⟨2, by decide, hs, hzero, hT⟩
      | false => exact ⟨5, by decide, hs, hzero, hT⟩
  · by_cases hones : expField F a = expOnes F
    · by_cases hT : fracField F a = 0
      · cases hs : sign F a with
        | true => exact ⟨0, by decide, HasFields.eq_pack ⟨hs, hones, hT⟩⟩
        | false => exact ⟨7, by decide, HasFields.eq_pack ⟨hs, hones, hT⟩⟩
      · cases hbit : a.getLsbD (F.fracBits - 1) with
        | true => exact ⟨9, by decide, hones, hbit⟩
        | false => exact ⟨8, by decide, hones, hT, hbit⟩
    · cases hs : sign F a with
      | true => exact ⟨1, by decide, hs, by omega, by omega⟩
      | false => exact ⟨6, by decide, hs, by omega, by omega⟩

end

theorem classIndex_le (F : Format) (a : Bits F) : classIndex F a ≤ 9 := by
  obtain ⟨k, hk, h⟩ := exists_inClass F a
  exact (classIndex_of_inClass h).trans_le hk

/-- The bit of the class lies within the shorter of the two XLENs. -/
theorem classIndex_lt_xlen (F : Format) (a : Bits F) : classIndex F a < 32 := (classIndex_le F a).trans_lt (by decide)

/-- R250: `k` is the class of a pattern exactly when the pattern meets row `k`'s condition. -/
theorem classIndex_eq_iff (F : Format) (a : Bits F) (k : ℕ) : classIndex F a = k ↔ InClass F a k := by
  refine ⟨fun h => ?_, classIndex_of_inClass⟩
  obtain ⟨j, -, hj⟩ := exists_inClass F a
  rwa [← h, classIndex_of_inClass hj]

end Fp

/-- FCLASS.H is the gate around the write of the one bit of the class, which fits every XLEN. -/
theorem exec_fclassH_eq (s : State) (rd : XReg) (rs1 : FReg) :
    exec (.fclassH rd rs1) s = .next (s.whenFpOn (.fclassH rd rs1)
      (s.finishX rd (BitVec.twoPow 64 (Fp.classIndex .H (s.operand .H rs1))) flagNone)) := by
  rw [← s.params.zextX_twoPow (Fp.classIndex_lt_xlen .H _)]
  rfl

/-- Settles O42: the row of FCLASS.H, the gate, and the one class of the operand, row by row. -/
theorem classifyCompletes : Obligations.ClassifyCompletes := by
  unfold Obligations.ClassifyCompletes
  refine ⟨fun _ => decodeWord_fclassH, fun s rd rs1 => ?_⟩
  obtain ⟨hraise, hrun⟩ := raises_or_runs_of_whenFpOn (exec_fclassH_eq s rd rs1)
  refine ⟨hraise, fun hon => ?_⟩
  intro a neg E T
  have hwrote : WroteX s _ rd (BitVec.twoPow 64 (Fp.classIndex .H a)) flagNone :=
    State.finishX_wroteX (s.params.truncX_twoPow (Fp.classIndex_lt_xlen .H a)) rd flagNone
  have hrow := Fp.classIndex_eq_iff .H a
  exact ⟨_, _, hrun hon, Fp.classIndex_le .H a, hwrote, hrow 0, hrow 1, hrow 2, hrow 3, hrow 4, hrow 5, hrow 6,
    hrow 7, hrow 8, hrow 9⟩

end Machine

end Sys2Proof
end

section
/-! PROOFS. 46_zfhmin.md: the members of Zfhmin, and that what they do does not depend on `LEVEL`. -/

namespace Sys2Proof.Machine

/-! ### `LEVEL` is read by nothing but the existence table: one lemma for each shared operation -/

section
variable (s : State) (l : Level)

@[simp] theorem State.withLevel_fs : (s.withLevel l).fs = s.fs := rfl
@[simp] theorem State.withLevel_checkHalf (a : Word) : (s.withLevel l).checkHalf a = s.checkHalf a := rfl
@[simp] theorem State.withLevel_effectiveAddr (rs1 : XReg) (imm : BitVec 12) :
    (s.withLevel l).effectiveAddr rs1 imm = s.effectiveAddr rs1 imm := rfl
@[simp] theorem State.withLevel_roundingMode (rm : RmField) :
    (s.withLevel l).roundingMode rm = s.roundingMode rm := rfl

theorem State.withLevel_raise (e : Exception) : (s.withLevel l).raise e = (s.raise e).withLevel l := by
  cases h : s.params.trap with
  | fault => rw [State.raise_fault h, State.raise_fault (s := s.withLevel l) h]; rfl
  | mmode => rw [State.raise_mmode h, State.raise_mmode (s := s.withLevel l) h]; rfl

theorem State.withLevel_illegal (i : Instr) : (s.withLevel l).illegal i = (s.illegal i).withLevel l :=
  s.withLevel_raise l _

theorem State.withLevel_writeX (r : XReg) (v : Word) : (s.withLevel l).writeX r v = (s.writeX r v).withLevel l := by
  unfold State.writeX
  split <;> rfl

theorem State.withLevel_finishF (rd : FReg) (v : FWord) (fl : FlagSet) :
    (s.withLevel l).finishF rd v fl = (s.finishF rd v fl).withLevel l := rfl

theorem State.withLevel_finishX (rd : XReg) (v : Word) (fl : FlagSet) :
    (s.withLevel l).finishX rd v fl = (s.finishX rd v fl).withLevel l := by
  rw [State.finishX, State.withLevel_writeX]
  rfl

theorem State.withLevel_writeHalf_completeFp (a : Word) (h : BitVec 16) (dirty : Bool) :
    ((s.withLevel l).writeHalf a h).completeFp dirty = ((s.writeHalf a h).completeFp dirty).withLevel l := rfl

end

section
variable {s : State} {l : Level} {i : Instr}

/-- The gate of an instruction that exists on both harts or on neither. -/
theorem State.withLevel_whenFpOn (hexists : i.existsOn (s.withLevel l).params = i.existsOn s.params)
    {body body' : State} (hbody : body' = body.withLevel l) :
    (s.withLevel l).whenFpOn i body' = (s.whenFpOn i body).withLevel l := by
  have hsame : Enabled (s.withLevel l) i ↔ Enabled s i := by rw [Enabled, Enabled, hexists, State.withLevel_fs]
  by_cases hon : Enabled s i
  · rw [State.whenFpOn_enabled hon, State.whenFpOn_enabled (hsame.2 hon), hbody]
  · rw [State.whenFpOn_disabled hon, State.whenFpOn_disabled (mt hsame.1 hon), State.withLevel_illegal]

end

/-! ### The instructions of Zfhmin -/

/-- The instruction exists and does the same whatever `LEVEL` is: the next state on a hart that differs in `LEVEL` only is
the same but for the parameter (R255). -/
def IndependentOfLevel (i : Instr) : Prop :=
  ∀ (s : State) (l : Level), i.existsOn (s.withLevel l).params = i.existsOn s.params ∧
    ∃ t, exec i s = .next t ∧ exec i (s.withLevel l) = .next (t.withLevel l)

/-- An instruction is independent of `LEVEL` if its row of the existence table and what the gate guards are. -/
theorem independentOfLevel_of_whenFpOn {i : Instr} {body : State → State}
    (hexists : ∀ (s : State) (l : Level), i.existsOn (s.withLevel l).params = i.existsOn s.params)
    (hexec : ∀ s, exec i s = .next (s.whenFpOn i (body s)))
    (hbody : ∀ s l, body (s.withLevel l) = (body s).withLevel l) : IndependentOfLevel i := by
  intro s l
  refine ⟨hexists s l, _, hexec s, ?_⟩
  rw [hexec, State.withLevel_whenFpOn (hexists s l) (hbody s l)]

theorem independentOfLevel_flh (rd : FReg) (rs1 : XReg) (imm : BitVec 12) :
    IndependentOfLevel (.flh rd rs1 imm) := by
  refine independentOfLevel_of_whenFpOn (fun _ _ => rfl) (fun _ => rfl) fun s l => ?_
  rw [State.withLevel_effectiveAddr, State.withLevel_checkHalf]
  cases s.checkHalf (s.effectiveAddr rs1 imm) with
  | misaligned => exact s.withLevel_raise l _
  | outside a => exact s.withLevel_raise l _
  | permitted => exact s.withLevel_finishF l rd _ _

theorem independentOfLevel_fsh (rs2 : FReg) (rs1 : XReg) (imm : BitVec 12) :
    IndependentOfLevel (.fsh rs2 rs1 imm) := by
  refine independentOfLevel_of_whenFpOn (fun _ _ => rfl) (fun _ => rfl) fun s l => ?_
  rw [State.withLevel_effectiveAddr, State.withLevel_checkHalf]
  cases s.checkHalf (s.effectiveAddr rs1 imm) with
  | misaligned => exact s.withLevel_raise l _
  | outside a => exact s.withLevel_raise l _
  | permitted => exact s.withLevel_writeHalf_completeFp l _ _ _

theorem independentOfLevel_fmvXH (rd : XReg) (rs1 : FReg) : IndependentOfLevel (.fmvXH rd rs1) :=
  independentOfLevel_of_whenFpOn (fun _ _ => rfl) (fun _ => rfl) fun s l => s.withLevel_finishX l rd _ _

theorem independentOfLevel_fmvHX (rd : FReg) (rs1 : XReg) : IndependentOfLevel (.fmvHX rd rs1) :=
  independentOfLevel_of_whenFpOn (fun _ _ => rfl) (fun _ => rfl) fun s l => s.withLevel_finishF l rd _ _

/-- A conversion between floating-point formats whose row of the existence table does not ask for `LEVEL`. -/
theorem independentOfLevel_of_convertFp {i : Instr} {F G : Format} {rd rs1 : FReg} {rm : RmField}
    (hexists : ∀ (s : State) (l : Level), i.existsOn (s.withLevel l).params = i.existsOn s.params)
    (hexec : ∀ s, exec i s = .next (s.convertFp i F G rd rs1 rm)) : IndependentOfLevel i := by
  refine independentOfLevel_of_whenFpOn hexists hexec fun s l => ?_
  rw [State.withLevel_roundingMode]
  cases s.roundingMode rm with
  | none => exact s.withLevel_illegal l i
  | some r => exact s.withLevel_finishF l rd _ _

/-- R255, R256: only the moves, the load, the store and the conversions between floating-point formats exist with
`LEVEL` = Zfhmin, and none of them depends on `LEVEL`. -/
theorem independentOfLevel_of_existsOn_zfhmin {i : Instr} {p : Params} (hz : i.isZfh = true) (hmin : p.level = .zfhmin)
    (hexists : i.existsOn p = true) : IndependentOfLevel i := by
  cases i with
  | flh rd rs1 imm => exact independentOfLevel_flh rd rs1 imm
  | fsh rs2 rs1 imm => exact independentOfLevel_fsh rs2 rs1 imm
  | fmvXH rd rs1 => exact independentOfLevel_fmvXH rd rs1
  | fmvHX rd rs1 => exact independentOfLevel_fmvHX rd rs1
  | fcvtSH | fcvtHS | fcvtDH | fcvtHD | fcvtQH | fcvtHQ =>
    exact independentOfLevel_of_convertFp (fun _ _ => rfl) (fun _ => rfl)
  | faddH | fsubH | fmulH | fdivH | fsqrtH | fminH | fmaxH | fmaddH | fmsubH | fnmsubH | fnmaddH | fsgnjH | fsgnjnH
  | fsgnjxH | feqH | fltH | fleH | fclassH | fcvtWH | fcvtWUH | fcvtHW | fcvtHWU | fcvtLH | fcvtLUH | fcvtHL
  | fcvtHLU => simp [Instr.existsOn, hmin] at hexists
  | lui | addi | add | beq | bne | jal | csrrw | csrrs | csrrc | csrrwi | csrrsi | csrrci | ecall | ebreak | mret =>
    cases hz

/-- Settles O19: the existence table at `LEVEL` = Zfhmin row by row, the members being independent of `LEVEL`, and the
gate for the others. -/
theorem zfhminIsASubset : Obligations.ZfhminIsASubset := by
  unfold Obligations.ZfhminIsASubset
  intro i s hz hmin
  refine ⟨?_, fun hexists => ?_, exec_illegal_of_absent⟩
  · cases i with
    | flh | fsh | fmvXH | fmvHX | fcvtSH | fcvtHS => exact iff_of_true rfl trivial
    | fcvtDH | fcvtHD | fcvtQH | fcvtHQ => exact Iff.rfl
    | faddH | fsubH | fmulH | fdivH | fsqrtH | fminH | fmaxH | fmaddH | fmsubH | fnmsubH | fnmaddH | fsgnjH | fsgnjnH
    | fsgnjxH | feqH | fltH | fleH | fclassH | fcvtWH | fcvtWUH | fcvtHW | fcvtHWU | fcvtLH | fcvtLUH | fcvtHL
    | fcvtHLU => simp [Instr.existsOn, hmin]
    | lui | addi | add | beq | bne | jal | csrrw | csrrs | csrrc | csrrwi | csrrsi | csrrci | ecall | ebreak | mret =>
      cases hz
  · obtain ⟨hsame, t, ht, htLevel⟩ := independentOfLevel_of_existsOn_zfhmin hz hmin hexists s .zfh
    refine ⟨hsame.trans hexists, fun t' ht' => ?_⟩
    obtain rfl : t = t' := by rw [ht] at ht'; cases ht'; rfl
    exact htLevel

end Sys2Proof.Machine
end

section
/-! PROOFS. 47_host_subset.md: the integer instructions, the CSR instructions and the environment instructions. -/

namespace Sys2Proof

/-! ### Decoding the host subset (R94, R271 to R283) -/

section
variable {w : InstWord}

theorem decodeWord_lui (h : w &&& 0x0000007F = 0x00000037) : decodeWord w = .ok (.lui (rdField w) (immU w)) :=
  decodeWord_of_getElem? (n := 36) rfl (by decide) h

theorem decodeWord_addi (h : w &&& 0x0000707F = 0x00000013) :
    decodeWord w = .ok (.addi (rdField w) (rs1Field w) (immI w)) :=
  decodeWord_of_getElem? (n := 37) rfl (by decide) h

theorem decodeWord_add (h : w &&& 0xFE00707F = 0x00000033) :
    decodeWord w = .ok (.add (rdField w) (rs1Field w) (rs2Field w)) :=
  decodeWord_of_getElem? (n := 38) rfl (by decide) h

theorem decodeWord_beq (h : w &&& 0x0000707F = 0x00000063) :
    decodeWord w = .ok (.beq (rs1Field w) (rs2Field w) (immB w)) :=
  decodeWord_of_getElem? (n := 39) rfl (by decide) h

theorem decodeWord_bne (h : w &&& 0x0000707F = 0x00001063) :
    decodeWord w = .ok (.bne (rs1Field w) (rs2Field w) (immB w)) :=
  decodeWord_of_getElem? (n := 40) rfl (by decide) h

theorem decodeWord_jal (h : w &&& 0x0000007F = 0x0000006F) : decodeWord w = .ok (.jal (rdField w) (immJ w)) :=
  decodeWord_of_getElem? (n := 41) rfl (by decide) h

/-- A word is the I-type layout of its fields. -/
theorem encodeI_of_fields (w : InstWord) :
    encodeI (immI w) (rs1Field w) (funct3Field w) (rdField w) (opcodeField w) = w := by
  rw [encodeI, immI, rs1Field, funct3Field, rdField, opcodeField]
  iterate 4 rw [BitVec.extractLsb'_append_extractLsb'_eq_extractLsb' (by decide)]
  exact BitVec.extractLsb'_eq_self

/-- A word of the SYSTEM opcode, cut down by the mask of the CSR rows, holds its `funct3` and the opcode. -/
theorem system_and_funct3 (hopcode : w &&& 0x0000007F = 0x00000073) {f3 : BitVec 3} (hf3 : funct3Field w = f3) :
    w &&& 0x0000707F = 0#12 ++ 0#5 ++ f3 ++ 0#5 ++ 0b1110011#7 := by
  have hop : opcodeField w = 0b1110011#7 := by
    calc opcodeField w = opcodeField (w &&& 0x0000007F) := by
          rw [opcodeField, opcodeField, BitVec.extractLsb'_and]
          exact (BitVec.and_allOnes).symm
      _ = 0b1110011#7 := by rw [hopcode]; rfl
  calc w &&& 0x0000707F
      = encodeI (immI w) (rs1Field w) (funct3Field w) (rdField w) (opcodeField w) &&& 0x0000707F := by
        rw [encodeI_of_fields]
    _ = 0#12 ++ 0#5 ++ f3 ++ 0#5 ++ 0b1110011#7 := by rw [encodeI_and_funct3, hf3, hop]

section
variable (hopcode : w &&& 0x0000007F = 0x00000073)
include hopcode

theorem decodeWord_csrrw (hf3 : funct3Field w = 0b001) :
    decodeWord w = .ok (.csrrw (rdField w) (immI w) (rs1Field w)) :=
  decodeWord_of_getElem? (n := 42) rfl (by decide) (system_and_funct3 hopcode hf3)

theorem decodeWord_csrrs (hf3 : funct3Field w = 0b010) :
    decodeWord w = .ok (.csrrs (rdField w) (immI w) (rs1Field w)) :=
  decodeWord_of_getElem? (n := 43) rfl (by decide) (system_and_funct3 hopcode hf3)

theorem decodeWord_csrrc (hf3 : funct3Field w = 0b011) :
    decodeWord w = .ok (.csrrc (rdField w) (immI w) (rs1Field w)) :=
  decodeWord_of_getElem? (n := 44) rfl (by decide) (system_and_funct3 hopcode hf3)

theorem decodeWord_csrrwi (hf3 : funct3Field w = 0b101) :
    decodeWord w = .ok (.csrrwi (rdField w) (immI w) (rs1Field w)) :=
  decodeWord_of_getElem? (n := 45) rfl (by decide) (system_and_funct3 hopcode hf3)

theorem decodeWord_csrrsi (hf3 : funct3Field w = 0b110) :
    decodeWord w = .ok (.csrrsi (rdField w) (immI w) (rs1Field w)) :=
  decodeWord_of_getElem? (n := 46) rfl (by decide) (system_and_funct3 hopcode hf3)

theorem decodeWord_csrrci (hf3 : funct3Field w = 0b111) :
    decodeWord w = .ok (.csrrci (rdField w) (immI w) (rs1Field w)) :=
  decodeWord_of_getElem? (n := 47) rfl (by decide) (system_and_funct3 hopcode hf3)

end

end

/-! ### Decoding the environment instructions (R284, R285, R288) -/

/-- ECALL, EBREAK and MRET: the instructions with no operand, each a single word. -/
def Instr.isEnvironment : Instr → Bool
  | .ecall | .ebreak | .mret => true
  | _ => false

/-- A word that decodes was accepted by the row that built its instruction. -/
theorem exists_row_of_decodeWord_ok {w : InstWord} {i : Instr} (h : decodeWord w = .ok i) :
    ∃ r ∈ opcodeRows, r.accepts w = true ∧ r.build w = i := by
  rw [decodeWord] at h
  split at h
  next r hfind =>
    have haccepts : r.accepts w = true := List.find?_some (p := fun r : OpcodeRow => r.accepts w) hfind
    exact ⟨r, List.mem_of_find?_eq_some hfind, haccepts, Except.ok.inj h⟩
  next => cases h

/-- A row that builds an environment instruction reads every bit and asks for the instruction's own word. -/
theorem environment_row (w : InstWord) : ∀ r ∈ opcodeRows, (r.build w).isEnvironment = true →
    r.mask = BitVec.allOnes 32 ∧ r.pattern = encode (r.build w) :=
  of_decide_eq_true rfl

theorem decodeWord_environment_iff {i : Instr} (hi : i.isEnvironment = true) (w : InstWord) :
    decodeWord w = .ok i ↔ w = encode i := by
  constructor
  · intro h
    obtain ⟨r, hr, haccepts, rfl⟩ := exists_row_of_decodeWord_ok h
    obtain ⟨hmask, hpattern⟩ := environment_row w r hr hi
    calc w = w &&& r.mask := by rw [hmask, BitVec.and_allOnes]
      _ = encode (r.build w) := (beq_iff_eq.1 haccepts).trans hpattern
  · rintro rfl
    cases i with
    | ecall | ebreak | mret => rfl
    | _ => cases hi

namespace Machine

/-! ### ECALL, EBREAK and MRET -/

/-- R286: the low two bits are replaced by zeros. -/
theorem clearLow2_eq_append (v : Word) : clearLow2 v = v.extractLsb' 2 62 ++ 0#2 := by
  calc clearLow2 v = (v.extractLsb' 2 62 ++ v.extractLsb' 0 2) &&& (BitVec.allOnes 62 ++ 0#2) := by
        rw [BitVec.extractLsb'_append_extractLsb'_eq_extractLsb' (by decide), BitVec.extractLsb'_eq_self]
        rfl
    _ = v.extractLsb' 2 62 ++ 0#2 := by rw [BitVec.and_append, BitVec.and_allOnes, BitVec.and_zero]

theorem clearLow2_of_aligned {v : Word} (h : v.extractLsb' 0 2 = 0) : clearLow2 v = v := by
  calc clearLow2 v = v.extractLsb' 2 62 ++ v.extractLsb' 0 2 := by rw [clearLow2_eq_append, h]; rfl
    _ = v := by
        rw [BitVec.extractLsb'_append_extractLsb'_eq_extractLsb' (by decide)]
        exact BitVec.extractLsb'_eq_self

/-- Settles O13: MRET has one word; with `TRAP` = mmode it is the return from the trap, else it does not exist. -/
theorem mretReturns : Obligations.MretReturns := by
  unfold Obligations.MretReturns
  refine ⟨decodeWord_environment_iff rfl, fun s => ⟨fun hmmode => ?_, fun hfault => ?_⟩⟩
  · have hexists : Instr.existsOn s.params .mret = true := beq_iff_eq.2 hmmode
    change execMret s = _
    rw [execMret, if_pos hexists, State.returnFromTrap]
  · have habsent : Instr.existsOn s.params .mret = false := by rw [Instr.existsOn, hfault]; rfl
    exact exec_mret_of_absent habsent

/-- Settles O14: ECALL and EBREAK have one word each and raise in every state; what the raise records of ECALL depends
on `TRAP`. -/
theorem ecallAndEbreakRaise : Obligations.EcallAndEbreakRaise := by
  unfold Obligations.EcallAndEbreakRaise
  refine ⟨decodeWord_environment_iff rfl, decodeWord_environment_iff rfl, fun s =>
    ⟨rfl, ⟨rfl, rfl⟩, fun hfault => ?_, fun hmmode haligned => ?_, rfl, rfl, rfl⟩⟩
  · rw [State.raise_fault hfault]
  · rw [State.raise_mmode hmmode]
    exact clearLow2_of_aligned haligned

/-! ### The integer instructions (R270 to R273) -/

theorem State.nextPc_toNat (s : State) : s.nextPc.toNat = (s.pc.toNat + 4) % 2 ^ s.params.xbits :=
  s.params.truncX_add_toNat s.pc 4

/-- Settles O43: each of the three writes `x[rd]` and moves on; the value written is cut to XLEN bits. -/
theorem luiAddiAddComplete : Obligations.LuiAddiAddComplete := by
  unfold Obligations.LuiAddiAddComplete
  refine ⟨fun _ => decodeWord_lui, fun _ => decodeWord_addi, fun _ => decodeWord_add, fun s =>
    ⟨s.nextPc_toNat, fun rd imm => ?_, fun rd rs1 imm => ?_, fun rd rs1 rs2 => ?_⟩⟩
  · have hwrote := s.writeX_advance_wroteHostX rd (s.params.sextX (imm ++ 0#12))
    rw [Params.truncX_sextX] at hwrote
    exact ⟨_, rfl, hwrote⟩
  · exact ⟨_, _, rfl, s.writeX_advance_wroteHostX rd _, s.params.truncX_add_sextX_toNat (by decide) _ imm⟩
  · exact ⟨_, _, rfl, s.writeX_advance_wroteHostX rd _, s.params.truncX_add_toNat _ _⟩

/-! ### The branches and the jump (R274 to R276) -/

theorem State.branchTarget_toNat {n : Nat} (hn : n ≤ 64) (s : State) (off : BitVec n) :
    ((s.branchTarget off).toNat : ℤ) = (s.pc.toNat + off.toInt) % 2 ^ s.params.xbits :=
  s.params.truncX_add_sextX_toNat hn s.pc off

/-- An instruction that is a branch with a condition: taken to an aligned and to a misaligned target, and not taken. -/
theorem completes_or_raises_of_branch {s : State} {i : Instr} {off : BitVec 13} {cond : Bool}
    {taken : Prop} (hexec : exec i s = .next (s.branch cond off)) (hcond : cond = true ↔ taken) :
    (taken → (s.branchTarget off).getLsbD 1 = false → exec i s = .next { s with pc := s.branchTarget off }) ∧
    (taken → (s.branchTarget off).getLsbD 1 = true →
      exec i s = .next (s.raise (.instructionAddressMisaligned (s.branchTarget off)))) ∧
    (¬ taken → exec i s = .next { s with pc := s.nextPc }) := by
  refine ⟨fun htaken halign => ?_, fun htaken hmis => ?_, fun hnot => ?_⟩
  · rw [hexec, State.branch, if_pos (hcond.2 htaken), State.jumpTo_aligned halign]
  · rw [hexec, State.branch, if_pos (hcond.2 htaken), State.jumpTo_misaligned hmis]
  · rw [hexec, State.branch, if_neg (mt hcond.1 hnot), State.advance]

/-- Settles O44: BEQ and BNE are the branch with their condition, to `pc` plus the sign-extended offset. -/
theorem branchesCompleteOrRaise : Obligations.BranchesCompleteOrRaise := by
  unfold Obligations.BranchesCompleteOrRaise
  refine ⟨fun _ => decodeWord_beq, fun _ => decodeWord_bne, fun s rs1 rs2 off =>
    ⟨s.branchTarget off, s.branchTarget_toNat (by decide) off, ?_⟩⟩
  rintro i taken (⟨rfl, rfl⟩ | ⟨rfl, rfl⟩)
  · exact completes_or_raises_of_branch rfl beq_iff_eq
  · exact completes_or_raises_of_branch rfl bne_iff_ne

/-- What a jump that writes the link and goes to `target` does. -/
theorem State.writeX_jump_wroteHostX (s : State) (rd : XReg) (v target : Word) :
    WroteHostX s { s.writeX rd v with pc := target } rd (s.params.truncX v) target :=
  { s.writeX_advance_wroteHostX rd v with pc := rfl }

/-- Settles O45: JAL is the jump to `pc` plus the sign-extended offset, with `pc + 4` written as the link. -/
theorem jalCompletesOrRaises : Obligations.JalCompletesOrRaises := by
  unfold Obligations.JalCompletesOrRaises
  refine ⟨fun _ => decodeWord_jal, fun s rd off =>
    ⟨s.branchTarget off, s.branchTarget_toNat (by decide) off, fun halign => ?_, fun hmis => ?_⟩⟩
  · refine ⟨_, _, ?_, s.writeX_jump_wroteHostX rd s.nextPc (s.branchTarget off), ?_⟩
    · change execJal rd off s = _
      rw [execJal, State.jumpTo_aligned halign]
    · rw [State.nextPc, Params.truncX_truncX]
      exact s.nextPc_toNat
  · change execJal rd off s = _
    rw [execJal, State.jumpTo_misaligned hmis]

/-! ### The CSR instructions (R277 to R283) -/

/-- The states differ in `fcsr`, `FS` and the trap CSRs at most: what a write to a CSR leaves. -/
structure SameButCsrs (s w : State) : Prop where
  params : w.params = s.params
  pc : w.pc = s.pc
  x : w.x = s.x
  f : w.f = s.f
  mem : w.mem = s.mem
  stored : w.stored = s.stored
  trap : w.trap = s.trap

theorem SameButCsrs.refl (s : State) : SameButCsrs s s := ⟨rfl, rfl, rfl, rfl, rfl, rfl, rfl⟩

theorem State.writeCsr_sameButCsrs (s : State) (c : Csr) (v : Word) : SameButCsrs s (s.writeCsr c v) := by
  constructor <;> simp

/-- What an access that left the CSRs of `w`, wrote `x[rd]` and moved on does. -/
theorem SameButCsrs.writeX_advance_accessedCsr {s w : State} (h : SameButCsrs s w) (rd : XReg) (old : Word) :
    AccessedCsr s (w.writeX rd old).advance w rd (s.params.truncX old) where
  dest := (State.readX_writeX w rd rd old).trans (by rw [if_pos rfl, h.params])
  otherX r hr := (State.readX_writeX w rd r old).trans ((if_neg hr).trans (State.readX_congr h.params h.x r))
  sameF r := State.readF_congr (by simp [h.params]) (by simp [h.f]) r
  fcsr := by simp
  fs := by simp
  mtvec := by simp
  mepc := by simp
  mcause := by simp
  mtval := by simp
  pc := by simp [State.nextPc, h.params, h.pc]
  memory := ⟨fun _ => by simp [h.mem], by simp [h.stored]⟩
  trap := by simp [h.trap]
  params := by simp [h.params]

/-- A read whose value would go to `x[0]` and one that is not made leave the same state. -/
theorem State.csrOp_eq_writeX_advance {s : State} {addr : BitVec 12} {c : Csr} (hc : Csr.ofAddr addr = some c)
    (ha : s.csrAllowed c = true) (i : Instr) {rd : XReg} {read : Bool} (hread : rd ≠ 0 → read = true) (write : Bool)
    (newVal : Word → Word) :
    s.csrOp i addr rd read write newVal =
      ((if write then s.writeCsr c (newVal (s.readCsr c)) else s).writeX rd (s.readCsr c)).advance := by
  rw [State.csrOp_allowed hc ha]
  cases read with
  | true => rfl
  | false =>
    obtain rfl : rd = 0 := by_contra fun hrd => by simpa using hread hrd
    rfl

/-- An instruction that is a CSR access, to a CSR that is mapped and allowed: it reads the old value and writes the new
one, or writes nothing. -/
theorem completes_of_csrOp {s : State} {i : Instr} {rd : XReg} {csr : BitVec 12} {c : Csr} {read write : Bool}
    {newVal : Word → Word} {writes : Prop} {new : Word}
    (hexec : exec i s = .next (s.csrOp i csr rd read write newVal)) (hread : rd ≠ 0 → read = true)
    (hwrites : write = true ↔ writes) (hnew : new = newVal (s.readCsr c)) (hc : Csr.ofAddr csr = some c)
    (ha : s.csrAllowed c = true) :
    ∃ t, exec i s = .next t ∧
      (writes → AccessedCsr s t (s.writeCsr c new) rd (s.params.truncX (s.readCsr c))) ∧
      (¬ writes → AccessedCsr s t s rd (s.params.truncX (s.readCsr c))) := by
  refine ⟨_, hexec, fun hwrite => ?_, fun hnot => ?_⟩
  · rw [State.csrOp_eq_writeX_advance hc ha i hread, if_pos (hwrites.2 hwrite), hnew]
    exact (s.writeCsr_sameButCsrs c _).writeX_advance_accessedCsr rd _
  · rw [State.csrOp_eq_writeX_advance hc ha i hread, if_neg (mt hwrites.1 hnot)]
    exact (SameButCsrs.refl s).writeX_advance_accessedCsr rd _

/-- Settles O46: each of the six is a CSR access; CSRRW and CSRRWI always write and read only for `rd` other than 0, the
others always read and write only where the `rs1` or `uimm` field is not 0. -/
theorem csrInstructionsComplete : Obligations.CsrInstructionsComplete := by
  unfold Obligations.CsrInstructionsComplete
  refine ⟨fun w hopcode => ⟨decodeWord_csrrw hopcode, decodeWord_csrrs hopcode, decodeWord_csrrc hopcode,
    decodeWord_csrrwi hopcode, decodeWord_csrrsi hopcode, decodeWord_csrrci hopcode⟩, ?_⟩
  intro s rd src csr c hc ha old imm i writes new h
  have hrd : rd ≠ 0 → (rd != 0) = true := bne_iff_ne.2
  have hset : (src != 0) = true ↔ src ≠ 0 := bne_iff_ne
  obtain ⟨rfl, rfl, hnew⟩ | h := h
  · exact completes_of_csrOp rfl hrd (iff_of_true rfl trivial) hnew hc ha
  obtain ⟨rfl, rfl, hnew⟩ | ⟨rfl, rfl, hnew⟩ | ⟨rfl, rfl, hnew⟩ | h := h
  · exact completes_of_csrOp rfl (fun _ => rfl) hset hnew hc ha
  · exact completes_of_csrOp rfl (fun _ => rfl) hset hnew hc ha
  · exact completes_of_csrOp rfl hrd (iff_of_true rfl trivial) hnew hc ha
  obtain ⟨rfl, rfl, hnew⟩ | ⟨rfl, rfl, hnew⟩ := h
  · exact completes_of_csrOp rfl (fun _ => rfl) hset hnew hc ha
  · exact completes_of_csrOp rfl (fun _ => rfl) hset hnew hc ha

end Machine

end Sys2Proof
end

section
/-! PROOFS. 30_encoding.md: the opcode map, and that decoding and encoding are inverse to each other. -/

namespace Sys2Proof

/-! ### No word satisfies two rows (R93) -/

/-- Two different rows ask for different values of some bit that both read. -/
theorem opcodeRows_conflict : opcodeRows.Pairwise fun r q => r.pattern &&& q.mask ≠ q.pattern &&& r.mask := by
  decide +kernel

/-- A word that two rows accept is no witness of a conflict between them. -/
theorem OpcodeRow.pattern_and_mask_of_accepts {r q : OpcodeRow} {w : InstWord} (hr : r.accepts w = true)
    (hq : q.accepts w = true) : r.pattern &&& q.mask = q.pattern &&& r.mask := by
  calc r.pattern &&& q.mask = w &&& r.mask &&& q.mask := by rw [beq_iff_eq.1 hr]
    _ = w &&& q.mask &&& r.mask := by ac_rfl
    _ = q.pattern &&& r.mask := by rw [beq_iff_eq.1 hq]

/-- Settles O1: any two rows of the map ask for different values of a bit that both read. -/
theorem opcodeRowsAreDisjoint : Obligations.OpcodeRowsAreDisjoint := by
  unfold Obligations.OpcodeRowsAreDisjoint
  intro w j k rj rk hj hk haccepts haccepts'
  obtain ⟨hjlt, rfl⟩ := List.getElem?_eq_some_iff.1 hj
  obtain ⟨hklt, rfl⟩ := List.getElem?_eq_some_iff.1 hk
  have hconflict := List.pairwise_iff_getElem.1 opcodeRows_conflict
  obtain hlt | heq | hgt := Nat.lt_trichotomy j k
  · exact absurd (OpcodeRow.pattern_and_mask_of_accepts haccepts haccepts') (hconflict j k hjlt hklt hlt)
  · exact heq
  · exact absurd (OpcodeRow.pattern_and_mask_of_accepts haccepts' haccepts) (hconflict k j hklt hjlt hgt)

/-- The row that accepts a word is the one that decodes it, wherever it stands in the map. -/
theorem decodeWord_of_row_accepts {w : InstWord} {n : Nat} {row : OpcodeRow} (hrow : opcodeRows[n]? = some row)
    (haccepts : row.accepts w = true) : decodeWord w = .ok (row.build w) := by
  cases hfind : opcodeRows.find? (·.accepts w) with
  | none => exact absurd haccepts (List.find?_eq_none.1 hfind row (List.mem_of_getElem? hrow))
  | some row' =>
    obtain ⟨n', hrow'⟩ := List.mem_iff_getElem?.1 (List.mem_of_find?_eq_some hfind)
    have haccepts' : row'.accepts w = true := List.find?_some (p := fun r : OpcodeRow => r.accepts w) hfind
    obtain rfl := opcodeRowsAreDisjoint w n n' row row' hrow hrow' haccepts haccepts'
    obtain rfl : row = row' := Option.some.inj (hrow.symm.trans hrow')
    rw [decodeWord, hfind]


/-! ### Decoding an encoded instruction (R94) -/

/-- Every instruction's word is accepted by the row at the instruction's place. -/
theorem encodeRow_statement (i : Instr) : Laws.EncodeRow.Statement i := by
  open Laws.EncodeRow in
  cases i
  exacts [flh .., fsh .., fmaddH .., fmsubH .., fnmsubH .., fnmaddH .., faddH .., fsubH .., fmulH .., fdivH ..,
    fsqrtH .., fsgnjH .., fsgnjnH .., fsgnjxH .., fminH .., fmaxH .., fcvtSH .., fcvtHS .., fcvtDH .., fcvtHD ..,
    fcvtQH .., fcvtHQ .., fleH .., fltH .., feqH .., fcvtWH .., fcvtWUH .., fcvtLH .., fcvtLUH .., fcvtHW ..,
    fcvtHWU .., fcvtHL .., fcvtHLU .., fmvXH .., fclassH .., fmvHX .., lui .., addi .., add .., beq .., bne ..,
    jal .., csrrw .., csrrs .., csrrc .., csrrwi .., csrrsi .., csrrci .., ecall, ebreak, mret]

@[simp] theorem rmField_encodeR (f7 : BitVec 7) (rs2 rs1 : BitVec 5) (rm : RmField) (rd : BitVec 5) (op : BitVec 7) :
    rmField (encodeR f7 rs2 rs1 rm.toBits rd op) = rm := by
  rw [rmField, funct3Field_encodeR, RmField.ofBits_toBits]

/-- The row of an instruction reads the instruction's operands back from its word. -/
theorem build_encode {i : Instr} (hwf : i.wellFormed = true) {row : OpcodeRow}
    (hrow : opcodeRows[(Laws.EncodeRow.place i).1]? = some row) : row.build (encode i) = i := by
  cases i with
  | flh | addi | csrrw | csrrs | csrrc | csrrwi | csrrsi | csrrci =>
    obtain rfl := Option.some.inj hrow
    simp [encode, encodeCsr]
  | fsh | lui | add =>
    obtain rfl := Option.some.inj hrow
    simp [encode]
  | fmaddH | fmsubH | fnmsubH | fnmaddH =>
    obtain rfl := Option.some.inj hrow
    simp only [encode, rs3Field_encodeFused]
    simp [encodeFused]
  | faddH | fsubH | fmulH | fdivH | fsqrtH | fsgnjH | fsgnjnH | fsgnjxH | fminH | fmaxH | fleH | fltH | feqH
  | fcvtWH | fcvtWUH | fcvtLH | fcvtLUH | fcvtHW | fcvtHWU | fcvtHL | fcvtHLU | fmvXH | fclassH | fmvHX =>
    obtain rfl := Option.some.inj hrow
    simp [encode, encodeOpFpH]
  | fcvtSH | fcvtHS | fcvtDH | fcvtHD | fcvtQH | fcvtHQ =>
    obtain rfl := Option.some.inj hrow
    simp [encode, encodeFcvtFp]
  | beq rs1 rs2 off | bne rs1 rs2 off =>
    have heven : off.getLsbD 0 = false := by simpa [Instr.wellFormed] using hwf
    obtain rfl := Option.some.inj hrow
    simp [encode, immB_encodeB _ _ _ _ heven]
  | jal rd off =>
    have heven : off.getLsbD 0 = false := by simpa [Instr.wellFormed] using hwf
    obtain rfl := Option.some.inj hrow
    simp [encode, immJ_encodeJ _ _ heven]
  | ecall | ebreak | mret =>
    obtain rfl := Option.some.inj hrow
    rfl

theorem decodeWord_encode {i : Instr} (hwf : i.wellFormed = true) : decodeWord (encode i) = .ok i := by
  obtain ⟨row, hrow, -, haccepts⟩ := encodeRow_statement i
  rw [decodeWord_of_row_accepts hrow haccepts, build_encode hwf hrow]

/-- A word that decodes does so from its four bytes, whatever follows them. -/
theorem decode_bytesOfWord_append {w : InstWord} {i : Instr} (h : decodeWord w = .ok i) (rest : List Byte) :
    decode (bytesOfWord w ++ rest) = .ok (i, rest) := by
  simp only [bytesOfWord, List.cons_append, List.nil_append, decode, wordOfBytes_bytesOfWord, h]

/-- Settles O2: the instruction's own row accepts its word, no other row does, and that row reads the operands back. -/
theorem decodeOfEncode : Obligations.DecodeOfEncode := by
  unfold Obligations.DecodeOfEncode
  intro i rest hwf
  exact decode_bytesOfWord_append (decodeWord_encode hwf) rest

/-! ### Encoding a decoded instruction: a word is the layout of its fields (R81 to R84) -/

@[simp] theorem toBits_rmField (w : InstWord) : (rmField w).toBits = funct3Field w := RmField.toBits_ofBits _

theorem encodeR_of_fields (w : InstWord) :
    encodeR (funct7Field w) (rs2Field w) (rs1Field w) (funct3Field w) (rdField w) (opcodeField w) = w := by
  rw [encodeR, funct7Field, rs2Field, rs1Field, funct3Field, rdField, opcodeField]
  iterate 5 rw [BitVec.extractLsb'_append_extractLsb'_eq_extractLsb' (by decide)]
  exact BitVec.extractLsb'_eq_self

theorem encodeU_of_fields (w : InstWord) : encodeU (immU w) (rdField w) (opcodeField w) = w := by
  rw [encodeU, immU, rdField, opcodeField]
  iterate 2 rw [BitVec.extractLsb'_append_extractLsb'_eq_extractLsb' (by decide)]
  exact BitVec.extractLsb'_eq_self

theorem encodeS_of_fields (w : InstWord) :
    encodeS (immS w) (rs2Field w) (rs1Field w) (funct3Field w) (opcodeField w) = w := by
  apply BitVec.eq_of_getLsbD_eq
  intro i hi
  simp only [encodeS, immS, rs2Field, rs1Field, funct3Field, opcodeField, BitVec.getLsbD_append,
    BitVec.getLsbD_extractLsb']
  interval_cases i <;> simp

theorem encodeB_of_fields {w : InstWord} (hopcode : opcodeField w = 0b1100011#7) :
    encodeB (immB w) (rs2Field w) (rs1Field w) (funct3Field w) = w := by
  rw [encodeB, ← hopcode]
  apply BitVec.eq_of_getLsbD_eq
  intro i hi
  simp only [immB, rs2Field, rs1Field, funct3Field, opcodeField, BitVec.getLsbD_append, BitVec.getLsbD_extractLsb']
  interval_cases i <;> simp

theorem encodeJ_of_fields {w : InstWord} (hopcode : opcodeField w = 0b1101111#7) :
    encodeJ (immJ w) (rdField w) = w := by
  rw [encodeJ, ← hopcode]
  apply BitVec.eq_of_getLsbD_eq
  intro i hi
  simp only [immJ, rdField, opcodeField, BitVec.getLsbD_append, BitVec.getLsbD_extractLsb']
  interval_cases i <;> simp

theorem encodeFused_of_fields {w : InstWord} (hfmt : w.extractLsb' 25 2 = 0b10#2) :
    encodeFused (rs3Field w) (rs2Field w) (rs1Field w) (funct3Field w) (rdField w) (opcodeField w) = w := by
  have hfunct7 : rs3Field w ++ 0b10#2 = funct7Field w := by
    rw [rs3Field, ← hfmt, BitVec.extractLsb'_append_extractLsb'_eq_extractLsb' (by decide)]
    rfl
  rw [encodeFused, hfunct7, encodeR_of_fields]

theorem immB_getLsbD_zero (w : InstWord) : (immB w).getLsbD 0 = false := by
  rw [immB, BitVec.getLsbD_append]
  rfl

theorem immJ_getLsbD_zero (w : InstWord) : (immJ w).getLsbD 0 = false := by
  rw [immJ, BitVec.getLsbD_append]
  rfl

/-! ### Encoding a decoded instruction: row by row -/

/-- The row drops no bit: what it builds of a word it accepts is well formed and encoded as the word. -/
def OpcodeRow.Faithful (r : OpcodeRow) : Prop :=
  ∀ w, r.accepts w = true → (r.build w).wellFormed = true ∧ encode (r.build w) = w

section
variable {r : OpcodeRow}

/-- A word is the R-type layout of any values that its fields have. -/
theorem encodeR_eq_of_fields {w : InstWord} {f7 : BitVec 7} {rs2 : BitVec 5} {f3 : BitVec 3} {op : BitVec 7}
    (hfunct7 : funct7Field w = f7) (hrs2 : rs2Field w = rs2) (hfunct3 : funct3Field w = f3)
    (hopcode : opcodeField w = op) : encodeR f7 rs2 (rs1Field w) f3 (rdField w) op = w := by
  rw [← hfunct7, ← hrs2, ← hfunct3, ← hopcode, encodeR_of_fields]

/-- A row of the R-type layout that reads "funct7" and the opcode, the "RM" field being an operand. -/
theorem OpcodeRow.faithful_of_funct7 (hmask : r.mask = 0xFE00007F)
    (hbuild : ∀ w, (r.build w).wellFormed = true ∧ encode (r.build w) =
      encodeR (funct7Field r.pattern) (rs2Field w) (rs1Field w) (rmField w).toBits (rdField w)
        (opcodeField r.pattern)) : r.Faithful := by
  intro w h
  obtain ⟨hwf, hencode⟩ := hbuild w
  exact ⟨hwf, hencode.trans (encodeR_eq_of_fields (extractLsb'_eq_of_accepts h (by rw [hmask]; rfl)) rfl
    (toBits_rmField w).symm (extractLsb'_eq_of_accepts h (by rw [hmask]; rfl)))⟩

/-- The same, the row reading "rs2" too. -/
theorem OpcodeRow.faithful_of_funct7_rs2 (hmask : r.mask = 0xFFF0007F)
    (hbuild : ∀ w, (r.build w).wellFormed = true ∧ encode (r.build w) =
      encodeR (funct7Field r.pattern) (rs2Field r.pattern) (rs1Field w) (rmField w).toBits (rdField w)
        (opcodeField r.pattern)) : r.Faithful := by
  intro w h
  obtain ⟨hwf, hencode⟩ := hbuild w
  exact ⟨hwf, hencode.trans (encodeR_eq_of_fields (extractLsb'_eq_of_accepts h (by rw [hmask]; rfl))
    (extractLsb'_eq_of_accepts h (by rw [hmask]; rfl)) (toBits_rmField w).symm
    (extractLsb'_eq_of_accepts h (by rw [hmask]; rfl)))⟩

/-- A row of the R-type layout that reads "funct7", "funct3" and the opcode. -/
theorem OpcodeRow.faithful_of_funct7_funct3 (hmask : r.mask = 0xFE00707F)
    (hbuild : ∀ w, (r.build w).wellFormed = true ∧ encode (r.build w) =
      encodeR (funct7Field r.pattern) (rs2Field w) (rs1Field w) (funct3Field r.pattern) (rdField w)
        (opcodeField r.pattern)) : r.Faithful := by
  intro w h
  obtain ⟨hwf, hencode⟩ := hbuild w
  exact ⟨hwf, hencode.trans (encodeR_eq_of_fields (extractLsb'_eq_of_accepts h (by rw [hmask]; rfl)) rfl
    (extractLsb'_eq_of_accepts h (by rw [hmask]; rfl)) (extractLsb'_eq_of_accepts h (by rw [hmask]; rfl)))⟩

/-- The same, the row reading "rs2" too. -/
theorem OpcodeRow.faithful_of_funct7_rs2_funct3 (hmask : r.mask = 0xFFF0707F)
    (hbuild : ∀ w, (r.build w).wellFormed = true ∧ encode (r.build w) =
      encodeR (funct7Field r.pattern) (rs2Field r.pattern) (rs1Field w) (funct3Field r.pattern) (rdField w)
        (opcodeField r.pattern)) : r.Faithful := by
  intro w h
  obtain ⟨hwf, hencode⟩ := hbuild w
  exact ⟨hwf, hencode.trans (encodeR_eq_of_fields (extractLsb'_eq_of_accepts h (by rw [hmask]; rfl))
    (extractLsb'_eq_of_accepts h (by rw [hmask]; rfl)) (extractLsb'_eq_of_accepts h (by rw [hmask]; rfl))
    (extractLsb'_eq_of_accepts h (by rw [hmask]; rfl)))⟩

/-- A row of the fused layout: it reads `fmt`, which asks for H, and the opcode. -/
theorem OpcodeRow.faithful_of_fused (hmask : r.mask = 0x0600007F) (hfmt : r.pattern.extractLsb' 25 2 = 0b10#2)
    (hbuild : ∀ w, (r.build w).wellFormed = true ∧ encode (r.build w) =
      encodeFused (rs3Field w) (rs2Field w) (rs1Field w) (rmField w).toBits (rdField w)
        (opcodeField r.pattern)) : r.Faithful := by
  intro w h
  obtain ⟨hwf, hencode⟩ := hbuild w
  have hfmtw : w.extractLsb' 25 2 = 0b10#2 :=
    (OpcodeRow.extractLsb'_eq_of_accepts h (by rw [hmask]; rfl)).trans hfmt
  have hopcode : opcodeField w = opcodeField r.pattern := OpcodeRow.extractLsb'_eq_of_accepts h (by rw [hmask]; rfl)
  refine ⟨hwf, ?_⟩
  rw [hencode, toBits_rmField, ← hopcode, encodeFused_of_fields hfmtw]

/-- What a row that reads "funct3" and the opcode says of a word it accepts. -/
theorem OpcodeRow.funct3_opcode_of_accepts (hmask : r.mask = 0x0000707F) {w : InstWord} (h : r.accepts w = true) :
    funct3Field w = funct3Field r.pattern ∧ opcodeField w = opcodeField r.pattern :=
  ⟨OpcodeRow.extractLsb'_eq_of_accepts h (by rw [hmask]; rfl),
    OpcodeRow.extractLsb'_eq_of_accepts h (by rw [hmask]; rfl)⟩

theorem OpcodeRow.faithful_of_encodeI (hmask : r.mask = 0x0000707F)
    (hbuild : ∀ w, (r.build w).wellFormed = true ∧ encode (r.build w) =
      encodeI (immI w) (rs1Field w) (funct3Field r.pattern) (rdField w) (opcodeField r.pattern)) : r.Faithful := by
  intro w h
  obtain ⟨hwf, hencode⟩ := hbuild w
  obtain ⟨hfunct3, hopcode⟩ := OpcodeRow.funct3_opcode_of_accepts hmask h
  refine ⟨hwf, ?_⟩
  rw [hencode, ← hfunct3, ← hopcode, encodeI_of_fields]

theorem OpcodeRow.faithful_of_encodeS (hmask : r.mask = 0x0000707F)
    (hbuild : ∀ w, (r.build w).wellFormed = true ∧ encode (r.build w) =
      encodeS (immS w) (rs2Field w) (rs1Field w) (funct3Field r.pattern) (opcodeField r.pattern)) : r.Faithful := by
  intro w h
  obtain ⟨hwf, hencode⟩ := hbuild w
  obtain ⟨hfunct3, hopcode⟩ := OpcodeRow.funct3_opcode_of_accepts hmask h
  refine ⟨hwf, ?_⟩
  rw [hencode, ← hfunct3, ← hopcode, encodeS_of_fields]

theorem OpcodeRow.faithful_of_encodeB (hmask : r.mask = 0x0000707F) (hop : opcodeField r.pattern = 0b1100011#7)
    (hbuild : ∀ w, (r.build w).wellFormed = (!(immB w).getLsbD 0) ∧ encode (r.build w) =
      encodeB (immB w) (rs2Field w) (rs1Field w) (funct3Field r.pattern)) : r.Faithful := by
  intro w h
  obtain ⟨hwf, hencode⟩ := hbuild w
  obtain ⟨hfunct3, hopcode⟩ := OpcodeRow.funct3_opcode_of_accepts hmask h
  refine ⟨by rw [hwf, immB_getLsbD_zero]; rfl, ?_⟩
  rw [hencode, ← hfunct3, encodeB_of_fields (hopcode.trans hop)]

theorem OpcodeRow.faithful_of_encodeU (hmask : r.mask = 0x0000007F)
    (hbuild : ∀ w, (r.build w).wellFormed = true ∧ encode (r.build w) =
      encodeU (immU w) (rdField w) (opcodeField r.pattern)) : r.Faithful := by
  intro w h
  obtain ⟨hwf, hencode⟩ := hbuild w
  have hopcode : opcodeField w = opcodeField r.pattern := OpcodeRow.extractLsb'_eq_of_accepts h (by rw [hmask]; rfl)
  refine ⟨hwf, ?_⟩
  rw [hencode, ← hopcode, encodeU_of_fields]

theorem OpcodeRow.faithful_of_encodeJ (hmask : r.mask = 0x0000007F) (hop : opcodeField r.pattern = 0b1101111#7)
    (hbuild : ∀ w, (r.build w).wellFormed = (!(immJ w).getLsbD 0) ∧ encode (r.build w) =
      encodeJ (immJ w) (rdField w)) : r.Faithful := by
  intro w h
  obtain ⟨hwf, hencode⟩ := hbuild w
  have hopcode : opcodeField w = opcodeField r.pattern := OpcodeRow.extractLsb'_eq_of_accepts h (by rw [hmask]; rfl)
  refine ⟨by rw [hwf, immJ_getLsbD_zero]; rfl, ?_⟩
  rw [hencode, encodeJ_of_fields (hopcode.trans hop)]

/-- A row that reads every bit. -/
theorem OpcodeRow.faithful_of_word (hmask : r.mask = BitVec.allOnes 32)
    (hbuild : ∀ w, (r.build w).wellFormed = true ∧ encode (r.build w) = r.pattern) : r.Faithful := by
  intro w h
  obtain ⟨hwf, hencode⟩ := hbuild w
  refine ⟨hwf, ?_⟩
  calc encode (r.build w) = w &&& r.mask := hencode.trans (beq_iff_eq.1 h).symm
    _ = w := by rw [hmask, BitVec.and_allOnes]

end

open OpcodeRow in
theorem memoryAndFusedRows_faithful : ∀ r ∈ memoryAndFusedRows, r.Faithful := by
  simp only [memoryAndFusedRows, List.forall_mem_cons]
  exact ⟨faithful_of_encodeI rfl fun _ => ⟨rfl, rfl⟩, faithful_of_encodeS rfl fun _ => ⟨rfl, rfl⟩,
    faithful_of_fused rfl rfl fun _ => ⟨rfl, rfl⟩, faithful_of_fused rfl rfl fun _ => ⟨rfl, rfl⟩,
    faithful_of_fused rfl rfl fun _ => ⟨rfl, rfl⟩, faithful_of_fused rfl rfl fun _ => ⟨rfl, rfl⟩, nofun⟩

open OpcodeRow in
theorem computationalRows_faithful : ∀ r ∈ computationalRows, r.Faithful := by
  simp only [computationalRows, List.forall_mem_cons]
  exact ⟨faithful_of_funct7 rfl fun _ => ⟨rfl, rfl⟩, faithful_of_funct7 rfl fun _ => ⟨rfl, rfl⟩,
    faithful_of_funct7 rfl fun _ => ⟨rfl, rfl⟩, faithful_of_funct7 rfl fun _ => ⟨rfl, rfl⟩,
    faithful_of_funct7_rs2 rfl fun _ => ⟨rfl, rfl⟩,
    faithful_of_funct7_funct3 rfl fun _ => ⟨rfl, rfl⟩, faithful_of_funct7_funct3 rfl fun _ => ⟨rfl, rfl⟩,
    faithful_of_funct7_funct3 rfl fun _ => ⟨rfl, rfl⟩, faithful_of_funct7_funct3 rfl fun _ => ⟨rfl, rfl⟩,
    faithful_of_funct7_funct3 rfl fun _ => ⟨rfl, rfl⟩, nofun⟩

open OpcodeRow in
theorem convertAndCompareRows_faithful : ∀ r ∈ convertAndCompareRows, r.Faithful := by
  simp only [convertAndCompareRows, List.forall_mem_cons]
  exact ⟨faithful_of_funct7_rs2 rfl fun _ => ⟨rfl, rfl⟩, faithful_of_funct7_rs2 rfl fun _ => ⟨rfl, rfl⟩,
    faithful_of_funct7_rs2 rfl fun _ => ⟨rfl, rfl⟩, faithful_of_funct7_rs2 rfl fun _ => ⟨rfl, rfl⟩,
    faithful_of_funct7_rs2 rfl fun _ => ⟨rfl, rfl⟩, faithful_of_funct7_rs2 rfl fun _ => ⟨rfl, rfl⟩,
    faithful_of_funct7_funct3 rfl fun _ => ⟨rfl, rfl⟩, faithful_of_funct7_funct3 rfl fun _ => ⟨rfl, rfl⟩,
    faithful_of_funct7_funct3 rfl fun _ => ⟨rfl, rfl⟩,
    faithful_of_funct7_rs2 rfl fun _ => ⟨rfl, rfl⟩, faithful_of_funct7_rs2 rfl fun _ => ⟨rfl, rfl⟩,
    faithful_of_funct7_rs2 rfl fun _ => ⟨rfl, rfl⟩, faithful_of_funct7_rs2 rfl fun _ => ⟨rfl, rfl⟩,
    faithful_of_funct7_rs2 rfl fun _ => ⟨rfl, rfl⟩, faithful_of_funct7_rs2 rfl fun _ => ⟨rfl, rfl⟩,
    faithful_of_funct7_rs2 rfl fun _ => ⟨rfl, rfl⟩, faithful_of_funct7_rs2 rfl fun _ => ⟨rfl, rfl⟩,
    faithful_of_funct7_rs2_funct3 rfl fun _ => ⟨rfl, rfl⟩, faithful_of_funct7_rs2_funct3 rfl fun _ => ⟨rfl, rfl⟩,
    faithful_of_funct7_rs2_funct3 rfl fun _ => ⟨rfl, rfl⟩, nofun⟩

open OpcodeRow in
theorem hostRows_faithful : ∀ r ∈ hostRows, r.Faithful := by
  simp only [hostRows, List.forall_mem_cons]
  exact ⟨faithful_of_encodeU rfl fun _ => ⟨rfl, rfl⟩, faithful_of_encodeI rfl fun _ => ⟨rfl, rfl⟩,
    faithful_of_funct7_funct3 rfl fun _ => ⟨rfl, rfl⟩, faithful_of_encodeB rfl rfl fun _ => ⟨rfl, rfl⟩,
    faithful_of_encodeB rfl rfl fun _ => ⟨rfl, rfl⟩, faithful_of_encodeJ rfl rfl fun _ => ⟨rfl, rfl⟩,
    faithful_of_encodeI rfl fun _ => ⟨rfl, rfl⟩, faithful_of_encodeI rfl fun _ => ⟨rfl, rfl⟩,
    faithful_of_encodeI rfl fun _ => ⟨rfl, rfl⟩, faithful_of_encodeI rfl fun _ => ⟨rfl, rfl⟩,
    faithful_of_encodeI rfl fun _ => ⟨rfl, rfl⟩, faithful_of_encodeI rfl fun _ => ⟨rfl, rfl⟩,
    faithful_of_word rfl fun _ => ⟨rfl, rfl⟩, faithful_of_word rfl fun _ => ⟨rfl, rfl⟩,
    faithful_of_word rfl fun _ => ⟨rfl, rfl⟩, nofun⟩

theorem opcodeRows_faithful {r : OpcodeRow} (hr : r ∈ opcodeRows) : r.Faithful := by
  simp only [opcodeRows, zfhRows, List.mem_append] at hr
  obtain ((hr | hr) | hr) | hr := hr
  · exact memoryAndFusedRows_faithful r hr
  · exact computationalRows_faithful r hr
  · exact convertAndCompareRows_faithful r hr
  · exact hostRows_faithful r hr

/-- Settles O3: the row that accepted the word reads every field that it does not build an operand of, and so drops no
bit. -/
theorem encodeOfDecode : Obligations.EncodeOfDecode := by
  unfold Obligations.EncodeOfDecode
  intro w i h
  obtain ⟨r, hr, haccepts, rfl⟩ := exists_row_of_decodeWord_ok h
  exact opcodeRows_faithful hr w haccepts

end Sys2Proof
end

section
/-! PROOFS. 40_numerics.md: the numbers, classes and values of the formats (R110 to R112), and NaN results (R123). -/

namespace Sys2Proof.Machine.Fp

/-! ### Classes and values (R111) -/

section
variable {F : Format} {a : Bits F}

theorem isNaN_eq_or (F : Format) (a : Bits F) : isNaN F a = (isQNaN F a || isSNaN F a) := by
  rw [isQNaN, isSNaN, ← Bool.and_or_distrib_left, Bool.or_not_self, Bool.and_true]

theorem isNaN_of_isSNaN (h : isSNaN F a = true) : isNaN F a = true := by rw [isNaN_eq_or, h, Bool.or_true]

/-- A value is its absolute value with the sign of the pattern. -/
theorem valQ_eq_sign_mul_abs (F : Format) (a : Bits F) : valQ F a = (if sign F a then -1 else 1) * |valQ F a| := by
  by_cases hs : sign F a = true
  · rw [if_pos hs, abs_of_nonpos (valQ_nonpos_of_sign hs), neg_one_mul, neg_neg]
  · rw [if_neg hs, abs_of_nonneg (valQ_nonneg_of_sign hs), one_mul]

theorem abs_valQ_of_expField_zero (h : expField F a = 0) :
    |valQ F a| = fracField F a * (2 : ℚ) ^ (F.emin - F.fracBits) := by
  obtain ⟨hnum, hexp⟩ := val_of_expField_zero h
  rw [valQ, Scaled.abs_toRat, hnum, hexp]

theorem abs_valQ_of_expField_ne_zero (h : expField F a ≠ 0) :
    |valQ F a| = (2 ^ F.fracBits + fracField F a) * (2 : ℚ) ^ (expField F a - F.bias - F.fracBits) := by
  obtain ⟨hnum, hexp⟩ := val_of_expField_ne_zero h
  rw [valQ, Scaled.abs_toRat, hnum, hexp]
  push_cast
  rfl

end

/-- Settles O56: the classes are conditions on the two fields, and the value of a pattern is its magnitude with its
sign. -/
theorem classesAndValues : Obligations.ClassesAndValues := by
  unfold Obligations.ClassesAndValues
  refine ⟨by decide, by decide, by decide, by decide, fun F a => ?_, by decide, by decide, by decide, by decide⟩
  refine ⟨?_, ?_, ?_, isZero_iff, ?_, ?_, ?_, rfl, valQ_eq_zero_iff.2, fun hsub => ?_, fun hnormal => ?_⟩
  · simp [isQNaN, isNaN, expField, fracField, expOnes, and_assoc]
  · simp [isSNaN, isNaN, expField, fracField, expOnes, and_assoc]
  · exact isInf_iff
  · simp [isSub, expField, fracField]
  · simp [isNormal, expField, expOnes]
  · rw [isNaN_eq_or, Bool.or_eq_true]
  · obtain ⟨hE, -⟩ : expField F a = 0 ∧ fracField F a ≠ 0 := by simpa [isSub] using hsub
    rw [valQ_eq_sign_mul_abs, abs_valQ_of_expField_zero hE, mul_assoc]
    rfl
  · obtain ⟨hE, -⟩ : expField F a ≠ 0 ∧ expField F a ≠ expOnes F := by simpa [isNormal] using hnormal
    rw [valQ_eq_sign_mul_abs, abs_valQ_of_expField_ne_zero hE, mul_assoc]
    rfl

/-! ### Which results are NaNs (R123) -/

section
variable {F : Format} {a : Bits F} {s : Bool} {E T : ℕ}

theorem isNaN_eq_false_of_fields (h : HasFields F a s E T) (hnumber : E ≠ expOnes F ∨ T = 0) : isNaN F a = false := by
  obtain ⟨-, rfl, rfl⟩ := h
  obtain hE | hT := hnumber
  · simp [isNaN, hE]
  · simp [isNaN, hT]

theorem isNaN_inf (F : Format) (s : Bool) : isNaN F (inf F s) = false :=
  isNaN_eq_false_of_fields (inf_fields F s) (.inr rfl)

theorem isNaN_zero (F : Format) (s : Bool) : isNaN F (zero F s) = false :=
  isNaN_eq_false_of_fields (zero_fields F s) (.inr rfl)

theorem isNaN_maxFinite (F : Format) (s : Bool) : isNaN F (maxFinite F s) = false :=
  isNaN_eq_false_of_fields (maxFinite_fields F s) (.inl (by cases F <;> decide))

theorem isNaN_overflow (F : Format) (rm : RoundingMode) (s : Bool) : isNaN F (overflow F rm s) = false := by
  cases rm with
  | RNE | RMM => exact isNaN_inf F s
  | RTZ => exact isNaN_maxFinite F s
  | RDN =>
    cases s with
    | false => exact isNaN_maxFinite F false
    | true => exact isNaN_inf F true
  | RUP =>
    cases s with
    | false => exact isNaN_inf F false
    | true => exact isNaN_maxFinite F true

theorem quantumExp_add_fracBits_le {rm : RoundingMode} {m : Magnitude} {x : ℝ} (hx : m.IsValue x) (hpos : 0 < x)
    (h : ¬ Overflows F rm s m) : quantumExp F m + F.fracBits ≤ F.emax := by
  have hlog := floorLog2_le_emax hx hpos h
  have hrange := F.emin_le_emax
  unfold quantumExp
  omega

/-- Rounding gives a number: an exponent field of all ones comes with an empty fraction field only. -/
theorem isNaN_round {rm : RoundingMode} {m : Magnitude} {x : ℝ} (hx : m.IsValue x) (hpos : 0 < x) :
    isNaN F (round F rm s m).1 = false := by
  by_cases hover : Overflows F rm s m
  · rw [round_of_overflows hover]
    exact isNaN_overflow F rm s
  · have hq : quantumExp F m + F.fracBits ≤ F.emax := quantumExp_add_fracBits_le hx hpos hover
    have hones : F.emax + F.bias + 1 = expOnes F := by cases F <;> rfl
    have hzero : 0 ≠ expOnes F := (expOnes_pos F).ne
    rw [round_of_not_overflows hover]
    obtain ⟨hsub, hnormal, hnext⟩ := encodeRounded_fields F s (roundInt_quantum_le (rm := rm) (s := s) hx hpos) hq
    obtain hlt | hge := lt_or_ge (roundInt rm s (m.split (quantumExp F m))) (2 ^ F.fracBits)
    · exact isNaN_eq_false_of_fields (hsub hlt) (.inl hzero)
    obtain hlt | hge' := lt_or_ge (roundInt rm s (m.split (quantumExp F m))) (2 ^ (F.fracBits + 1))
    · exact isNaN_eq_false_of_fields (hnormal hge hlt) (.inl (by omega))
    · exact isNaN_eq_false_of_fields (hnext hge').2 (.inr rfl)

end

/-- The sign bit is none of the bits below it. -/
theorem extractLsb'_neg (F : Format) (a : Bits F) {start len : ℕ} (h : start + len < F.width) :
    (neg F a).extractLsb' start len = a.extractLsb' start len := by
  apply BitVec.eq_of_getLsbD_eq
  intro i hi
  have hne : F.width - 1 ≠ start + i := by omega
  simp [neg, BitVec.getLsbD_extractLsb', BitVec.getLsbD_twoPow, hne]

theorem expField_neg (F : Format) (a : Bits F) : expField F (neg F a) = expField F a := by
  rw [expField, extractLsb'_neg F a (by rw [width_eq]; omega), expField]

theorem fracField_neg (F : Format) (a : Bits F) : fracField F (neg F a) = fracField F a := by
  rw [fracField, extractLsb'_neg F a (by rw [width_eq]; omega), fracField]

theorem isNaN_neg (F : Format) (a : Bits F) : isNaN F (neg F a) = isNaN F a := by
  rw [isNaN, expField_neg, fracField_neg, isNaN]

theorem isSNaN_neg (F : Format) (a : Bits F) : isSNaN F (neg F a) = isSNaN F a := by
  have hne : F.width - 1 ≠ F.fracBits - 1 := by cases F <;> decide
  rw [isSNaN, isNaN_neg, isSNaN]
  simp [neg, BitVec.getLsbD_twoPow, hne]

/-- R123: a result that is a NaN is the canonical one. -/
def CanonicalIfNaN (F : Format) (v : Bits F) : Prop := isNaN F v = true → v = cNaN F

section
variable {F : Format}

theorem canonicalIfNaN_cNaN (F : Format) : CanonicalIfNaN F (cNaN F) := fun _ => rfl

theorem canonicalIfNaN_of_number {v : Bits F} (h : isNaN F v = false) : CanonicalIfNaN F v :=
  fun hnan => absurd hnan (by rw [h]; decide)

theorem canonicalIfNaN_zero (F : Format) (s : Bool) : CanonicalIfNaN F (zero F s) :=
  canonicalIfNaN_of_number (isNaN_zero F s)

theorem canonicalIfNaN_inf (F : Format) (s : Bool) : CanonicalIfNaN F (inf F s) :=
  canonicalIfNaN_of_number (isNaN_inf F s)

theorem canonicalIfNaN_round_magnitude (rm : RoundingMode) (s : Bool) {v : Scaled} (hv : v.num ≠ 0) :
    CanonicalIfNaN F (round F rm s v.magnitude).1 :=
  canonicalIfNaN_of_number (isNaN_round v.magnitude_isValue (by exact_mod_cast abs_pos.2 (mt v.toRat_eq_zero.1 hv)))

theorem canonicalIfNaN_roundSum (rm : RoundingMode) (v : Scaled) : CanonicalIfNaN F (roundSum F rm v).1 := by
  unfold roundSum
  split
  · exact canonicalIfNaN_zero F _
  next hv => exact canonicalIfNaN_round_magnitude rm _ hv

theorem canonicalIfNaN_add (rm : RoundingMode) (x y : Bits F) : CanonicalIfNaN F (add F rm x y).1 := by
  unfold add
  split_ifs with hnan
  · exact canonicalIfNaN_cNaN F
  · exact canonicalIfNaN_cNaN F
  · exact canonicalIfNaN_of_number (by simp_all)
  · exact canonicalIfNaN_of_number (by simp_all)
  · exact canonicalIfNaN_of_number (by simp_all)
  · exact canonicalIfNaN_zero F _
  · exact canonicalIfNaN_roundSum rm _

theorem canonicalIfNaN_mul (rm : RoundingMode) (x y : Bits F) : CanonicalIfNaN F (mul F rm x y).1 := by
  unfold mul
  dsimp only
  split_ifs with _ _ _ hzero
  · exact canonicalIfNaN_cNaN F
  · exact canonicalIfNaN_cNaN F
  · exact canonicalIfNaN_inf F _
  · exact canonicalIfNaN_zero F _
  · rw [Bool.or_eq_true, not_or] at hzero
    obtain ⟨hx, hy⟩ := hzero
    exact canonicalIfNaN_round_magnitude rm _
      (mul_ne_zero (mt val_num_eq_zero_iff.1 hx) (mt val_num_eq_zero_iff.1 hy))

theorem canonicalIfNaN_div (rm : RoundingMode) (x y : Bits F) : CanonicalIfNaN F (div F rm x y).1 := by
  unfold div
  dsimp only
  split_ifs with _ _ _ _ hy hx
  · exact canonicalIfNaN_cNaN F
  · exact canonicalIfNaN_cNaN F
  · exact canonicalIfNaN_inf F _
  · exact canonicalIfNaN_zero F _
  · exact canonicalIfNaN_inf F _
  · exact canonicalIfNaN_zero F _
  · have hpos : 0 < |valQ F x| / |valQ F y| :=
      div_pos (abs_pos.2 (mt valQ_eq_zero_iff.1 hx)) (abs_pos.2 (mt valQ_eq_zero_iff.1 hy))
    exact canonicalIfNaN_of_number (isNaN_round ((val F x).quotient_isValue (mt val_num_eq_zero_iff.1 hy))
      (by exact_mod_cast hpos))

theorem canonicalIfNaN_sqrt (rm : RoundingMode) (x : Bits F) : CanonicalIfNaN F (sqrt F rm x).1 := by
  unfold sqrt
  split_ifs with _ hnan hzero hsign
  · exact canonicalIfNaN_cNaN F
  · exact canonicalIfNaN_cNaN F
  · exact canonicalIfNaN_of_number (Bool.eq_false_iff.2 hnan)
  · exact canonicalIfNaN_cNaN F
  · exact canonicalIfNaN_of_number (Bool.eq_false_iff.2 hnan)
  · exact canonicalIfNaN_of_number (isNaN_round (sqrt_isValue hsign) (sqrt_valQ_pos hzero hsign))

theorem canonicalIfNaN_fma (rm : RoundingMode) (x y z : Bits F) : CanonicalIfNaN F (fma F rm x y z).1 := by
  unfold fma
  dsimp only
  split_ifs with _ hnan
  · exact canonicalIfNaN_cNaN F
  · exact canonicalIfNaN_cNaN F
  · exact canonicalIfNaN_cNaN F
  · exact canonicalIfNaN_inf F _
  · exact canonicalIfNaN_of_number (by simp_all)
  · exact canonicalIfNaN_zero F _
  · exact canonicalIfNaN_zero F _
  · exact canonicalIfNaN_roundSum rm _

theorem canonicalIfNaN_convert (G : Format) (rm : RoundingMode) (x : Bits F) :
    CanonicalIfNaN G (convert F G rm x).1 := by
  unfold convert
  split_ifs with _ _ _ hzero
  · exact canonicalIfNaN_cNaN G
  · exact canonicalIfNaN_cNaN G
  · exact canonicalIfNaN_inf G _
  · exact canonicalIfNaN_zero G _
  · exact canonicalIfNaN_round_magnitude rm _ (mt val_num_eq_zero_iff.1 hzero)

/-! ### What a NaN operand gives (R123) -/

/-- A two-operand result under R123's first row: the canonical NaN, and NV for a signaling operand. -/
def NaNRow (F : Format) (x y : Bits F) (out : Bits F × FlagSet) : Prop :=
  isNaN F x = true ∨ isNaN F y = true → out = (cNaN F, nvIf (isSNaN F x || isSNaN F y))

theorem add_nanRow (rm : RoundingMode) (x y : Bits F) : NaNRow F x y (add F rm x y) :=
  fun h => if_pos (Bool.or_eq_true_iff.2 h)

theorem sub_nanRow (rm : RoundingMode) (x y : Bits F) : NaNRow F x y (sub F rm x y) := by
  have h := add_nanRow rm x (neg F y)
  rwa [NaNRow, isNaN_neg, isSNaN_neg] at h

theorem mul_nanRow (rm : RoundingMode) (x y : Bits F) : NaNRow F x y (mul F rm x y) :=
  fun h => if_pos (Bool.or_eq_true_iff.2 h)

theorem div_nanRow (rm : RoundingMode) (x y : Bits F) : NaNRow F x y (div F rm x y) :=
  fun h => if_pos (Bool.or_eq_true_iff.2 h)

/-- What the row says of the value and of the flags. -/
theorem NaNRow.value_and_flags {x y : Bits F} {out : Bits F × FlagSet} (h : NaNRow F x y out) :
    (isNaN F x = true ∨ isNaN F y = true → out.1 = cNaN F) ∧
    (isSNaN F x = true ∨ isSNaN F y = true → out.2 = flagNV) := by
  refine ⟨fun hnan => by rw [h hnan], fun hsnan => ?_⟩
  rw [h (hsnan.imp isNaN_of_isSNaN isNaN_of_isSNaN), Bool.or_eq_true_iff.2 hsnan]
  rfl

/-- A NaN is neither an infinity nor a zero. -/
theorem isInf_isZero_of_isNaN {x : Bits F} (h : isNaN F x = true) : isInf F x = false ∧ isZero F x = false := by
  have hones : expOnes F ≠ 0 := (expOnes_pos F).ne'
  obtain ⟨hE, hT⟩ : expField F x = expOnes F ∧ fracField F x ≠ 0 := by simpa [isNaN] using h
  simp [isInf, isZero, hE, hT, hones]

/-- The first two rows of R129: infinity times zero, or a NaN operand, gives the canonical NaN; a signaling operand sets
NV in both. -/
theorem fma_nan (rm : RoundingMode) {x y z : Bits F} (h : isNaN F x = true ∨ isNaN F y = true ∨ isNaN F z = true) :
    (fma F rm x y z).1 = cNaN F ∧
    (isSNaN F x = true ∨ isSNaN F y = true ∨ isSNaN F z = true → (fma F rm x y z).2 = flagNV) := by
  have hnan : (isNaN F x || isNaN F y || isNaN F z) = true := by simpa [or_assoc] using h
  by_cases hinvalid : ((isInf F x && isZero F y) || (isZero F x && isInf F y)) = true
  · have hrow : fma F rm x y z = (cNaN F, flagNV) := if_pos hinvalid
    exact ⟨by rw [hrow], fun _ => by rw [hrow]⟩
  · have hrow : fma F rm x y z = (cNaN F, nvIf (isSNaN F x || isSNaN F y || isSNaN F z)) :=
      (if_neg hinvalid).trans (if_pos hnan)
    refine ⟨by rw [hrow], fun hsnan => ?_⟩
    have hsnan' : (isSNaN F x || isSNaN F y || isSNaN F z) = true := by simpa [or_assoc] using hsnan
    rw [hrow, hsnan']
    rfl

theorem sqrt_nan (rm : RoundingMode) {x : Bits F} (h : isNaN F x = true) :
    sqrt F rm x = (cNaN F, nvIf (isSNaN F x)) := by
  cases hs : isSNaN F x <;> simp [sqrt, hs, h, nvIf, flagIf]

theorem convert_nan (G : Format) (rm : RoundingMode) {x : Bits F} (h : isNaN F x = true) :
    convert F G rm x = (cNaN G, nvIf (isSNaN F x)) := by
  cases hs : isSNaN F x with
  | true => simp [convert, hs, nvIf, flagIf]
  | false =>
    have hq : isQNaN F x = true := by rwa [isNaN_eq_or, hs, Bool.or_false] at h
    simp [convert, hs, hq, nvIf, flagIf]

end

/-- Settles O58: no branch gives a NaN but the ones that give the canonical NaN, and a NaN operand takes one of those. -/
theorem naNResultsAreCanonical : Obligations.NaNResultsAreCanonical := by
  unfold Obligations.NaNResultsAreCanonical
  intro F rm x y z
  refine ⟨?_, ?_, fun h => (fma_nan rm h).1, fun h => (fma_nan rm ?_).2 h, fun h => by rw [sqrt_nan rm h], fun h => ?_,
    fun G => ⟨canonicalIfNaN_convert G rm x, fun h => by rw [convert_nan G rm h], fun h => ?_⟩⟩
  · simp only [List.forall_mem_cons]
    exact ⟨canonicalIfNaN_add rm x y, canonicalIfNaN_add rm x (neg F y), canonicalIfNaN_mul rm x y,
      canonicalIfNaN_div rm x y, canonicalIfNaN_sqrt rm x, canonicalIfNaN_fma rm x y z, nofun⟩
  · simp only [List.forall_mem_cons]
    exact ⟨(add_nanRow rm x y).value_and_flags, (sub_nanRow rm x y).value_and_flags,
      (mul_nanRow rm x y).value_and_flags, (div_nanRow rm x y).value_and_flags, nofun⟩
  · exact h.imp isNaN_of_isSNaN (Or.imp isNaN_of_isSNaN isNaN_of_isSNaN)
  · rw [sqrt_nan rm (isNaN_of_isSNaN h), h]
    rfl
  · rw [convert_nan G rm (isNaN_of_isSNaN h), h]
    rfl

end Sys2Proof.Machine.Fp
end

section
/-! PROOFS. 40_numerics.md, 43_convert_move.md section 3 and 46_zfhmin.md section 2: rounding a number of the format is
exact, widening a half is exact, and multiplication goes through single precision. -/

namespace Sys2Proof.Machine.Fp

/-! ### Patterns and their numbers (R111) -/

section
variable {F : Format} {a b : Bits F}

/-- A pattern is determined by its sign and its magnitude: equal magnitudes have equal fields. -/
theorem eq_of_sign_of_abs_valQ (hsign : sign F a = sign F b) (habs : |valQ F a| = |valQ F b|) : a = b := by
  have hunit : (2 : ℚ) ^ (F.emin - F.fracBits) ≠ 0 := by positivity
  rw [abs_valQ_eq_quanta, abs_valQ_eq_quanta] at habs
  have hquanta : quanta F (magnitudeBits F a) = quanta F (magnitudeBits F b) := by
    exact_mod_cast mul_right_cancel₀ hunit habs
  have hbits : expField F a * 2 ^ F.fracBits + fracField F a = expField F b * 2 ^ F.fracBits + fracField F b := by
    rw [← magnitudeBits_eq, ← magnitudeBits_eq, (quanta_strictMono F).injective hquanta]
  have hfrac : fracField F a = fracField F b := by
    have hmod := congrArg (· % 2 ^ F.fracBits) hbits
    simpa only [Nat.mul_add_mod_self_right, Nat.mod_eq_of_lt fracField_lt] using hmod
  have hexp : expField F a = expField F b := by
    rw [hfrac] at hbits
    exact Nat.eq_of_mul_eq_mul_right (by positivity) (Nat.add_right_cancel hbits)
  rw [eq_pack_fields F a, eq_pack_fields F b, hsign, hexp, hfrac]

theorem isFinite_iff : isFinite F a = true ↔ expField F a ≠ expOnes F := by
  have hones : 0 ≠ expOnes F := (expOnes_pos F).ne
  by_cases hE : expField F a = 0
  · by_cases hT : fracField F a = 0 <;> simp [isFinite, isZero, isSub, hE, hT, hones]
  · simp [isFinite, isZero, isSub, isNormal, hE]

/-- The exponent field of infinities and NaNs stands for a magnitude beyond the format's range. -/
theorem isFinite_of_abs_valQ_lt (h : |valQ F a| < 2 ^ (F.emax + 1)) : isFinite F a = true := by
  refine isFinite_iff.2 fun hones => not_le.2 h ?_
  have hexp : (expField F a : ℤ) - F.bias - F.fracBits = F.emax + 1 - F.fracBits := by
    have hbias : F.emax + F.bias + 1 = expOnes F := by cases F <;> rfl
    omega
  rw [abs_valQ_of_expField_ne_zero (hones ▸ (expOnes_pos F).ne'), hexp]
  calc (2 : ℚ) ^ (F.emax + 1) = 2 ^ F.fracBits * 2 ^ (F.emax + 1 - F.fracBits) := by
        rw [zpow_sub₀ two_ne_zero, zpow_natCast]
        field_simp
    _ ≤ (2 ^ F.fracBits + fracField F a) * 2 ^ (F.emax + 1 - F.fracBits) := by
        gcongr
        exact le_add_of_nonneg_right (Nat.cast_nonneg _)

theorem not_isNaN_of_isFinite (h : isFinite F a = true) : isNaN F a = false := by
  simp [isNaN, isFinite_iff.1 h]

theorem not_isInf_of_isFinite (h : isFinite F a = true) : isInf F a = false := by
  simp [isInf, isFinite_iff.1 h]

theorem not_isSNaN_of_not_isNaN (h : isNaN F a = false) : isSNaN F a = false := by simp [isSNaN, h]

theorem not_isQNaN_of_not_isNaN (h : isNaN F a = false) : isQNaN F a = false := by simp [isQNaN, h]

theorem isFinite_of_not_isNaN_of_not_isInf (hnan : isNaN F a = false) (hinf : isInf F a = false) :
    isFinite F a = true :=
  isFinite_iff.2 (expField_ne_expOnes (Bool.eq_false_iff.1 hnan) (Bool.eq_false_iff.1 hinf))

end

/-! ### Rounding is a function of the number -/

section
variable {m m' : Magnitude} {x : ℝ}

theorem floorLog2_eq_of_isValue (hm : m.IsValue x) (hm' : m'.IsValue x) (hpos : 0 < x) :
    m.floorLog2 = m'.floorLog2 := by
  obtain ⟨hlo, hhi⟩ := floorLog2_spec hm hpos
  obtain ⟨hlo', hhi'⟩ := floorLog2_spec hm' hpos
  have hlt : m.floorLog2 < m'.floorLog2 + 1 := (zpow_lt_zpow_iff_right₀ one_lt_two).1 (hlo.trans_lt hhi')
  have hlt' : m'.floorLog2 < m.floorLog2 + 1 := (zpow_lt_zpow_iff_right₀ one_lt_two).1 (hlo'.trans_lt hhi)
  omega

/-- A number has one floor and one place of the rest. -/
theorem IsSplit.unique {y : ℝ} {sp sp' : Split} (h : IsSplit y sp) (h' : IsSplit y sp') : sp = sp' := by
  have hwhole : sp.whole = sp'.whole := by
    obtain ⟨hlo, hhi⟩ := h.floor_bounds
    obtain ⟨hlo', hhi'⟩ := h'.floor_bounds
    have hlt : sp.whole < sp'.whole + 1 := by exact_mod_cast hlo.trans_lt hhi'
    have hlt' : sp'.whole < sp.whole + 1 := by exact_mod_cast hlo'.trans_lt hhi
    omega
  have hzero := h.ne_zero_iff
  have hhalf := h.half_iff
  have habove := h.aboveHalf_iff
  rw [hwhole, ← h'.ne_zero_iff] at hzero
  rw [hwhole, ← h'.half_iff] at hhalf
  rw [hwhole, ← h'.aboveHalf_iff] at habove
  obtain ⟨whole, rest⟩ := sp
  obtain ⟨whole', rest'⟩ := sp'
  obtain rfl : whole = whole' := hwhole
  cases rest <;> cases rest' <;> simp_all

/-- Two magnitudes that stand for one number are rounded alike. -/
theorem round_congr (F : Format) (rm : RoundingMode) (s : Bool) (hm : m.IsValue x) (hm' : m'.IsValue x)
    (hpos : 0 < x) : round F rm s m = round F rm s m' := by
  have hsplit (q : ℤ) : m.split q = m'.split q :=
    (Magnitude.isSplit_split hm q).unique (Magnitude.isSplit_split hm' q)
  simp only [round, floorLog2_eq_of_isValue hm hm' hpos, hsplit]

end

/-! ### Rounding a number of the format (R120) -/

section
variable {F : Format} {rm : RoundingMode} {s : Bool} {m : Magnitude} {x : ℝ} {n : ℕ} {k : ℤ}

/-- A multiple of `2^q` is its own rounding to a multiple of `2^q`. -/
theorem roundInt_split_exact (hx : m.IsValue x) (hxn : x = n * 2 ^ k) {q : ℤ} (hq : q ≤ k) :
    (m.split q).rest = .zero ∧ (roundInt rm s (m.split q) : ℝ) * 2 ^ q = x := by
  have hsplit := Magnitude.isSplit_split hx q
  obtain ⟨j, hj⟩ := Int.eq_ofNat_of_zero_le (sub_nonneg.2 hq)
  have hinteger : x / 2 ^ q = (n * 2 ^ j : ℕ) := by
    rw [hxn, show k = q + j by omega, zpow_add₀ two_ne_zero, zpow_natCast]
    push_cast
    field_simp
  have hrest := hsplit.rest_zero_of_eq_natCast hinteger
  refine ⟨hrest, ?_⟩
  rw [← (hsplit.rest_zero_iff_roundInt rm s).1 hrest, div_mul_cancel₀ _ (by positivity)]

/-- The number of an encoded significand (R120 step 4), in the quantum its size asks for. -/
theorem abs_valQ_encodeRounded (F : Format) (s : Bool) {r : ℕ} {q : ℤ} (hr : r ≤ 2 ^ (F.fracBits + 1))
    (hq : q + F.fracBits ≤ F.emax) (hmin : F.emin - F.fracBits ≤ q)
    (hsub : r < 2 ^ F.fracBits → q = F.emin - F.fracBits) :
    sign F (encodeRounded F s r q) = s ∧ |valQ F (encodeRounded F s r q)| = r * 2 ^ q := by
  have hbias := F.emin_add_bias
  obtain ⟨hcaseSub, hcaseNormal, hcaseNext⟩ := encodeRounded_fields F s hr hq
  obtain hlt | hge := lt_or_ge r (2 ^ F.fracBits)
  · obtain ⟨hs, hE, hT⟩ := hcaseSub hlt
    rw [abs_valQ_of_expField_zero hE, hT, ← hsub hlt]
    exact ⟨hs, rfl⟩
  obtain hlt | hge' := lt_or_ge r (2 ^ (F.fracBits + 1))
  · obtain ⟨hs, hE, hT⟩ := hcaseNormal hge hlt
    rw [abs_valQ_of_expField_ne_zero (by omega), hE, hT, Nat.cast_sub hge,
      show ((q + F.fracBits + F.bias).toNat : ℤ) - F.bias - F.fracBits = q by omega]
    push_cast
    exact ⟨hs, by ring⟩
  · obtain ⟨rfl, hs, hE, hT⟩ := hcaseNext hge'
    rw [abs_valQ_of_expField_ne_zero (by omega), hE, hT,
      show ((q + 1 + F.fracBits + F.bias).toNat : ℤ) - F.bias - F.fracBits = q + 1 by omega, zpow_add_one₀ two_ne_zero]
    push_cast
    exact ⟨hs, by ring⟩

/-- `out` is a finite pattern of the sign `s` and the magnitude `x`. -/
structure Represents (F : Format) (s : Bool) (x : ℚ) (out : Bits F) : Prop where
  signEq : sign F out = s
  finite : isFinite F out = true
  magnitude : |valQ F out| = x

/-- A magnitude with few enough digits, not too small and not too large for the format, is rounded to itself, with no
flag. -/
theorem round_exact {x : ℚ} (hx : m.IsValue (x : ℝ)) (hpos : 0 < x) (hxn : x = n * 2 ^ k)
    (hn : n < 2 ^ (F.fracBits + 1)) (hk : F.emin - F.fracBits ≤ k) (hlt : x < 2 ^ (F.emax + 1)) :
    Represents F s x (round F rm s m).1 ∧ (round F rm s m).2 = flagNone := by
  have hposR : (0 : ℝ) < x := by exact_mod_cast hpos
  have hxnR : (x : ℝ) = n * 2 ^ k := by rw [hxn]; push_cast; rfl
  have hltR : (x : ℝ) < 2 ^ (F.emax + 1) := by simpa using (Rat.cast_lt (K := ℝ)).2 hlt
  obtain ⟨hlo, -⟩ := floorLog2_spec hx hposR
  have hlog : m.floorLog2 < F.fracBits + 1 + k := by
    refine (zpow_lt_zpow_iff_right₀ (one_lt_two (α := ℝ))).1 (hlo.trans_lt ?_)
    rw [hxnR, zpow_add₀ two_ne_zero]
    gcongr
    exact_mod_cast hn
  have hquantum : quantumExp F m ≤ k := by unfold quantumExp; omega
  have hover : ¬ Overflows F rm s m := by
    rw [Overflows, roundUnbounded, (roundInt_split_exact hx hxnR (by omega)).2]
    exact not_le.2 hltR
  obtain ⟨hrest, hvalue⟩ := roundInt_split_exact (rm := rm) (s := s) hx hxnR hquantum
  have hexact : isInexact F m = false := by rw [isInexact, hrest]; rfl
  have hsub : roundInt rm s (m.split (quantumExp F m)) < 2 ^ F.fracBits → quantumExp F m = F.emin - F.fracBits := by
    intro hr
    have hbelow : (x : ℝ) < 2 ^ (quantumExp F m + F.fracBits) := by
      rw [← hvalue, zpow_add₀ two_ne_zero, zpow_natCast, mul_comm]
      gcongr
      exact_mod_cast hr
    have hlog' : m.floorLog2 < quantumExp F m + F.fracBits :=
      (zpow_lt_zpow_iff_right₀ (one_lt_two (α := ℝ))).1 (hlo.trans_lt hbelow)
    unfold quantumExp at hlog' ⊢
    omega
  obtain ⟨hsign, habs⟩ := abs_valQ_encodeRounded F s (roundInt_quantum_le (rm := rm) (s := s) hx hposR)
    (quantumExp_add_fracBits_le hx hposR hover) (by unfold quantumExp; omega) hsub
  have habs' : |valQ F (encodeRounded F s (roundInt rm s (m.split (quantumExp F m))) (quantumExp F m))| = x := by
    rw [habs]
    refine Rat.cast_injective (α := ℝ) ?_
    push_cast
    exact hvalue
  rw [round_of_not_overflows hover, hexact, Bool.and_false]
  exact ⟨⟨hsign, isFinite_of_abs_valQ_lt (habs'.trans_lt hlt), habs'⟩, rfl⟩

/-- The magnitude of a finite number of the format is rounded to that number, with no flag. -/
theorem round_of_abs_valQ {b : Bits F} (hx : m.IsValue ((|valQ F b| : ℚ) : ℝ)) (hfinite : isFinite F b = true)
    (hzero : isZero F b = false) : round F rm (sign F b) m = (b, flagNone) := by
  have hpos : 0 < |valQ F b| := abs_pos.2 (mt valQ_eq_zero_iff.1 (by simp [hzero]))
  have hlt : |valQ F b| < 2 ^ (F.emax + 1) :=
    abs_valQ_lt (by simp [not_isNaN_of_isFinite hfinite]) (by simp [not_isInf_of_isFinite hfinite])
  obtain ⟨hrep, hflags⟩ := round_exact (rm := rm) (s := sign F b) hx hpos (Scaled.abs_toRat _) val_num_lt
    emin_sub_fracBits_le_val_exp hlt
  exact Prod.ext (eq_of_sign_of_abs_valQ hrep.signEq hrep.magnitude) hflags

end
/-! ### Widening a half (R206) -/

section
variable {F G : Format} {rm rm' : RoundingMode} {a : Bits F}

theorem isNaN_cNaN (F : Format) : isNaN F (cNaN F) = true := by cases F <;> decide

theorem isSNaN_cNaN (F : Format) : isSNaN F (cNaN F) = false := by cases F <;> decide

theorem isInf_inf (F : Format) (s : Bool) : isInf F (inf F s) = true := by
  obtain ⟨-, hE, hT⟩ := inf_fields F s
  exact isInf_iff.2 ⟨hE, hT⟩

theorem isZero_zero (F : Format) (s : Bool) : isZero F (zero F s) = true := by
  obtain ⟨-, hE, hT⟩ := zero_fields F s
  exact isZero_iff.2 ⟨hE, hT⟩

theorem sign_inf (F : Format) (s : Bool) : sign F (inf F s) = s := (inf_fields F s).1

theorem sign_zero (F : Format) (s : Bool) : sign F (zero F s) = s := (zero_fields F s).1

theorem eq_inf_of_isInf (h : isInf F a = true) : a = inf F (sign F a) := by
  obtain ⟨hE, hT⟩ := isInf_iff.1 h
  exact HasFields.eq_pack ⟨rfl, hE, hT⟩

theorem eq_zero_of_isZero (h : isZero F a = true) : a = zero F (sign F a) := by
  obtain ⟨hE, hT⟩ := isZero_iff.1 h
  exact HasFields.eq_pack ⟨rfl, hE, hT⟩

theorem isFinite_of_isZero (h : isZero F a = true) : isFinite F a = true := by simp [isFinite, h]

theorem convert_of_isInf (G : Format) (rm : RoundingMode) (h : isInf F a = true) :
    convert F G rm a = (inf G (sign F a), flagNone) := by
  have hnan : isNaN F a = false := by rw [eq_inf_of_isInf h]; exact isNaN_inf F _
  simp [convert, not_isSNaN_of_not_isNaN hnan, not_isQNaN_of_not_isNaN hnan, h]

theorem convert_of_isZero (G : Format) (rm : RoundingMode) (h : isZero F a = true) :
    convert F G rm a = (zero G (sign F a), flagNone) := by
  have hfinite : isFinite F a = true := isFinite_of_isZero h
  have hnan : isNaN F a = false := not_isNaN_of_isFinite hfinite
  simp [convert, not_isSNaN_of_not_isNaN hnan, not_isQNaN_of_not_isNaN hnan, not_isInf_of_isFinite hfinite, h]

theorem convert_of_isFinite (G : Format) (rm : RoundingMode) (hfinite : isFinite F a = true) (h : isZero F a = false) :
    convert F G rm a = round G rm (sign F a) (val F a).magnitude := by
  have hnan : isNaN F a = false := not_isNaN_of_isFinite hfinite
  simp [convert, not_isSNaN_of_not_isNaN hnan, not_isQNaN_of_not_isNaN hnan, not_isInf_of_isFinite hfinite, h]

theorem abs_valQ_pos (h : isZero F a = false) : 0 < |valQ F a| :=
  abs_pos.2 (mt valQ_eq_zero_iff.1 (Bool.eq_false_iff.1 h))

/-- Every format has the digits and the range of the half-precision numbers. -/
theorem format_includes_H (G : Format) :
    Format.fracBits .H ≤ G.fracBits ∧ G.emin - G.fracBits ≤ Format.emin .H - Format.fracBits .H ∧
      Format.emax .H ≤ G.emax := by
  cases G <;> decide

/-- R206: a finite half is converted to the same number, with no flag, in every mode. -/
theorem convert_H_of_isFinite (G : Format) (rm : RoundingMode) {a : Bits .H} (h : isFinite .H a = true) :
    Represents G (sign .H a) |valQ .H a| (convert .H G rm a).1 ∧ (convert .H G rm a).2 = flagNone := by
  cases hzero : isZero .H a with
  | true =>
    rw [convert_of_isZero G rm hzero, valQ_eq_zero_iff.2 hzero]
    exact ⟨⟨sign_zero G _, isFinite_of_isZero (isZero_zero G _), by
      rw [valQ_eq_zero_iff.2 (isZero_zero G _)]⟩, rfl⟩
  | false =>
    obtain ⟨hdigits, hmin, hmax⟩ := format_includes_H G
    have hexp : Format.emin .H - Format.fracBits .H ≤ (val .H a).exp := emin_sub_fracBits_le_val_exp
    rw [convert_of_isFinite G rm h hzero]
    refine round_exact (val .H a).magnitude_isValue (abs_valQ_pos hzero) (Scaled.abs_toRat _) ?_ (by omega) ?_
    · exact val_num_lt.trans_le (Nat.pow_le_pow_right two_pos (by omega))
    · calc |valQ .H a| < 2 ^ (Format.emax .H + 1) :=
            abs_valQ_lt (by simp [not_isNaN_of_isFinite h]) (by simp [not_isInf_of_isFinite h])
        _ ≤ 2 ^ (G.emax + 1) := zpow_le_zpow_right₀ one_le_two (by omega)

theorem Represents.valQ_eq {b : Bits G} (h : Represents G (sign F a) |valQ F a| b) : valQ G b = valQ F a := by
  rw [valQ_eq_sign_mul_abs, h.signEq, h.magnitude, ← valQ_eq_sign_mul_abs]

theorem Represents.isZero_eq {b : Bits G} (h : Represents G (sign F a) |valQ F a| b) : isZero G b = isZero F a := by
  rw [Bool.eq_iff_iff, ← valQ_eq_zero_iff, ← valQ_eq_zero_iff, h.valQ_eq]

theorem Represents.unique {s : Bool} {x : ℚ} {b c : Bits G} (hb : Represents G s x b) (hc : Represents G s x c) :
    b = c := eq_of_sign_of_abs_valQ (hb.signEq.trans hc.signEq.symm) (hb.magnitude.trans hc.magnitude.symm)

/-- Converting a pattern with the number of a pattern of the target gives that pattern, with no flag. -/
theorem convert_of_represents {b : Bits G} (hfinite : isFinite F a = true)
    (h : Represents G (sign F a) |valQ F a| b) : convert G F rm b = (a, flagNone) := by
  cases hzero : isZero F a with
  | true => rw [convert_of_isZero F rm (h.isZero_eq.trans hzero), h.signEq, ← eq_zero_of_isZero hzero]
  | false =>
    rw [convert_of_isFinite F rm h.finite (h.isZero_eq.trans hzero), h.signEq]
    refine round_of_abs_valQ ?_ hfinite hzero
    rw [← h.magnitude]
    exact (val G b).magnitude_isValue

end

/-- Settles O59: a NaN, an infinity and a zero have their own branches; any other half is a number of every format, so
rounding it is exact, there and back. -/
theorem wideningIsExact : Obligations.WideningIsExact := by
  unfold Obligations.WideningIsExact
  intro G rm rm' a _
  cases hnan : isNaN .H a with
  | true =>
    rw [convert_nan G rm hnan, convert_nan G rm' hnan]
    exact ⟨rfl, rfl, fun hfinite => absurd hnan (by simp [not_isNaN_of_isFinite hfinite]), nofun⟩
  | false =>
  rw [not_isSNaN_of_not_isNaN hnan]
  cases hinf : isInf .H a with
  | true =>
    rw [convert_of_isInf G rm hinf, convert_of_isInf G rm' hinf]
    refine ⟨rfl, rfl, fun hfinite => absurd hinf (by simp [not_isInf_of_isFinite hfinite]), fun _ => ?_⟩
    rw [convert_of_isInf .H rm' (isInf_inf G _), sign_inf, ← eq_inf_of_isInf hinf]
  | false =>
    have hfinite := isFinite_of_not_isNaN_of_not_isInf hnan hinf
    obtain ⟨hrep, hflags⟩ := convert_H_of_isFinite G rm hfinite
    obtain ⟨hrep', hflags'⟩ := convert_H_of_isFinite G rm' hfinite
    exact ⟨Prod.ext (hrep.unique hrep') (hflags.trans hflags'.symm), hflags, fun _ => hrep.valQ_eq,
      fun _ => convert_of_represents hfinite hrep⟩

/-! ### Multiplication through single precision (R259) -/

section
variable {F : Format} {x y : Bits F}

theorem mul_of_invalid (rm : RoundingMode) (hnan : (isNaN F x || isNaN F y) = false)
    (h : ((isInf F x && isZero F y) || (isZero F x && isInf F y)) = true) : mul F rm x y = (cNaN F, flagNV) := by
  simp only [mul, hnan, h, if_true, Bool.false_eq_true, if_false]

theorem mul_of_isInf (rm : RoundingMode) (hnan : (isNaN F x || isNaN F y) = false)
    (hvalid : ((isInf F x && isZero F y) || (isZero F x && isInf F y)) = false)
    (h : (isInf F x || isInf F y) = true) : mul F rm x y = (inf F (sign F x ^^ sign F y), flagNone) := by
  simp only [mul, hnan, hvalid, h, if_true, Bool.false_eq_true, if_false]

theorem mul_of_isZero (rm : RoundingMode) (hnan : (isNaN F x || isNaN F y) = false)
    (hvalid : ((isInf F x && isZero F y) || (isZero F x && isInf F y)) = false)
    (hinf : (isInf F x || isInf F y) = false) (h : (isZero F x || isZero F y) = true) :
    mul F rm x y = (zero F (sign F x ^^ sign F y), flagNone) := by
  simp only [mul, hnan, hvalid, hinf, h, if_true, Bool.false_eq_true, if_false]

theorem mul_of_finite (rm : RoundingMode) (hnan : (isNaN F x || isNaN F y) = false)
    (hvalid : ((isInf F x && isZero F y) || (isZero F x && isInf F y)) = false)
    (hinf : (isInf F x || isInf F y) = false) (hzero : (isZero F x || isZero F y) = false) :
    mul F rm x y = round F rm (sign F x ^^ sign F y) ((val F x).mul (val F y)).magnitude := by
  simp only [mul, hnan, hvalid, hinf, hzero, Bool.false_eq_true, if_false]

theorem Scaled.mul_magnitude_isValue (v u : Scaled) :
    (v.mul u).magnitude.IsValue ((|v.toRat| * |u.toRat| : ℚ) : ℝ) := by
  rw [← abs_mul, ← Scaled.toRat_mul]
  exact (v.mul u).magnitude_isValue

end

/-- Widening a half that is no NaN keeps its class and its sign, and sets no flag. -/
structure KeepsClass (G : Format) (a : Bits .H) (out : Bits G × FlagSet) : Prop where
  flags : out.2 = flagNone
  nan : isNaN G out.1 = false
  inf : isInf G out.1 = isInf .H a
  zero : isZero G out.1 = isZero .H a
  signEq : sign G out.1 = sign .H a

theorem convert_H_keepsClass (G : Format) (rm : RoundingMode) {a : Bits .H} (hnan : isNaN .H a = false) :
    KeepsClass G a (convert .H G rm a) := by
  cases hinf : isInf .H a with
  | true =>
    have hzero : isZero .H a = false := Bool.eq_false_iff.2 fun hz => by
      simp [not_isInf_of_isFinite (isFinite_of_isZero hz)] at hinf
    have hzeroG : isZero G (inf G (sign .H a)) = false := Bool.eq_false_iff.2 fun hz => by
      simpa [not_isInf_of_isFinite (isFinite_of_isZero hz)] using isInf_inf G (sign .H a)
    rw [convert_of_isInf G rm hinf]
    exact ⟨rfl, isNaN_inf G _, (isInf_inf G _).trans hinf.symm, hzeroG.trans hzero.symm, sign_inf G _⟩
  | false =>
    obtain ⟨hrep, hflags⟩ := convert_H_of_isFinite G rm (isFinite_of_not_isNaN_of_not_isInf hnan hinf)
    exact ⟨hflags, not_isNaN_of_isFinite hrep.finite, (not_isInf_of_isFinite hrep.finite).trans hinf.symm,
      hrep.isZero_eq, hrep.signEq⟩

theorem isNaN_convert_H (G : Format) (rm : RoundingMode) (a : Bits .H) :
    isNaN G (convert .H G rm a).1 = isNaN .H a := by
  cases hnan : isNaN .H a with
  | true => rw [convert_nan G rm hnan]; exact isNaN_cNaN G
  | false => exact (convert_H_keepsClass G rm hnan).nan

theorem isSNaN_convert (F G : Format) (rm : RoundingMode) (a : Bits F) : isSNaN G (convert F G rm a).1 = false := by
  refine Bool.eq_false_iff.2 fun hsnan => ?_
  have hcanonical := canonicalIfNaN_convert G rm a (isNaN_of_isSNaN hsnan)
  rw [hcanonical, isSNaN_cNaN] at hsnan
  cases hsnan

theorem convert_H_flags (G : Format) (rm : RoundingMode) (a : Bits .H) :
    (convert .H G rm a).2 = nvIf (isSNaN .H a) := by
  cases hnan : isNaN .H a with
  | true => rw [convert_nan G rm hnan]
  | false => rw [(convert_H_keepsClass G rm hnan).flags, not_isSNaN_of_not_isNaN hnan]; rfl

theorem nvIf_or (c d : Bool) : nvIf c ||| nvIf d = nvIf (c || d) := by cases c <;> cases d <;> rfl

/-- The product of two finite halves is a number of single precision: it has 22 digits and no exponent below -48. -/
theorem mul_S_exact (rm : RoundingMode) (s : Bool) {m : Magnitude} {a b : Bits .H}
    (ha : isFinite .H a = true) (hb : isFinite .H b = true) (hza : isZero .H a = false) (hzb : isZero .H b = false)
    (hm : m.IsValue ((|valQ .H a| * |valQ .H b| : ℚ) : ℝ)) :
    Represents .S s (|valQ .H a| * |valQ .H b|) (round .S rm s m).1 ∧ (round .S rm s m).2 = flagNone := by
  have hexpa : Format.emin .H - Format.fracBits .H ≤ (val .H a).exp := emin_sub_fracBits_le_val_exp
  have hexpb : Format.emin .H - Format.fracBits .H ≤ (val .H b).exp := emin_sub_fracBits_le_val_exp
  have hproduct : |valQ .H a| * |valQ .H b| =
      ((val .H a).num.natAbs * (val .H b).num.natAbs : ℕ) * 2 ^ ((val .H a).exp + (val .H b).exp) := by
    rw [valQ, valQ, Scaled.abs_toRat, Scaled.abs_toRat, zpow_add₀ two_ne_zero]
    push_cast
    ring
  refine round_exact hm (mul_pos (abs_valQ_pos hza) (abs_valQ_pos hzb)) hproduct ?_ ?_ ?_
  · calc (val .H a).num.natAbs * (val .H b).num.natAbs < 2 ^ (10 + 1) * 2 ^ (10 + 1) :=
          Nat.mul_lt_mul'' val_num_lt val_num_lt
      _ ≤ 2 ^ (Format.fracBits .S + 1) := by decide
  · have hmin : Format.emin .S - Format.fracBits .S ≤
        (Format.emin .H - Format.fracBits .H) + (Format.emin .H - Format.fracBits .H) := by decide
    omega
  · have hlt {c : Bits .H} (hc : isFinite .H c = true) : |valQ .H c| < 2 ^ (Format.emax .H + 1) :=
      abs_valQ_lt (by simp [not_isNaN_of_isFinite hc]) (by simp [not_isInf_of_isFinite hc])
    calc |valQ .H a| * |valQ .H b| < 2 ^ (Format.emax .H + 1) * 2 ^ (Format.emax .H + 1) :=
          mul_lt_mul'' (hlt ha) (hlt hb) (abs_nonneg _) (abs_nonneg _)
      _ = 2 ^ ((Format.emax .H + 1) + (Format.emax .H + 1)) := (zpow_add₀ two_ne_zero _ _).symm
      _ ≤ 2 ^ (Format.emax .S + 1) := zpow_le_zpow_right₀ one_le_two (by decide)

/-- The last two steps of R259: the product `p` narrowed, and the flags of the product and of the narrowing. -/
def narrowProduct (rm : RoundingMode) (p : Bits .S × FlagSet) : Bits .H × FlagSet :=
  ((convert .S .H rm p.1).1, p.2 ||| (convert .S .H rm p.1).2)

theorem or_flagNone (fl : FlagSet) : fl ||| flagNone = fl := BitVec.or_zero

theorem flagNone_or (fl : FlagSet) : flagNone ||| fl = fl := BitVec.zero_or

theorem narrowProduct_cNaN (rm : RoundingMode) (fl : FlagSet) :
    narrowProduct rm (cNaN .S, fl) = (cNaN .H, fl) := by
  have hnarrow : convert .S .H rm (cNaN .S) = (cNaN .H, flagNone) :=
    (convert_nan .H rm (isNaN_cNaN .S)).trans (by rw [isSNaN_cNaN]; rfl)
  simp only [narrowProduct, hnarrow, or_flagNone]

theorem narrowProduct_inf (rm : RoundingMode) (s : Bool) :
    narrowProduct rm (inf .S s, flagNone) = (inf .H s, flagNone) := by
  simp only [narrowProduct, convert_of_isInf .H rm (isInf_inf .S s), sign_inf, or_flagNone]

theorem narrowProduct_zero (rm : RoundingMode) (s : Bool) :
    narrowProduct rm (zero .S s, flagNone) = (zero .H s, flagNone) := by
  simp only [narrowProduct, convert_of_isZero .H rm (isZero_zero .S s), sign_zero, or_flagNone]

/-- An exact product is narrowed to the one rounding of the product in half precision. -/
theorem narrowProduct_of_represents (rm : RoundingMode) {s : Bool} {m : Magnitude} {x : ℚ} {p : Bits .S × FlagSet}
    (hrep : Represents .S s x p.1) (hflags : p.2 = flagNone) (hm : m.IsValue (x : ℝ)) (hpos : 0 < x) :
    narrowProduct rm p = round .H rm s m := by
  have hzero : isZero .S p.1 = false := Bool.eq_false_iff.2 fun hz => by
    have hmag := hrep.magnitude
    rw [valQ_eq_zero_iff.2 hz, abs_zero] at hmag
    exact hpos.ne hmag
  have hvalue : (val .S p.1).magnitude.IsValue (x : ℝ) := by
    rw [← hrep.magnitude]
    exact (val .S p.1).magnitude_isValue
  rw [narrowProduct, hflags, flagNone_or, convert_of_isFinite .H rm hrep.finite hzero, hrep.signEq,
    round_congr .H rm s hvalue hm (by exact_mod_cast hpos)]

/-- R259 for halves that are no NaNs: an infinity or a zero takes the same row in both formats; a product of other halves
is exact in single precision, so the narrowing is the one rounding. -/
theorem narrowProduct_mul (rm : RoundingMode) {a b : Bits .H} (hnan : (isNaN .H a || isNaN .H b) = false) :
    narrowProduct rm (mul .S rm (convert .H .S rm a).1 (convert .H .S rm b).1) = mul .H rm a b := by
  obtain ⟨hna, hnb⟩ := Bool.or_eq_false_iff.1 hnan
  obtain ⟨-, hnaS, hinfa, hzeroa, hsigna⟩ := convert_H_keepsClass .S rm hna
  obtain ⟨-, hnbS, hinfb, hzerob, hsignb⟩ := convert_H_keepsClass .S rm hnb
  have hnanS : (isNaN .S (convert .H .S rm a).1 || isNaN .S (convert .H .S rm b).1) = false := by
    rw [hnaS, hnbS]; rfl
  cases hinvalid : (isInf .H a && isZero .H b) || (isZero .H a && isInf .H b) with
  | true =>
    rw [mul_of_invalid rm hnanS (by rw [hinfa, hinfb, hzeroa, hzerob, hinvalid]), mul_of_invalid rm hnan hinvalid,
      narrowProduct_cNaN]
  | false =>
  have hvalidS : ((isInf .S (convert .H .S rm a).1 && isZero .S (convert .H .S rm b).1) ||
      (isZero .S (convert .H .S rm a).1 && isInf .S (convert .H .S rm b).1)) = false := by
    rw [hinfa, hinfb, hzeroa, hzerob, hinvalid]
  cases hinf : isInf .H a || isInf .H b with
  | true =>
    rw [mul_of_isInf rm hnanS hvalidS (by rw [hinfa, hinfb, hinf]), mul_of_isInf rm hnan hinvalid hinf, hsigna, hsignb,
      narrowProduct_inf]
  | false =>
  have hinfS : (isInf .S (convert .H .S rm a).1 || isInf .S (convert .H .S rm b).1) = false := by
    rw [hinfa, hinfb, hinf]
  cases hzero : isZero .H a || isZero .H b with
  | true =>
    rw [mul_of_isZero rm hnanS hvalidS hinfS (by rw [hzeroa, hzerob, hzero]),
      mul_of_isZero rm hnan hinvalid hinf hzero, hsigna, hsignb, narrowProduct_zero]
  | false =>
  obtain ⟨hia, hib⟩ := Bool.or_eq_false_iff.1 hinf
  obtain ⟨hza, hzb⟩ := Bool.or_eq_false_iff.1 hzero
  have ha := isFinite_of_not_isNaN_of_not_isInf hna hia
  have hb := isFinite_of_not_isNaN_of_not_isInf hnb hib
  have hvalue : ((val .S (convert .H .S rm a).1).mul (val .S (convert .H .S rm b).1)).magnitude.IsValue
      ((|valQ .H a| * |valQ .H b| : ℚ) : ℝ) := by
    rw [← (convert_H_of_isFinite .S rm ha).1.magnitude, ← (convert_H_of_isFinite .S rm hb).1.magnitude]
    exact Scaled.mul_magnitude_isValue _ _
  obtain ⟨hrep, hflags⟩ := mul_S_exact rm (sign .H a ^^ sign .H b) ha hb hza hzb hvalue
  rw [mul_of_finite rm hnanS hvalidS hinfS (by rw [hzeroa, hzerob, hzero]), mul_of_finite rm hnan hinvalid hinf hzero,
    hsigna, hsignb]
  exact narrowProduct_of_represents rm hrep hflags (Scaled.mul_magnitude_isValue _ _)
    (mul_pos (abs_valQ_pos hza) (abs_valQ_pos hzb))

/-- R259 for a NaN operand: the widening sets NV for a signaling one and leaves no signaling NaN. -/
theorem narrowProduct_mul_of_nan (rm : RoundingMode) {a b : Bits .H} (hnan : (isNaN .H a || isNaN .H b) = true) :
    narrowProduct rm (mul .S rm (convert .H .S rm a).1 (convert .H .S rm b).1) = (cNaN .H, flagNone) := by
  have hnanS : isNaN .S (convert .H .S rm a).1 = true ∨ isNaN .S (convert .H .S rm b).1 = true := by
    rw [isNaN_convert_H, isNaN_convert_H]
    exact Bool.or_eq_true_iff.1 hnan
  rw [mul_nanRow rm _ _ hnanS, narrowProduct_cNaN, isSNaN_convert, isSNaN_convert]
  rfl

/-- Settles O60: the flags of the widenings are those of a NaN operand, and the product and its narrowing give the rest. -/
theorem multiplyThroughSingle : Obligations.MultiplyThroughSingle := by
  unfold Obligations.MultiplyThroughSingle
  intro rm a b wa wb p n
  have hwiden : wa.2 ||| wb.2 = nvIf (isSNaN .H a || isSNaN .H b) := by
    rw [← nvIf_or, ← convert_H_flags .S rm a, ← convert_H_flags .S rm b]
  suffices h : (n.1, wa.2 ||| wb.2 ||| (p.2 ||| n.2)) = mul .H rm a b by
    rw [← h, ← BitVec.or_assoc]
    exact ⟨rfl, rfl⟩
  cases hnan : isNaN .H a || isNaN .H b with
  | true =>
    obtain ⟨hvalue, hflags⟩ := Prod.ext_iff.1 (narrowProduct_mul_of_nan rm hnan)
    rw [mul_nanRow rm a b (Bool.or_eq_true_iff.1 hnan), ← hwiden]
    exact Prod.ext hvalue ((congrArg (wa.2 ||| wb.2 ||| ·) hflags).trans (or_flagNone _))
  | false =>
    obtain ⟨hna, hnb⟩ := Bool.or_eq_false_iff.1 hnan
    rw [hwiden, not_isSNaN_of_not_isNaN hna, not_isSNaN_of_not_isNaN hnb, ← narrowProduct_mul rm hnan]
    exact Prod.ext rfl (flagNone_or _)

end Sys2Proof.Machine.Fp
end

section
/-! PROOFS. 10_state.md: the flags each arithmetic function can set (R30), and what an instruction does to the state. -/

namespace Sys2Proof.Machine

/-! ### The flags of the arithmetic functions (R30) -/

/-- The four flags beside NV. -/
def allButNV : FlagSet := flagDZ ||| flagOF ||| flagUF ||| flagNX

def allFlags : FlagSet := flagNV ||| allButNV

namespace Fp

theorem flagIf_and {fl fl' : FlagSet} (h : fl &&& fl' = 0) (c : Bool) : flagIf c fl &&& fl' = 0 := by
  cases c
  exacts [flagNone_and fl', h]

theorem add_flagDZ (F : Format) (rm : RoundingMode) (x y : Bits F) : (add F rm x y).2 &&& flagDZ = 0 := by
  have hNV : flagNV &&& flagDZ = 0 := by decide
  unfold add
  split_ifs
  · exact nvIf_and hNV _
  · exact hNV
  · exact flagNone_and flagDZ
  · exact flagNone_and flagDZ
  · exact flagNone_and flagDZ
  · exact flagNone_and flagDZ
  · exact roundSum_flagDZ F rm _

theorem mul_flagDZ (F : Format) (rm : RoundingMode) (x y : Bits F) : (mul F rm x y).2 &&& flagDZ = 0 := by
  have hNV : flagNV &&& flagDZ = 0 := by decide
  unfold mul
  dsimp only
  split_ifs
  · exact nvIf_and hNV _
  · exact hNV
  · exact flagNone_and flagDZ
  · exact flagNone_and flagDZ
  · exact round_flagDZ F rm _ _

theorem convert_flagDZ (F G : Format) (rm : RoundingMode) (x : Bits F) : (convert F G rm x).2 &&& flagDZ = 0 := by
  unfold convert
  split_ifs
  · exact (by decide : flagNV &&& flagDZ = 0)
  · exact flagNone_and flagDZ
  · exact flagNone_and flagDZ
  · exact flagNone_and flagDZ
  · exact round_flagDZ G rm _ _

theorem round_flagNV (F : Format) (rm : RoundingMode) (s : Bool) (m : Magnitude) :
    (round F rm s m).2 &&& flagNV = 0 := by
  by_cases h : Overflows F rm s m
  · simp only [round_of_overflows h]
    rfl
  · simp only [round_of_not_overflows h]
    cases isInexact F m <;> cases isTiny F rm s m <;> rfl

/-- A rounded integer is not tiny: it is at least 1. -/
theorem fromInt_flags (rm : RoundingMode) (n : ℤ) :
    (fromInt .H rm n).2 &&& (flagNV ||| flagDZ ||| flagUF) = 0 := by
  unfold fromInt
  split
  · exact flagNone_and _
  next hn =>
    have hvalue := (⟨n, 0⟩ : Scaled).magnitude_isValue
    have hone : (1 : ℝ) ≤ ((|(⟨n, 0⟩ : Scaled).toRat| : ℚ) : ℝ) := by
      have hint : (⟨n, 0⟩ : Scaled).toRat = n := by simp [Scaled.toRat]
      rw [hint]
      exact_mod_cast Int.one_le_abs hn
    have hmin : (2 : ℝ) ^ Format.emin .H ≤ 1 := zpow_le_one_of_nonpos₀ one_le_two (by decide)
    have htiny := not_isTiny_of_le (rm := rm) (s := n < 0) hvalue (by linarith) (hmin.trans hone)
    rw [BitVec.and_or_distrib_left, BitVec.and_or_distrib_left, round_flagNV, round_flagDZ,
      round_flagUF_eq_zero (.inl htiny)]
    rfl

theorem toInt_flags (F : Format) (rm : RoundingMode) (a : Bits F) (lo hi : ℤ) :
    (toInt F rm a lo hi).2 &&& (flagDZ ||| flagOF ||| flagUF) = 0 := by
  have hNV : flagNV &&& (flagDZ ||| flagOF ||| flagUF) = 0 := by decide
  unfold toInt
  extract_lets x r v
  split_ifs
  · exact hNV
  · exact hNV
  · exact hNV
  · exact hNV
  · exact hNV
  · exact flagIf_and (by decide) _

/-! The results that can set NV only. -/

theorem extremum_flags_within (F : Format) (isMax : Bool) (a b : Bits F) :
    (extremum F isMax a b).2 &&& allButNV = 0 := by
  rw [extremum_flags]
  exact nvIf_and (by decide) _

theorem compare_flags_within (F : Format) (op : Comparison) (a b : Bits F) :
    (compare F op a b).2 &&& allButNV = 0 := by
  rw [compare_snd]
  exact nvIf_and (by decide) _

theorem convert_H_flags_within (G : Format) (rm : RoundingMode) (a : Bits .H) :
    (convert .H G rm a).2 &&& allButNV = 0 := by
  rw [convert_H_flags]
  exact nvIf_and (by decide) _

end Fp

/-! ### What an instruction does to the state -/

/-- The changes an instruction can make, with its operands read and its result computed. -/
inductive Effect where
  | raise (e : Exception)
  /-- an instruction of the extension completes: a value of the format goes to `f[rd]`, boxed -/
  | writeF (rd : FReg) (F : Format) (v : Fp.Bits F) (fl : FlagSet)
  /-- an instruction of the extension completes: a value goes to `x[rd]` -/
  | writeX (rd : XReg) (v : Word) (fl : FlagSet)
  /-- FSH completes -/
  | store (a : Word) (h : BitVec 16)
  /-- an instruction of the host subset completes: a value goes to `x[rd]`, and control to `target` -/
  | jump (rd : XReg) (v target : Word)
  /-- a CSR instruction completes: a new value goes to the CSR, or none, and the old one to `x[rd]` -/
  | csr (c : Csr) (new : Option Word) (rd : XReg) (old : Word)

/-- The state with a CSR written, or as it was. -/
def State.writeCsr? (s : State) (c : Csr) : Option Word → State
  | some v => s.writeCsr c v
  | none => s

/-- The state after the change. -/
def Effect.apply (s : State) : Effect → State
  | .raise e => s.raise e
  | .writeF rd F v fl => s.finishF rd (box s.params F v) fl
  | .writeX rd v fl => s.finishX rd v fl
  | .store a h => (s.writeHalf a h).completeFp false
  | .jump rd v target => { s.writeX rd v with pc := target }
  | .csr c new rd old => ((s.writeCsr? c new).writeX rd old).advance

/-- Where a completed instruction of the host subset goes on. -/
inductive Target (i : Instr) (s : State) : Word → Prop where
  | next : Target i s s.nextPc
  | taken {n : Nat} (off : BitVec n) (heven : i.wellFormed = true → off.getLsbD 0 = false)
      (haligned : (s.branchTarget off).getLsbD 1 = false) : Target i s (s.branchTarget off)
  | handlerReturn : Target i s s.mepc

/-- Which changes an instruction makes in a state. -/
inductive Does (i : Instr) (s : State) : Effect → Prop where
  | raise (e : Exception) (h : i.isZfh = true → ¬ Completes s i) : Does i s (.raise e)
  | writeHalf {rd : FReg} {v : Fp.Bits .H} {fl : FlagSet} (h : Completes s i) (hz : i.isZfh = true)
      (hdest : i.halfDest? = some rd) (hflags : fl &&& ~~~ i.flagMask = 0) : Does i s (.writeF rd .H v fl)
  | widen {rd : FReg} {F : Format} {v : Fp.Bits F} {fl : FlagSet} (h : Completes s i) (hz : i.isZfh = true)
      (hdest : i.halfDest? = none) (hwrites : i.writesF = true) (hflags : fl &&& ~~~ i.flagMask = 0) :
      Does i s (.writeF rd F v fl)
  | writeX {rd : XReg} {v : Word} {fl : FlagSet} (h : Completes s i) (hz : i.isZfh = true)
      (hdest : i.writesF = false) (hflags : fl &&& ~~~ i.flagMask = 0) : Does i s (.writeX rd v fl)
  | store {rs2 : FReg} {rs1 : XReg} {imm : BitVec 12} (hi : i = .fsh rs2 rs1 imm) (h : Completes s i) :
      Does i s (.store (s.effectiveAddr rs1 imm) (s.rawHalf rs2))
  | jump {rd : XReg} {v target : Word} (hz : i.isZfh = false) (hc : i.isCsr = false) (ht : Target i s target) :
      Does i s (.jump rd v target)
  | csr {c : Csr} {new : Option Word} {rd : XReg} {old : Word} (hz : i.isZfh = false) (hc : i.isCsr = true) :
      Does i s (.csr c new rd old)

/-! ### The instructions of the extension -/

/-- The change that `i` makes in `s` is `eff`, and it makes the same from cleared flags. -/
def Runs (i : Instr) (s : State) (eff : Effect) : Prop :=
  exec i s = .next (eff.apply s) ∧ exec i s.flagsCleared = .next (eff.apply s.flagsCleared)

theorem Completes.flagsCleared {s : State} {i : Instr} (h : Completes s i) : Completes s.flagsCleared i where
  enabled := h.enabled
  rounding rm hrm := by
    rw [State.flagsCleared_roundingMode]
    exact h.rounding rm hrm
  access := h.access

section
variable {s : State} {i : Instr}

/-- Flags that miss every flag outside the mask lie within it. -/
theorem and_not_flagMask {fl others : FlagSet} (hmask : i.flagMask = ~~~others) (h : fl &&& others = 0) :
    fl &&& ~~~i.flagMask = 0 := by rw [hmask, BitVec.not_not, h]

/-- An instruction behind the gate that completes does what the gate guards. -/
theorem Completes.runs_of_whenFpOn {eff : Effect} (h : Completes s i)
    (hexec : exec i s = .next (s.whenFpOn i (eff.apply s)))
    (hexec' : exec i s.flagsCleared = .next (s.flagsCleared.whenFpOn i (eff.apply s.flagsCleared))) :
    Runs i s eff := by
  constructor
  · rw [hexec, State.whenFpOn_enabled h.enabled]
  · rw [hexec', State.whenFpOn_enabled h.flagsCleared.enabled]

/-- The same of the gate with a rounding mode. -/
theorem Completes.runs_of_whenRounding {rm : RmField} {eff : RoundingMode → Effect} (h : Completes s i)
    (hrm : i.rmField? = some rm)
    (hexec : exec i s = .next (s.whenRounding i rm fun r => (eff r).apply s))
    (hexec' : exec i s.flagsCleared =
      .next (s.flagsCleared.whenRounding i rm fun r => (eff r).apply s.flagsCleared)) :
    ∃ r, Runs i s (eff r) := by
  obtain ⟨r, hr, hbody⟩ := State.whenRounding_completes h hrm fun r => (eff r).apply s
  refine ⟨r, by rw [hexec, hbody], ?_⟩
  rw [hexec', State.whenRounding_enabled h.flagsCleared.enabled (by rw [State.flagsCleared_roundingMode, hr])]

/-- A half-precision result, computed in the effective rounding mode. -/
theorem Completes.does_writeHalf_rounding {rm : RmField} {rd : FReg} {result : RoundingMode → Fp.Bits .H × FlagSet}
    {others : FlagSet} (h : Completes s i) (hz : i.isZfh = true) (hrm : i.rmField? = some rm)
    (hdest : i.halfDest? = some rd) (hflags : ∀ r, (result r).2 &&& others = 0) (hmask : i.flagMask = ~~~others)
    (hexec : exec i s =
      .next (s.whenRounding i rm fun r => s.finishF rd (box s.params .H (result r).1) (result r).2))
    (hexec' : exec i s.flagsCleared = .next (s.flagsCleared.whenRounding i rm fun r =>
      s.flagsCleared.finishF rd (box s.params .H (result r).1) (result r).2)) :
    ∃ eff, Does i s eff ∧ Runs i s eff := by
  obtain ⟨r, hrun⟩ :=
    h.runs_of_whenRounding (eff := fun r => .writeF rd .H (result r).1 (result r).2) hrm hexec hexec'
  exact ⟨_, .writeHalf h hz hdest (and_not_flagMask hmask (hflags r)), hrun⟩

/-- The same of an instruction with no rounding mode. -/
theorem Completes.does_writeHalf {rd : FReg} {result : Fp.Bits .H × FlagSet} {others : FlagSet}
    (h : Completes s i) (hz : i.isZfh = true) (hdest : i.halfDest? = some rd)
    (hflags : result.2 &&& others = 0) (hmask : i.flagMask = ~~~others)
    (hexec : exec i s = .next (s.whenFpOn i (s.finishF rd (box s.params .H result.1) result.2)))
    (hexec' : exec i s.flagsCleared =
      .next (s.flagsCleared.whenFpOn i (s.flagsCleared.finishF rd (box s.params .H result.1) result.2))) :
    ∃ eff, Does i s eff ∧ Runs i s eff :=
  ⟨_, .writeHalf h hz hdest (and_not_flagMask hmask hflags),
    h.runs_of_whenFpOn (eff := .writeF rd .H result.1 result.2) hexec hexec'⟩

/-- An integer result of an instruction with no rounding mode. -/
theorem Completes.does_writeX {rd : XReg} {v : Word} {fl others : FlagSet} (h : Completes s i) (hz : i.isZfh = true)
    (hdest : i.writesF = false) (hflags : fl &&& others = 0) (hmask : i.flagMask = ~~~others)
    (hexec : exec i s = .next (s.whenFpOn i (s.finishX rd v fl)))
    (hexec' : exec i s.flagsCleared = .next (s.flagsCleared.whenFpOn i (s.flagsCleared.finishX rd v fl))) :
    ∃ eff, Does i s eff ∧ Runs i s eff :=
  ⟨_, .writeX h hz hdest (and_not_flagMask hmask hflags), h.runs_of_whenFpOn (eff := .writeX rd v fl) hexec hexec'⟩

/-- R190: each conversion to an integer sets NV and NX at most. -/
theorem Completes.does_halfToInt {rm : RmField} {rd : XReg} {rs1 : FReg} {n : Nat} {lo hi : Int}
    (h : Completes s i) (hz : i.isZfh = true) (hrm : i.rmField? = some rm) (hdest : i.writesF = false)
    (hmask : i.flagMask = ~~~(flagDZ ||| flagOF ||| flagUF))
    (hexec : ∀ s, exec i s = .next (s.halfToInt i rd rs1 rm n lo hi)) :
    ∃ eff, Does i s eff ∧ Runs i s eff := by
  obtain ⟨r, hrun⟩ := h.runs_of_whenRounding (eff := fun r =>
    .writeX rd (s.params.sextX (BitVec.ofInt n (Fp.toInt .H r (s.operand .H rs1) lo hi).1))
      (Fp.toInt .H r (s.operand .H rs1) lo hi).2) hrm (hexec s) (hexec s.flagsCleared)
  exact ⟨_, .writeX h hz hdest (and_not_flagMask hmask (Fp.toInt_flags .H r (s.operand .H rs1) lo hi)), hrun⟩

/-- R206: a half widened to a format that fits the register sets NV at most. -/
theorem Completes.does_widen {rm : RmField} {G : Format} {rd rs1 : FReg} (h : Completes s i) (hz : i.isZfh = true)
    (hrm : i.rmField? = some rm) (hdest : i.halfDest? = none) (hwrites : i.writesF = true)
    (hmask : i.flagMask = ~~~allButNV) (hexec : ∀ s, exec i s = .next (s.convertFp i .H G rd rs1 rm)) :
    ∃ eff, Does i s eff ∧ Runs i s eff := by
  obtain ⟨r, hrun⟩ := h.runs_of_whenRounding (eff := fun r => .writeF rd G (Fp.convert .H G r (s.operand .H rs1)).1
    (Fp.convert .H G r (s.operand .H rs1)).2) hrm (hexec s) (hexec s.flagsCleared)
  exact ⟨_, .widen h hz hdest hwrites (and_not_flagMask hmask (Fp.convert_H_flags_within G r _)), hrun⟩

end

/-- An instruction of the extension that does not complete raises: the gate, the rounding mode or the access fails. -/
theorem exec_raises_of_not_completes {i : Instr} {s : State} (hz : i.isZfh = true) (h : ¬ Completes s i) :
    ∃ e, exec i s = .next (s.raise e) := by
  by_cases hon : Enabled s i
  swap
  · exact ⟨_, exec_illegal_of_not_enabled hz hon⟩
  by_cases hround : ∃ rm, i.rmField? = some rm ∧ s.roundingMode rm = none
  · obtain ⟨rm, hrm, hnone⟩ := hround
    exact ⟨_, exec_illegal_of_roundingMode_none hrm hnone⟩
  have haccess : ∃ rs1 imm, i.access? = some (rs1, imm) ∧ s.checkHalf (s.effectiveAddr rs1 imm) ≠ .permitted := by
    by_contra hall
    push Not at hall hround
    exact h ⟨hon, hround, hall⟩
  obtain ⟨rs1, imm, hi, hdenied⟩ := haccess
  cases i with
  | flh rd rs1' imm' =>
    obtain ⟨rfl, rfl⟩ : rs1' = rs1 ∧ imm' = imm := by simpa [Instr.access?] using hi
    cases hcheck : s.checkHalf (s.effectiveAddr rs1' imm') with
    | permitted => exact absurd hcheck hdenied
    | misaligned => exact ⟨_, exec_flh_of_misaligned (enabled_flh_iff.1 hon) hcheck⟩
    | outside a => exact ⟨_, exec_flh_of_outside (enabled_flh_iff.1 hon) hcheck⟩
  | fsh rs2 rs1' imm' =>
    obtain ⟨rfl, rfl⟩ : rs1' = rs1 ∧ imm' = imm := by simpa [Instr.access?] using hi
    cases hcheck : s.checkHalf (s.effectiveAddr rs1' imm') with
    | permitted => exact absurd hcheck hdenied
    | misaligned => exact ⟨_, exec_fsh_of_misaligned (enabled_fsh_iff.1 hon) hcheck⟩
    | outside a => exact ⟨_, exec_fsh_of_outside (enabled_fsh_iff.1 hon) hcheck⟩
  | _ => cases hi

/-- An instruction of the extension that completes makes one of the changes of `Does`. -/
theorem exec_does_of_completes {i : Instr} {s : State} (hz : i.isZfh = true) (h : Completes s i) :
    ∃ eff, Does i s eff ∧ Runs i s eff := by
  cases i with
  | flh rd rs1 imm =>
    have hcheck := h.access rs1 imm rfl
    have hexec (u : State) (hu : u.checkHalf (u.effectiveAddr rs1 imm) = .permitted) : exec (.flh rd rs1 imm) u =
        .next (u.whenFpOn (.flh rd rs1 imm)
          (u.finishF rd (box u.params .H (u.readHalf (u.effectiveAddr rs1 imm))) flagNone)) := by
      change execFlh rd rs1 imm u = _
      simp only [execFlh, hu]
    exact h.does_writeHalf (result := (s.readHalf (s.effectiveAddr rs1 imm), flagNone)) rfl rfl
      (Fp.flagNone_and allFlags) rfl (hexec s hcheck) (hexec s.flagsCleared hcheck)
  | fsh rs2 rs1 imm =>
    have hcheck := h.access rs1 imm rfl
    have hexec (u : State) (hu : u.checkHalf (u.effectiveAddr rs1 imm) = .permitted) : exec (.fsh rs2 rs1 imm) u =
        .next (u.whenFpOn (.fsh rs2 rs1 imm)
          ((u.writeHalf (u.effectiveAddr rs1 imm) (u.rawHalf rs2)).completeFp false)) := by
      change execFsh rs2 rs1 imm u = _
      simp only [execFsh, hu]
    exact ⟨_, .store rfl h, h.runs_of_whenFpOn (hexec s hcheck) (hexec s.flagsCleared hcheck)⟩
  | faddH => exact h.does_writeHalf_rounding rfl rfl rfl (fun r => Fp.add_flagDZ .H r _ _) rfl rfl rfl
  | fsubH => exact h.does_writeHalf_rounding rfl rfl rfl (fun r => Fp.add_flagDZ .H r _ _) rfl rfl rfl
  | fmulH => exact h.does_writeHalf_rounding rfl rfl rfl (fun r => Fp.mul_flagDZ .H r _ _) rfl rfl rfl
  | fdivH => exact h.does_writeHalf_rounding rfl rfl rfl (fun r => BitVec.and_zero) rfl rfl rfl
  | fsqrtH => exact h.does_writeHalf_rounding rfl rfl rfl (fun r => Fp.sqrt_flagDZ_flagOF_flagUF .H r _) rfl rfl rfl
  | fmaddH | fmsubH | fnmsubH | fnmaddH =>
    exact h.does_writeHalf_rounding rfl rfl rfl (fun r => Fp.fma_flagDZ .H r _ _ _) rfl rfl rfl
  | fcvtHS | fcvtHD | fcvtHQ =>
    exact h.does_writeHalf_rounding rfl rfl rfl (fun r => Fp.convert_flagDZ _ .H r _) rfl rfl rfl
  | fcvtHW | fcvtHWU | fcvtHL | fcvtHLU =>
    exact h.does_writeHalf_rounding rfl rfl rfl (fun r => Fp.fromInt_flags r _) rfl rfl rfl
  | fminH => exact h.does_writeHalf rfl rfl (Fp.extremum_flags_within .H false _ _) rfl rfl rfl
  | fmaxH => exact h.does_writeHalf rfl rfl (Fp.extremum_flags_within .H true _ _) rfl rfl rfl
  | fsgnjH | fsgnjnH | fsgnjxH | fmvHX =>
    exact h.does_writeHalf (result := (_, flagNone)) rfl rfl (Fp.flagNone_and allFlags) rfl rfl rfl
  | fcvtSH | fcvtDH | fcvtQH => exact h.does_widen rfl rfl rfl rfl rfl fun _ => rfl
  | fcvtWH | fcvtWUH | fcvtLH | fcvtLUH => exact h.does_halfToInt rfl rfl rfl rfl fun _ => rfl
  | feqH | fltH | fleH => exact h.does_writeX rfl rfl (Fp.compare_flags_within .H _ _ _) rfl rfl rfl
  | fmvXH | fclassH => exact h.does_writeX rfl rfl (Fp.flagNone_and allFlags) rfl rfl rfl
  | lui | addi | add | beq | bne | jal | csrrw | csrrs | csrrc | csrrwi | csrrsi | csrrci | ecall | ebreak | mret =>
    cases hz

/-! ### The instructions of the host subset -/

section
variable {s : State} {i : Instr}

@[simp] theorem State.writeX_nextPc (s : State) (rd : XReg) (v : Word) : (s.writeX rd v).nextPc = s.nextPc := by
  simp [State.nextPc]

theorem State.writeX_advance_eq (s : State) (rd : XReg) (v : Word) :
    (s.writeX rd v).advance = Effect.apply s (.jump rd v s.nextPc) := by
  rw [State.advance, State.writeX_nextPc, Effect.apply]

theorem exists_effect_of_raise {e : Exception} (hz : i.isZfh = false) (hexec : exec i s = .next (s.raise e)) :
    ∃ eff, Does i s eff ∧ exec i s = .next (eff.apply s) :=
  ⟨.raise e, .raise e (by simp [hz]), hexec⟩

/-- A jump raises, or writes its link and goes to its target. -/
theorem exists_effect_of_jumpTo {n : Nat} {off : BitVec n} {rd : XReg} {v : Word}
    (hz : i.isZfh = false) (hc : i.isCsr = false) (heven : i.wellFormed = true → off.getLsbD 0 = false)
    (hexec : exec i s = .next (s.jumpTo (s.branchTarget off) (s.writeX rd v))) :
    ∃ eff, Does i s eff ∧ exec i s = .next (eff.apply s) := by
  cases hbit : (s.branchTarget off).getLsbD 1 with
  | true =>
    exact exists_effect_of_raise hz (hexec.trans (by rw [State.jumpTo_misaligned hbit]))
  | false =>
    refine ⟨.jump rd v _, .jump hz hc (.taken off heven hbit), ?_⟩
    rw [hexec, State.jumpTo_aligned hbit, Effect.apply]

theorem exists_effect_of_branch {off : BitVec 13} {taken : Bool} (hz : i.isZfh = false) (hc : i.isCsr = false)
    (heven : i.wellFormed = true → off.getLsbD 0 = false) (hexec : exec i s = .next (s.branch taken off)) :
    ∃ eff, Does i s eff ∧ exec i s = .next (eff.apply s) := by
  cases taken with
  | true => exact exists_effect_of_jumpTo (rd := 0) (v := 0) hz hc heven hexec
  | false => exact ⟨.jump 0 0 _, .jump hz hc .next, hexec⟩

/-- A CSR access raises, or reads and writes the CSR. -/
theorem exists_effect_of_csrOp {csr : BitVec 12} {rd : XReg} {read write : Bool} {newVal : Word → Word}
    (hz : i.isZfh = false) (hc : i.isCsr = true) (hread : rd ≠ 0 → read = true)
    (hexec : exec i s = .next (s.csrOp i csr rd read write newVal)) :
    ∃ eff, Does i s eff ∧ exec i s = .next (eff.apply s) := by
  by_cases hallowed : ∃ c, Csr.ofAddr csr = some c ∧ s.csrAllowed c = true
  · obtain ⟨c, hmap, ha⟩ := hallowed
    refine ⟨.csr c (if write then some (newVal (s.readCsr c)) else none) rd (s.readCsr c), .csr hz hc, ?_⟩
    rw [hexec, State.csrOp_eq_writeX_advance hmap ha i hread]
    cases write <;> rfl
  · refine exists_effect_of_raise (e := .illegalInstruction (encode i)) hz ?_
    rw [hexec, State.csrOp_refused (by simpa using hallowed), State.illegal]

end

/-- Every instruction makes one of the changes of `Does`. -/
theorem exec_does (i : Instr) (s : State) : ∃ eff, Does i s eff ∧ exec i s = .next (eff.apply s) := by
  cases hz : i.isZfh with
  | true =>
    by_cases h : Completes s i
    · obtain ⟨eff, hdoes, hrun, -⟩ := exec_does_of_completes hz h
      exact ⟨eff, hdoes, hrun⟩
    · obtain ⟨e, hraise⟩ := exec_raises_of_not_completes hz h
      exact ⟨.raise e, .raise e fun _ => h, hraise⟩
  | false =>
    cases i with
    | lui | addi | add =>
      exact ⟨.jump _ _ _, .jump rfl rfl .next, congrArg Host.Outcome.next (s.writeX_advance_eq _ _)⟩
    | beq | bne => exact exists_effect_of_branch rfl rfl (fun hwf => by simpa [Instr.wellFormed] using hwf) rfl
    | jal => exact exists_effect_of_jumpTo rfl rfl (fun hwf => by simpa [Instr.wellFormed] using hwf) rfl
    | csrrw | csrrwi => exact exists_effect_of_csrOp rfl rfl bne_iff_ne.2 rfl
    | csrrs | csrrc | csrrsi | csrrci => exact exists_effect_of_csrOp rfl rfl (fun _ => rfl) rfl
    | ecall | ebreak => exact exists_effect_of_raise rfl rfl
    | mret =>
      cases hexists : Instr.existsOn s.params .mret with
      | true =>
        refine ⟨.jump 0 0 _, .jump rfl rfl .handlerReturn, ?_⟩
        change execMret s = _
        rw [execMret, if_pos hexists]
        rfl
      | false => exact exists_effect_of_raise rfl (exec_mret_of_absent hexists)
    | _ => cases hz

/-- The next state of an instruction is one of the changes of `Does`. -/
theorem exists_does_of_exec {i : Instr} {s t : State} (h : exec i s = .next t) :
    ∃ eff, Does i s eff ∧ t = eff.apply s := by
  obtain ⟨eff, hdoes, hexec⟩ := exec_does i s
  rw [h] at hexec
  exact ⟨eff, hdoes, Host.Outcome.next.inj hexec⟩

/-! ### What each change leaves unchanged -/

@[simp] theorem State.writeCsr?_params (s : State) (c : Csr) (new : Option Word) :
    (s.writeCsr? c new).params = s.params := by cases new <;> simp [State.writeCsr?]
@[simp] theorem State.writeCsr?_mem (s : State) (c : Csr) (new : Option Word) :
    (s.writeCsr? c new).mem = s.mem := by cases new <;> simp [State.writeCsr?]
@[simp] theorem State.writeCsr?_stored (s : State) (c : Csr) (new : Option Word) :
    (s.writeCsr? c new).stored = s.stored := by cases new <;> simp [State.writeCsr?]

theorem Effect.apply_params (s : State) (eff : Effect) : (eff.apply s).params = s.params := by
  cases eff <;> simp [Effect.apply]

/-- Only a store changes memory and the marks of stored bytes. -/
theorem Effect.apply_memory (s : State) {eff : Effect} (h : ∀ a v, eff ≠ .store a v) :
    (eff.apply s).mem = s.mem ∧ (eff.apply s).stored = s.stored := by
  cases eff with
  | store a v => exact absurd rfl (h a v)
  | raise | writeF | writeX | jump | csr => simp [Effect.apply]

/-- No mark of a stored byte is lost. -/
theorem Effect.mem_apply_stored {s : State} (eff : Effect) {a : Nat} (h : a ∈ s.stored) :
    a ∈ (eff.apply s).stored := by
  cases eff with
  | store b v =>
    rw [Effect.apply, State.completeFp_stored]
    exact (State.mem_writeHalf_stored s b v a).2 (.inr (.inr h))
  | raise | writeF | writeX | jump | csr => simpa [Effect.apply] using h

/-- Settles O25: the change of an instruction that is no FSH is no store. -/
theorem onlyFshWritesMemory : Obligations.OnlyFshWritesMemory := by
  unfold Obligations.OnlyFshWritesMemory
  intro i s t hi h
  obtain ⟨eff, hdoes, rfl⟩ := exists_does_of_exec h
  refine Effect.apply_memory s fun a v => ?_
  rintro rfl
  cases hdoes with
  | store hfsh => exact hi _ _ _ hfsh

/-! ### Flags and `FS` (R30, R32) -/

/-- The flags a change accrues. -/
def Effect.flags : Effect → FlagSet
  | .writeF _ _ _ fl | .writeX _ _ fl => fl
  | .raise _ | .store .. | .jump .. | .csr .. => flagNone

/-- Every change but a CSR access accrues its flags and leaves `frm`. -/
theorem Effect.apply_fcsr (s : State) {eff : Effect} (h : ∀ c new rd old, eff ≠ .csr c new rd old) :
    (eff.apply s).fflags = s.fflags ||| eff.flags ∧ (eff.apply s).frm = s.frm := by
  have hsame {t : State} (ht : t.fcsr = s.fcsr) : t.fflags = s.fflags ||| flagNone ∧ t.frm = s.frm :=
    ⟨(State.fflags_congr ht).trans (Fp.or_flagNone _).symm, State.frm_congr ht⟩
  cases eff with
  | writeF rd F v fl => exact ⟨s.finishF_fflags rd _ fl, s.finishF_frm rd _ fl⟩
  | writeX rd v fl =>
    refine ⟨(State.accrue_fflags (s.writeX rd v) fl).trans ?_, (State.accrue_frm (s.writeX rd v) fl).trans ?_⟩
    · rw [State.fflags_congr (State.writeX_fcsr s rd v)]
      rfl
    · exact State.frm_congr (State.writeX_fcsr s rd v)
  | raise | store | jump => exact hsame (by simp [Effect.apply])
  | csr c new rd old => exact absurd rfl (h c new rd old)

/-- The change of an instruction that is no CSR access is none. -/
theorem Does.ne_csr {i : Instr} {s : State} {eff : Effect} (h : Does i s eff) (hc : i.isCsr = false) (c : Csr)
    (new : Option Word) (rd : XReg) (old : Word) : eff ≠ .csr c new rd old := by
  rintro rfl
  cases h with
  | csr _ hcsr => simp [hc] at hcsr

theorem Does.flags_within {i : Instr} {s : State} {eff : Effect} (h : Does i s eff) :
    eff.flags &&& ~~~ i.flagMask = 0 := by
  cases h with
  | writeHalf _ _ _ hflags | widen _ _ _ _ hflags | writeX _ _ _ hflags => exact hflags
  | raise | store | jump | csr => exact Fp.flagNone_and _

/-- Settles O24: the change accrues the flags of its result, which lie within the instruction's row. -/
theorem flagsAccrueByTable : Obligations.FlagsAccrueByTable := by
  unfold Obligations.FlagsAccrueByTable
  intro i s t hc h
  obtain ⟨eff, hdoes, rfl⟩ := exists_does_of_exec h
  obtain ⟨hflags, hfrm⟩ := eff.apply_fcsr s (hdoes.ne_csr hc)
  exact ⟨hfrm, eff.flags, hdoes.flags_within, hflags⟩

/-- Whether a change turns `FS` Dirty with precise tracking (R32). -/
def Effect.dirties : Effect → Bool
  | .writeF .. => true
  | .writeX _ _ fl => fl != flagNone
  | .raise _ | .store .. | .jump .. | .csr .. => false

/-- `FS` after every change but a CSR access. -/
theorem Effect.apply_fs (s : State) {eff : Effect} (h : ∀ c new rd old, eff ≠ .csr c new rd old) :
    ((eff.apply s).fs = s.fs ∨ (eff.apply s).fs = 3) ∧
    (s.params.fsTracking = .precise → (eff.apply s).fs = if eff.dirties then 3 else s.fs) := by
  have hfp {t u : State} {d : Bool} (ht : t.fs = u.fsAfter d) (hparams : u.params = s.params) (hfs : u.fs = s.fs) :
      (t.fs = s.fs ∨ t.fs = 3) ∧ (s.params.fsTracking = .precise → t.fs = if d then 3 else s.fs) := by
    rw [ht, ← hfs, ← hparams]
    exact ⟨u.fsAfter_eq_or d, fun hprecise => State.fsAfter_precise hprecise d⟩
  have hsame {t : State} (ht : t.fs = s.fs) :
      (t.fs = s.fs ∨ t.fs = 3) ∧ (s.params.fsTracking = .precise → t.fs = if false then 3 else s.fs) :=
    ⟨.inl ht, fun _ => ht⟩
  cases eff with
  | writeF rd F v fl => exact hfp (u := (s.writeF rd (box s.params F v)).accrue fl) rfl (by simp) (by simp)
  | writeX rd v fl => exact hfp (u := (s.writeX rd v).accrue fl) rfl (by simp) (by simp)
  | store a v => exact hfp (u := s.writeHalf a v) rfl (by simp) (by simp)
  | raise | jump => exact hsame (by simp [Effect.apply])
  | csr c new rd old => exact absurd rfl (h c new rd old)

/-- Only the instructions of the extension write an `f` register. -/
theorem isZfh_of_writesF {i : Instr} (h : i.writesF = true) : i.isZfh = true := by
  cases i with
  | lui | addi | add | beq | bne | jal | csrrw | csrrs | csrrc | csrrwi | csrrsi | csrrci | ecall | ebreak | mret =>
    cases h
  | _ => rfl

theorem isCsr_of_isZfh {i : Instr} (h : i.isZfh = true) : i.isCsr = false := by
  cases i with
  | csrrw | csrrs | csrrc | csrrwi | csrrsi | csrrci => cases h
  | _ => rfl

theorem writesF_of_halfDest {i : Instr} {rd : FReg} (h : i.halfDest? = some rd) : i.writesF = true := by
  cases i with
  | fcvtSH | fcvtDH | fcvtQH => rfl
  | _ => exact Option.isSome_of_eq_some h

/-- R32: the change of an instruction of the extension that completes makes the state dirty exactly where it writes an
`f` register or accrues a flag. -/
theorem Does.dirties_iff {i : Instr} {s : State} {eff : Effect} (h : Does i s eff) (hz : i.isZfh = true)
    (hcompletes : Completes s i) : eff.dirties = true ↔ i.writesF = true ∨ eff.flags ≠ 0 := by
  cases h with
  | raise e hnot => exact absurd hcompletes (hnot hz)
  | writeHalf _ _ hdest => exact iff_of_true rfl (.inl (writesF_of_halfDest hdest))
  | widen _ _ _ hwrites => exact iff_of_true rfl (.inl hwrites)
  | writeX _ _ hwrites => simp [Effect.dirties, Effect.flags, hwrites, flagNone]
  | store hi =>
    subst hi
    exact iff_of_false Bool.false_ne_true (by rintro (h | h); exacts [Bool.false_ne_true h, h rfl])
  | jump hhost | csr hhost => simp [hz] at hhost

/-- With precise tracking FSH leaves `FS` alone: it writes no `f` register, and its row of R30 has no flag. -/
theorem Does.dirties_fsh {s : State} {rs2 : FReg} {rs1 : XReg} {imm : BitVec 12} {eff : Effect}
    (h : Does (.fsh rs2 rs1 imm) s eff) : eff.dirties = false := by
  cases h with
  | raise | store => rfl
  | writeHalf _ _ hdest => cases hdest
  | widen _ _ _ hwrites => cases hwrites
  | writeX _ _ _ hflags =>
    have hmask : ~~~ (Instr.fsh rs2 rs1 imm).flagMask = BitVec.allOnes 5 :=
      (by decide : ~~~ (0 : FlagSet) = BitVec.allOnes 5)
    rw [hmask, BitVec.and_allOnes] at hflags
    rw [hflags]
    rfl
  | jump hhost | csr hhost => cases hhost

/-- An instruction of the host subset that is no CSR access raises or jumps. -/
theorem Does.dirties_host {i : Instr} {s : State} {eff : Effect} (h : Does i s eff) (hz : i.isZfh = false)
    (hc : i.isCsr = false) : (eff.apply s).fs = s.fs := by
  cases h with
  | raise | jump => simp [Effect.apply]
  | writeHalf _ hz' | widen _ hz' | writeX _ hz' => simp [hz] at hz'
  | store hi =>
    subst hi
    cases hz
  | csr _ hc' => simp [hc] at hc'

/-- R32 with precise tracking, of an instruction that completes: what it accrues are its flags from cleared `fflags`. -/
theorem fs_of_completes {i : Instr} {s t u : State} (hz : i.isZfh = true) (h : Completes s i)
    (ht : exec i s = .next t) (hu : exec i s.flagsCleared = .next u) (hprecise : s.params.fsTracking = .precise) :
    ((i.writesF = true ∨ u.fflags ≠ 0) → t.fs = 3) ∧ ((i.writesF = false ∧ u.fflags = 0) → t.fs = s.fs) := by
  obtain ⟨eff, hdoes, hrun, hrun'⟩ := exec_does_of_completes hz h
  obtain rfl := Host.Outcome.next.inj (ht.symm.trans hrun)
  obtain rfl := Host.Outcome.next.inj (hu.symm.trans hrun')
  have hcsr := hdoes.ne_csr (isCsr_of_isZfh hz)
  have hfs := (eff.apply_fs s hcsr).2 hprecise
  have hflags : (eff.apply s.flagsCleared).fflags = eff.flags := by
    rw [(eff.apply_fcsr _ hcsr).1, State.flagsCleared_fflags]
    exact Fp.flagNone_or _
  have hdirty := hdoes.dirties_iff hz h
  rw [hfs, hflags]
  constructor
  · intro hwrites
    rw [if_pos (hdirty.2 hwrites)]
  · rintro ⟨hwrites, hnone⟩
    refine if_neg fun hdirties => ?_
    obtain hwritesF | hflagged := hdirty.1 hdirties
    exacts [Bool.false_ne_true (hwrites.symm.trans hwritesF), hflagged hnone]

/-- Settles O26: `FS` follows the change, and with precise tracking what the change writes and accrues. -/
theorem fsIsOldOrDirty : Obligations.FsIsOldOrDirty := by
  unfold Obligations.FsIsOldOrDirty
  intro i s t h
  obtain ⟨eff, hdoes, happly⟩ := exists_does_of_exec h
  refine ⟨fun hz => ?_, fun hz hc => ?_, ?_, fun u hu hz hprecise => ⟨fun hcompletes => ?_, ?_⟩⟩
  · rw [happly]
    exact (eff.apply_fs s (hdoes.ne_csr (isCsr_of_isZfh hz))).1
  · rw [happly, hdoes.dirties_host hz hc]
  · rintro rs2 rs1 imm rfl hprecise
    rw [happly, (eff.apply_fs s (hdoes.ne_csr rfl)).2 hprecise, hdoes.dirties_fsh]
    rfl
  · exact (fs_of_completes hz hcompletes h hu hprecise).1
  · by_cases hcompletes : Completes s i
    · exact fun hor => (fs_of_completes hz hcompletes h hu hprecise).2 (hor.resolve_left (absurd hcompletes))
    · obtain ⟨e, hraise⟩ := exec_raises_of_not_completes hz hcompletes
      obtain rfl := Host.Outcome.next.inj (h.symm.trans hraise)
      exact fun _ => s.raise_fs e

/-! ### Boxed results (R113) -/

theorem extractLsb'_box {p : Params} (v : Fp.Bits .H) :
    (box p .H v).extractLsb' 16 (p.flen - 16) = BitVec.allOnes (p.flen - 16) :=
  BitVec.eq_of_getLsbD_eq fun k hk => by
    have hk' : 16 + k < p.flen := by omega
    simp [box_getLsbD_above (width_H_le_flen p) v (show Format.width .H ≤ 16 + k from Nat.le_add_right 16 k), hk, hk']

/-- Settles O27: an instruction with a half-precision result raises or writes it boxed. -/
theorem halfResultsAreBoxed : Obligations.HalfResultsAreBoxed := by
  unfold Obligations.HalfResultsAreBoxed
  intro i rd s t hdest h
  obtain ⟨eff, hdoes, rfl⟩ := exists_does_of_exec h
  have hwrites := writesF_of_halfDest hdest
  have hz := isZfh_of_writesF hwrites
  cases hdoes with
  | raise e => exact .inl ⟨e, rfl⟩
  | writeHalf _ _ hdest' =>
    obtain rfl := Option.some.inj (hdest.symm.trans hdest')
    right
    rw [Effect.apply, (State.finishF_wroteF (truncF_box s.params .H _ (width_H_le_flen _)) rd _).dest]
    exact extractLsb'_box _
  | widen _ _ hnone => simp [hdest] at hnone
  | writeX _ _ hnone => simp [hwrites] at hnone
  | store hi =>
    subst hi
    cases hdest
  | jump hhost | csr hhost => simp [hz] at hhost

end Sys2Proof.Machine
end

section
/-! PROOFS. 20_memory.md and 60_exceptions.md: fetching, stepping and trapping. -/

namespace Sys2Proof.Machine

/-! ### The cases of a step (R51, R63, R301, R306) -/

theorem step_of_runnable {s : State} {i : Instr} (hrun : Runnable s) (h : decodeWord (wordAt s) = .ok i) :
    step s = exec i s := by
  have hdecode : decode [s.mem.read s.pc.toNat, s.mem.read (s.pc.toNat + 1), s.mem.read (s.pc.toNat + 2),
      s.mem.read (s.pc.toNat + 3)] = .ok (i, []) := by
    change decodeWord (wordOfBytes _ _ _ _) = _ at h
    simp only [decode, h]
  simp only [step, hrun.running, hrun.fetch_eq, hdecode]

/-- Settles O7: the fetch gives the four bytes at `pc`, and they decode to the instruction. -/
theorem stepRunsDecodedInstruction : Obligations.StepRunsDecodedInstruction :=
  fun _ _ hrun h => step_of_runnable hrun h

/-- Settles O8: a runnable state whose word decodes to nothing raises. -/
theorem stepRaisesOnUndecodedWord : Obligations.StepRaisesOnUndecodedWord :=
  fun _ hrun h => step_of_undecoded hrun h

theorem step_of_trap {s : State} {record : TrapRecord} (h : s.trap = some record) :
    step s = .fault (.stopped record) := by
  simp only [step, h]

theorem step_of_fetch_selfModified {s : State} {a : Nat} (hrun : s.trap = none) (h : s.fetch = .selfModified a) :
    step s = .refused (.fetchOfStoredByte a) := by
  simp only [step, hrun, h]

/-- A step to a next state takes an exception, or runs an instruction that its word encodes. -/
theorem step_cases {s t : State} (h : step s = .next t) :
    (∃ e, t = s.raise e) ∨ ∃ i, i.wellFormed = true ∧ exec i s = .next t := by
  cases htrap : s.trap with
  | some record => exact absurd (h.symm.trans (step_of_trap htrap)) (by simp)
  | none =>
    cases hfetch : s.fetch with
    | raises e => exact .inl ⟨e, Host.Outcome.next.inj (h.symm.trans (step_of_fetch_raises htrap hfetch))⟩
    | selfModified a => exact absurd (h.symm.trans (step_of_fetch_selfModified htrap hfetch)) (by simp)
    | bytes b0 b1 b2 b3 =>
      cases hword : decodeWord (wordOfBytes b0 b1 b2 b3) with
      | ok i =>
        simp only [step, htrap, hfetch, decode, hword] at h
        exact .inr ⟨i, (encodeOfDecode _ _ hword).1, h⟩
      | error e =>
        simp only [step, htrap, hfetch, decode, hword] at h
        exact .inl ⟨_, (Host.Outcome.next.inj h).symm⟩

/-- A step to a next state makes a change that an exception or a well-formed instruction makes. -/
theorem exists_effect_of_step {s t : State} (h : step s = .next t) :
    ∃ eff, t = eff.apply s ∧ ((∃ e, eff = .raise e) ∨ ∃ i, i.wellFormed = true ∧ Does i s eff) := by
  obtain ⟨e, rfl⟩ | ⟨i, hwf, hexec⟩ := step_cases h
  · exact ⟨.raise e, rfl, .inl ⟨e, rfl⟩⟩
  · obtain ⟨eff, hdoes, happly⟩ := exists_does_of_exec hexec
    exact ⟨eff, happly, .inr ⟨i, hwf, hdoes⟩⟩

/-- Settles O23: no change touches the parameters. -/
theorem parametersNeverChange : Obligations.ParametersNeverChange := by
  unfold Obligations.ParametersNeverChange
  intro s t h
  obtain ⟨eff, rfl, -⟩ := exists_effect_of_step h
  exact eff.apply_params s

/-! ### Fetches of stored bytes (R63) -/

/-- A completed FSH marks its two bytes. -/
theorem mem_stored_of_exec_fsh {s t : State} {rs2 : FReg} {rs1 : XReg} {imm : BitVec 12}
    (hon : Enabled s (.fsh rs2 rs1 imm)) (hcheck : s.checkHalf (s.effectiveAddr rs1 imm) = .permitted)
    (h : exec (.fsh rs2 rs1 imm) s = .next t) :
    (s.effectiveAddr rs1 imm).toNat ∈ t.stored ∧ (s.addrAfter (s.effectiveAddr rs1 imm)).toNat ∈ t.stored := by
  have hexec : exec (.fsh rs2 rs1 imm) s =
      .next (Effect.apply s (.store (s.effectiveAddr rs1 imm) (s.rawHalf rs2))) := by
    change execFsh rs2 rs1 imm s = _
    simp only [execFsh, hcheck, State.whenFpOn_enabled hon, Effect.apply]
  obtain rfl := Host.Outcome.next.inj (h.symm.trans hexec)
  rw [Effect.apply, State.completeFp_stored, State.mem_writeHalf_stored, State.mem_writeHalf_stored]
  exact ⟨.inr (.inl rfl), .inl rfl⟩

/-- A fetch whose bytes exist and of which one was stored to is refused at a stored byte. -/
theorem State.fetch_of_stored {s : State} (haligned : s.pc.extractLsb' 0 2 = 0)
    (hexist : ∀ k < 4, s.params.inMem (s.pc.toNat + k) = true) (hstored : ∃ k < 4, s.pc.toNat + k ∈ s.stored) :
    ∃ k < 4, s.pc.toNat + k ∈ s.stored ∧ s.fetch = .selfModified (s.pc.toNat + k) := by
  obtain ⟨hne, -⟩ | ⟨-, ⟨a, ha, habsent⟩, -⟩ | ⟨-, -, a, ha, hmarked, hfetch⟩ | ⟨-, -, hnone, -⟩ := s.fetch_cases
  · exact absurd haligned hne
  · obtain ⟨k, hk, rfl⟩ := mem_fetchAddrs_iff.1 ha
    exact absurd (hexist k hk) (by simp [habsent])
  · obtain ⟨k, hk, rfl⟩ := mem_fetchAddrs_iff.1 ha
    exact ⟨k, hk, hmarked, hfetch⟩
  · obtain ⟨k, hk, hmarked⟩ := hstored
    exact absurd hmarked (hnone _ (mem_fetchAddrs_iff.2 ⟨k, hk, rfl⟩))

/-- Settles O10: a store marks its bytes, no change drops a mark, and a marked byte is never fetched. -/
theorem fetchOfStoredByteIsRefused : Obligations.FetchOfStoredByteIsRefused := by
  unfold Obligations.FetchOfStoredByteIsRefused
  refine ⟨fun _ _ _ _ _ => mem_stored_of_exec_fsh, fun s t h a ha => ?_, fun s hrun haligned hexist hstored => ?_⟩
  · obtain ⟨eff, rfl, -⟩ := exists_effect_of_step h
    exact eff.mem_apply_stored ha
  · obtain ⟨k, hk, hmarked, hfetch⟩ := State.fetch_of_stored haligned hexist hstored
    exact ⟨k, hk, hmarked, step_of_fetch_selfModified hrun hfetch⟩

/-! ### Exceptions (R300, R306, R307) -/

/-- Settles O11: the table, row by row. -/
theorem exceptionCodesAndInfo : Obligations.ExceptionCodesAndInfo :=
  fun _ _ => ⟨rfl, rfl, rfl, rfl, rfl, rfl, rfl, rfl, rfl⟩

theorem Exception.code_lt (e : Exception) : e.code < 16 := by cases e <;> simp [Exception.code]

theorem xbits_eq_or (p : Params) : p.xbits = 32 ∨ p.xbits = 64 := by
  unfold Params.xbits
  cases p.xlen
  exacts [.inl rfl, .inr rfl]

/-- A code has no bit from 4 up, in particular not the interrupt bit. -/
theorem Exception.code_getLsbD (e : Exception) {k : Nat} (hk : 4 ≤ k) :
    (BitVec.ofNat 64 e.code).getLsbD k = false := by
  have hlt : e.code < 2 ^ k := e.code_lt.trans_le (Nat.pow_le_pow_right (n := 2) (by decide) hk)
  simp [BitVec.getLsbD_ofNat, Nat.testBit_lt_two_pow hlt]

theorem Exception.truncX_code (p : Params) (e : Exception) :
    p.truncX (BitVec.ofNat 64 e.code) = BitVec.ofNat 64 e.code := by
  have hx := xbits_eq_or p
  apply BitVec.eq_of_getLsbD_eq
  intro k hk
  rw [Params.truncX_getLsbD]
  rcases Nat.lt_or_ge k 4 with hlow | hhigh
  · have hin : k < p.xbits := by omega
    simp [hin]
  · simp [e.code_getLsbD hhigh]

/-- Settles O12: with `TRAP` = fault the record stops the next step; with `TRAP` = mmode the trap CSRs have the
values of R307, and an aligned `pc` and a code pass unchanged into them. -/
theorem raiseTakesTheException : Obligations.RaiseTakesTheException := by
  unfold Obligations.RaiseTakesTheException
  intro s e
  refine ⟨s.raise_sameButTrap e, fun hfault => ⟨State.raise_fault hfault e, ?_⟩, fun hmmode haligned => ?_⟩
  · rw [State.raise_fault hfault]
    exact step_of_trap rfl
  · have hraise : s.raise e =
        { s with mepc := s.pc, mcause := BitVec.ofNat 64 e.code, mtval := s.params.truncX e.info, pc := s.mtvec } := by
      rw [State.raise_mmode hmmode, clearLow2_of_aligned haligned, e.truncX_code]
    refine ⟨hraise, ?_⟩
    rw [hraise]
    exact e.code_getLsbD (by have hx := xbits_eq_or s.params; omega)

/-! ### Rounding modes (R117) -/

/-- Settles O18: the static codes are read off, and DYN takes the mode of `frm`. -/
theorem roundingModeTable : Obligations.RoundingModeTable := by
  unfold Obligations.RoundingModeTable
  intro s
  have hdyn {b : BitVec 3} (h : s.frm = b) : s.roundingMode (RmField.ofBits 0b111) = RoundingMode.ofBits b :=
    h ▸ s.roundingMode_dyn
  refine ⟨rfl, rfl, rfl, rfl, rfl, rfl, rfl, fun h => hdyn h, fun h => hdyn h, fun h => hdyn h, fun h => hdyn h,
    fun h => hdyn h, fun h => ?_⟩
  exact (s.roundingMode_eq_none_iff _).2 (.inr (.inr ⟨rfl, h⟩))

end Sys2Proof.Machine
end

section
/-! PROOFS. 47_host_subset.md section 2: the CSR map (R29, R286). -/

namespace Sys2Proof.Machine

/-! ### The addresses and the gates -/

/-- The address of a CSR. -/
def Csr.addr : Csr → BitVec 12
  | .fflags => 0x001
  | .frm => 0x002
  | .fcsr => 0x003
  | .mstatus => 0x300
  | .mtvec => 0x305
  | .mepc => 0x341
  | .mcause => 0x342
  | .mtval => 0x343

theorem Csr.ofAddr_eq_some_iff {addr : BitVec 12} {c : Csr} : Csr.ofAddr addr = some c ↔ addr = c.addr := by
  constructor
  · intro h
    unfold Csr.ofAddr at h
    split at h
    case h_9 => cases h
    all_goals
      cases h
      exact BitVec.eq_of_toNat_eq (by assumption)
  · rintro rfl
    cases c <;> rfl

/-- R286: no other address is a CSR. -/
theorem Csr.ofAddr_of_not_mem {addr : BitVec 12}
    (h : addr ∉ [0x001, 0x002, 0x003, 0x300, 0x305, 0x341, 0x342, 0x343]) : Csr.ofAddr addr = none := by
  rw [Option.eq_none_iff_forall_ne_some]
  intro c hc
  rw [Csr.ofAddr_eq_some_iff] at hc
  subst hc
  cases c <;> exact h (by decide)

theorem State.csrAllowed_fp {s : State} {c : Csr} (h : c ∈ [Csr.fflags, .frm, .fcsr]) :
    s.csrAllowed c = true ↔ s.fs ≠ 0 := by
  simp only [List.mem_cons, List.not_mem_nil, or_false] at h
  rcases h with rfl | rfl | rfl <;> exact bne_iff_ne

theorem State.csrAllowed_trap {s : State} {c : Csr} (h : c ∈ [Csr.mtvec, .mepc, .mcause, .mtval]) :
    s.csrAllowed c = true ↔ s.params.trap = .mmode := by
  simp only [List.mem_cons, List.not_mem_nil, or_false] at h
  rcases h with rfl | rfl | rfl | rfl <;> exact beq_iff_eq

/-- Each of the six CSR instructions is the CSR access with its operands, and raises where that is refused. -/
theorem exec_csr_of_refused {s : State} {csr : BitVec 12} {rd src : BitVec 5} {i : Instr}
    (hi : i = .csrrw rd csr src ∨ i = .csrrs rd csr src ∨ i = .csrrc rd csr src ∨ i = .csrrwi rd csr src ∨
      i = .csrrsi rd csr src ∨ i = .csrrci rd csr src)
    (h : ∀ c, Csr.ofAddr csr = some c → s.csrAllowed c = false) :
    exec i s = .next (s.raise (.illegalInstruction (encode i))) := by
  rcases hi with rfl | rfl | rfl | rfl | rfl | rfl <;>
    exact congrArg Host.Outcome.next (State.csrOp_refused h _ _ _ _ _)

/-- Settles O47: in each of the three cases the access is to no CSR or to one that is not allowed. -/
theorem csrAccessRaises : Obligations.CsrAccessRaises := by
  unfold Obligations.CsrAccessRaises
  intro s rd src csr i hi hcause
  refine exec_csr_of_refused hi fun c hc => ?_
  rcases hcause with hoff | ⟨hfp, hfs⟩ | ⟨htrap, hmode⟩
  · simp [Csr.ofAddr_of_not_mem hoff] at hc
  · obtain rfl := Csr.ofAddr_eq_some_iff.1 hc
    have hmem : c ∈ [Csr.fflags, .frm, .fcsr] := by revert hfp; cases c <;> decide
    exact Bool.eq_false_iff.2 fun hallowed => (State.csrAllowed_fp hmem).1 hallowed hfs
  · obtain rfl := Csr.ofAddr_eq_some_iff.1 hc
    have hmem : c ∈ [Csr.mtvec, .mepc, .mcause, .mtval] := by revert htrap; cases c <;> decide
    exact Bool.eq_false_iff.2 fun hallowed => by simp [(State.csrAllowed_trap hmem).1 hallowed] at hmode

/-! ### The values read and the effects of a write -/

/-- A window on `fcsr` fits in XLEN bits. -/
theorem zextX_toNat_of_le (p : Params) {n : Nat} (hn : n ≤ 32) (v : BitVec n) : (p.zextX v).toNat = v.toNat := by
  have hx := xbits_eq_or p
  have hv : v.toNat < 2 ^ 32 := v.isLt.trans_le (Nat.pow_le_pow_right (by decide) hn)
  rw [Params.zextX, Params.truncX_toNat, BitVec.toNat_setWidth, Nat.mod_eq_of_lt (hv.trans (by decide)),
    Nat.mod_eq_of_lt (hv.trans_le (Nat.pow_le_pow_right (by decide) (by omega)))]

/-- `mstatus` bit by bit: SD on top, `FS` in bits 14:13. -/
theorem State.mstatusValue_getLsbD (s : State) {k : Nat} (hk : k < 64) :
    s.mstatusValue.getLsbD k =
      if k = s.params.xbits - 1 then decide (s.fs = 3) else decide (13 ≤ k) && s.fs.getLsbD (k - 13) := by
  have hx := xbits_eq_or s.params
  have hfs : (s.fs.setWidth 64 <<< 13).getLsbD k = (decide (13 ≤ k) && s.fs.getLsbD (k - 13)) := by
    rw [BitVec.getLsbD_shiftLeft, BitVec.getLsbD_setWidth]
    simp only [hk, decide_true, Bool.true_and, show k - 13 < 64 by omega]
    congr 1
    simp only [← decide_not, Nat.not_lt]
  rw [State.mstatusValue, BitVec.getLsbD_or, hfs]
  by_cases hsd : k = s.params.xbits - 1
  · have hhigh : s.fs.getLsbD (k - 13) = false := BitVec.getLsbD_of_ge _ _ (by omega)
    rw [if_pos hsd, hhigh, Bool.and_false, Bool.false_or]
    change _ = decide (s.fs = fsDirty)
    split
    next hdirty => simp [hdirty, ← hsd, hk]
    next hclean => simp [hclean]
  · rw [if_neg hsd]
    split
    · simp [BitVec.getLsbD_twoPow, Ne.symm hsd]
    · simp

theorem clearLow2_getLsbD (v : Word) (k : Nat) : (clearLow2 v).getLsbD k = (decide (2 ≤ k) && v.getLsbD k) := by
  rw [clearLow2_eq_append, BitVec.getLsbD_append]
  rcases Nat.lt_or_ge k 2 with hlow | hhigh
  · simp [hlow, Nat.not_le.2 hlow]
  · have hbit : 2 + (k - 2) = k := by omega
    have hlt (h : v.getLsbD k = true) : k - 2 < 62 := by
      have hk := BitVec.lt_of_getLsbD h
      omega
    simpa [Nat.not_lt.2 hhigh, hhigh, hbit] using hlt

/-- Cutting to XLEN bits and clearing the low two may be done in either order. -/
theorem truncX_clearLow2 (p : Params) (v : Word) : p.truncX (clearLow2 v) = clearLow2 (p.truncX v) := by
  apply BitVec.eq_of_getLsbD_eq
  intro k hk
  simp only [Params.truncX_getLsbD, clearLow2_getLsbD]
  exact Bool.and_left_comm _ _ _

/-- The two CSRs that hold an address: what a write leaves in them. -/
theorem clearLow2_truncX (p : Params) (v : Word) : clearLow2 (p.truncX v) = p.truncX (v.extractLsb' 2 62 ++ 0#2) := by
  rw [← truncX_clearLow2, clearLow2_eq_append]

/-- Settles O48: the addresses, the gates, the values read and the effects of a write. -/
theorem csrMap : Obligations.CsrMap := by
  unfold Obligations.CsrMap
  refine ⟨fun _ => Csr.ofAddr_of_not_mem, rfl, rfl, rfl, rfl, rfl, rfl, rfl, rfl, fun s =>
    ⟨fun c hc => State.csrAllowed_fp hc, rfl, fun c hc => State.csrAllowed_trap hc⟩, fun s =>
    ⟨zextX_toNat_of_le _ (by decide) _, zextX_toNat_of_le _ (by decide) _, zextX_toNat_of_le _ (by decide) _,
      fun k hk => s.mstatusValue_getLsbD hk, rfl, rfl, rfl, rfl⟩, fun s v =>
    ⟨rfl, rfl, rfl, rfl, ?_, ?_, rfl, rfl⟩⟩
  · rw [State.writeCsr, clearLow2_truncX]
  · rw [State.writeCsr, clearLow2_truncX]

end Sys2Proof.Machine
end

section
/-! PROOFS. The invariant: after reset and after every step. -/

namespace Sys2Proof.Machine

/-! ### Multiples of 4 -/

section
variable {s : State}

/-- A word is a multiple of 4 where its low two bits are 0. -/
theorem aligned_iff (v : Word) : v.extractLsb' 0 2 = 0 ↔ v.getLsbD 0 = false ∧ v.getLsbD 1 = false := by
  constructor
  · intro h
    have hbit (k : Nat) (hk : k < 2) : v.getLsbD k = false := by
      have hk' := congrArg (·.getLsbD k) h
      simpa [hk] using hk'
    exact ⟨hbit 0 (by decide), hbit 1 (by decide)⟩
  · rintro ⟨h0, h1⟩
    apply BitVec.eq_of_getLsbD_eq
    intro k hk
    obtain rfl | rfl : k = 0 ∨ k = 1 := by omega
    · simpa using h0
    · simpa using h1

theorem clearLow2_aligned (v : Word) : (clearLow2 v).extractLsb' 0 2 = 0 :=
  (aligned_iff _).2 ⟨clearLow2_getLsbD v 0, clearLow2_getLsbD v 1⟩

/-- The low two bits survive the cut to XLEN bits. -/
theorem truncX_getLsbD_low (p : Params) (v : Word) {k : Nat} (hk : k < 2) : (p.truncX v).getLsbD k = v.getLsbD k := by
  have hx := xbits_eq_or p
  rw [Params.truncX_getLsbD, decide_eq_true (show k < p.xbits by omega), Bool.true_and]

theorem add_four_aligned {v : Word} (h : v.extractLsb' 0 2 = 0) : (v + 4).extractLsb' 0 2 = 0 := by
  apply BitVec.eq_of_toNat_eq
  have hlow (w : Word) : (w.extractLsb' 0 2).toNat = w.toNat % 4 := by simp [BitVec.extractLsb'_toNat]
  have hv : v.toNat % 4 = 0 := (hlow v).symm.trans (congrArg BitVec.toNat h)
  have hadd : (v + 4).toNat = (v.toNat + 4) % 2 ^ 64 := BitVec.toNat_add v 4
  rw [hlow, hadd]
  change _ = 0
  omega

theorem State.nextPc_aligned (h : s.pc.extractLsb' 0 2 = 0) : s.nextPc.extractLsb' 0 2 = 0 := by
  obtain ⟨h0, h1⟩ := (aligned_iff _).1 (add_four_aligned h)
  rw [aligned_iff, State.nextPc, truncX_getLsbD_low _ _ (by decide), truncX_getLsbD_low _ _ (by decide)]
  exact ⟨h0, h1⟩

/-- From an aligned `pc` an even offset leads to an even address. -/
theorem State.branchTarget_even {n : Nat} {off : BitVec n} (h : s.pc.extractLsb' 0 2 = 0)
    (heven : off.getLsbD 0 = false) : (s.branchTarget off).getLsbD 0 = false := by
  have hpc := ((aligned_iff _).1 h).1
  have hoff : (s.params.sextX off).getLsbD 0 = false := by
    rw [Params.sextX, truncX_getLsbD_low _ _ (by decide), BitVec.getLsbD_signExtend]
    split
    · rw [heven, Bool.and_false]
    next hn =>
      have hlast : n - 1 = 0 := by omega
      rw [BitVec.msb_eq_getLsbD_last, hlast, heven, Bool.and_false]
  rw [State.branchTarget, truncX_getLsbD_low _ _ (by decide), BitVec.getLsbD_add (by decide), hpc, hoff,
    BitVec.carry_zero]
  rfl

end

/-! ### Memory -/

/-- A write lists no cell but the one written and those listed before. -/
theorem Memory.mem_write {c : Nat × Byte} {a : Nat} {v : Byte} {m : Memory} (h : c ∈ m.write a v) :
    c.1 = a ∨ c ∈ m := by
  have hcons {rest : Memory} (hc : c ∈ Memory.cons a v rest) : c.1 = a ∨ c ∈ rest := by
    unfold Memory.cons at hc
    split at hc
    · exact .inr hc
    · obtain rfl | hrest := List.mem_cons.1 hc
      exacts [.inl rfl, .inr hrest]
  induction m with
  | nil => exact hcons h
  | cons cell rest ih =>
    unfold Memory.write at h
    split at h
    · exact hcons h
    · split at h
      · exact (hcons h).imp_right (List.mem_cons_of_mem _)
      · obtain rfl | hrest := List.mem_cons.1 h
        · exact .inr List.mem_cons_self
        · exact (ih hrest).imp_right (List.mem_cons_of_mem _)

/-! ### The invariant after each operation of `Effect.apply` -/

section
variable {s : State} {i : Instr}

namespace State.Inv

theorem withPc (h : s.Inv) {v : Word} (hfits : s.fitsX v) (haligned : v.extractLsb' 0 2 = 0) :
    ({ s with pc := v } : State).Inv := { h with pcWidth := hfits, pcAligned := haligned }

/-- The invariant does not speak of `fcsr`, `FS` and the count of free values. -/
theorem withStatus (h : s.Inv) (fcsr : BitVec 8) (fs : BitVec 2) (n : Nat) :
    ({ s with fcsr := fcsr, fs := fs, freeCount := n } : State).Inv := { h with }

theorem advance (h : s.Inv) : s.advance.Inv :=
  h.withPc (Params.truncX_truncX _ _) (State.nextPc_aligned h.pcAligned)

theorem completeFp (h : s.Inv) (dirty : Bool) : (s.completeFp dirty).Inv :=
  (h.withStatus s.fcsr (s.fsAfter dirty) s.freeCountAfter).advance

theorem accrue (h : s.Inv) (fl : FlagSet) : (s.accrue fl).Inv := h.withStatus _ _ _

theorem writeX (h : s.Inv) (rd : XReg) (v : Word) : (s.writeX rd v).Inv := by
  unfold State.writeX
  split
  · exact h
  next hrd =>
    have hne : rd.toNat ≠ 0 := fun hzero => hrd (BitVec.eq_of_toNat_eq hzero)
    refine { h with x0 := ?_, xWidth := fun r => ?_ }
    · rw [Vector.getElem_set_ne _ _ hne]
      exact h.x0
    · change s.params.truncX _ = _
      rw [Vector.getElem_set]
      split
      · exact Params.truncX_truncX _ _
      · exact h.xWidth r

theorem writeF (h : s.Inv) (rd : FReg) (v : FWord) : (s.writeF rd v).Inv :=
  { h with
    fWidth := fun r => by
      change s.params.truncF ((s.f.set rd.toNat (s.params.truncF v))[r.toNat]) = (s.f.set rd.toNat _)[r.toNat]
      rw [Vector.getElem_set]
      split
      · exact Params.truncF_truncF _ _
      · exact h.fWidth r }

theorem raise (h : s.Inv) (e : Exception) : (s.raise e).Inv := by
  obtain ⟨hmtvec, -, -, -⟩ := h.trapWidth
  obtain ⟨hvecAligned, -⟩ := h.trapAligned
  cases hmode : s.params.trap with
  | fault =>
    rw [State.raise_fault hmode]
    exact { h with recordMode := fun _ => hmode }
  | mmode =>
    rw [State.raise_mmode hmode, clearLow2_of_aligned h.pcAligned]
    exact
      { h with
        pcWidth := hmtvec
        pcAligned := hvecAligned
        trapWidth := ⟨hmtvec, h.pcWidth, Params.truncX_truncX _ _, Params.truncX_truncX _ _⟩
        trapAligned := ⟨hvecAligned, h.pcAligned⟩ }

theorem storeByte (h : s.Inv) {a : Nat} (ha : s.params.inMem a = true) (v : Byte) : (s.storeByte a v).Inv :=
  { h with
    memWf := State.storeByte_mem_wf a v h.memWf
    memExists := fun c hc => by
      obtain heq | hold := Memory.mem_write hc
      · exact (congrArg _ heq).trans ha
      · exact h.memExists c hold
    storedSorted := insertAddr_sorted h.storedSorted
    storedExists := fun b hb => by
      obtain rfl | hold := mem_insertAddr.1 hb
      · exact ha
      · exact h.storedExists b hold }

theorem writeHalf (h : s.Inv) {a : Word} (hcheck : s.checkHalf a = .permitted) (v : BitVec 16) :
    (s.writeHalf a v).Inv := by
  obtain ⟨hfirst, hsecond, -⟩ := (s.checkHalf_permitted_iff a).1 hcheck
  exact (h.storeByte hfirst _).storeByte hsecond _

theorem writeCsr (h : s.Inv) (c : Csr) (v : Word) : (s.writeCsr c v).Inv := by
  obtain ⟨hmtvec, hmepc, hmcause, hmtval⟩ := h.trapWidth
  obtain ⟨hvecAligned, hepcAligned⟩ := h.trapAligned
  have hword := Params.truncX_truncX s.params v
  have haddr : s.fitsX (clearLow2 (s.params.truncX v)) := (truncX_clearLow2 _ _).trans (congrArg clearLow2 hword)
  have hlow := clearLow2_aligned (s.params.truncX v)
  cases c with
  | fflags | frm | fcsr | mstatus => exact h.withStatus _ _ _
  | mtvec => exact { h with trapWidth := ⟨haddr, hmepc, hmcause, hmtval⟩, trapAligned := ⟨hlow, hepcAligned⟩ }
  | mepc => exact { h with trapWidth := ⟨hmtvec, haddr, hmcause, hmtval⟩, trapAligned := ⟨hvecAligned, hlow⟩ }
  | mcause => exact { h with trapWidth := ⟨hmtvec, hmepc, hword, hmtval⟩ }
  | mtval => exact { h with trapWidth := ⟨hmtvec, hmepc, hmcause, hword⟩ }

theorem writeCsr? (h : s.Inv) (c : Csr) (new : Option Word) : (s.writeCsr? c new).Inv := by
  cases new with
  | none => exact h
  | some v => exact h.writeCsr c v

/-- Where a well-formed instruction of the host subset goes on, `pc` keeps its width and alignment. -/
theorem target (h : s.Inv) (hwf : i.wellFormed = true) {v : Word} (ht : Target i s v) :
    s.fitsX v ∧ v.extractLsb' 0 2 = 0 := by
  cases ht with
  | next => exact ⟨Params.truncX_truncX _ _, State.nextPc_aligned h.pcAligned⟩
  | taken off heven haligned =>
    have hlow := State.branchTarget_even h.pcAligned (heven hwf)
    exact ⟨Params.truncX_truncX _ _, (aligned_iff _).2 ⟨hlow, haligned⟩⟩
  | handlerReturn => exact ⟨h.trapWidth.2.1, h.trapAligned.2⟩

/-- Every change a well-formed instruction makes keeps the invariant. -/
theorem apply (h : s.Inv) (hwf : i.wellFormed = true) {eff : Effect} (hdoes : Does i s eff) : (eff.apply s).Inv := by
  cases hdoes with
  | raise e => exact h.raise e
  | writeHalf | widen => exact ((h.writeF _ _).accrue _).completeFp _
  | writeX => exact ((h.writeX _ _).accrue _).completeFp _
  | store hi hcompletes =>
    subst hi
    exact (h.writeHalf (hcompletes.access _ _ rfl) _).completeFp _
  | jump _ _ ht =>
    obtain ⟨hfits, haligned⟩ := h.target hwf ht
    exact (h.writeX _ _).withPc (by rwa [State.fitsX, State.writeX_params]) haligned
  | csr => exact ((h.writeCsr? _ _).writeX _ _).advance

end State.Inv

end

/-- Settles O20: a step makes the change of an exception or of a well-formed instruction, and each change keeps the
invariant. -/
theorem stepKeepsInvariant : Obligations.StepKeepsInvariant := by
  unfold Obligations.StepKeepsInvariant
  intro s t h hstep
  obtain ⟨eff, rfl, ⟨e, rfl⟩ | ⟨i, hwf, hdoes⟩⟩ := exists_effect_of_step hstep
  · exact h.raise e
  · exact h.apply hwf hdoes

/-- Settles O21: zero fits in every width, and `RESET_PC` is cut to XLEN bits. -/
theorem resetMeetsInvariant : Obligations.ResetMeetsInvariant := by
  unfold Obligations.ResetMeetsInvariant
  have hreset (p : Params) (h : p.resetPc.extractLsb' 0 2 = 0) : (State.resetWith p).Inv := by
    have hzero : p.truncX 0 = 0 := p.truncX_zero
    obtain ⟨h0, h1⟩ := (aligned_iff _).1 h
    exact
      { x0 := rfl
        xWidth := fun r => by simp [State.fitsX, State.resetWith]
        fWidth := fun r => by simp [State.resetWith]
        pcWidth := Params.truncX_truncX _ _
        trapWidth := ⟨hzero, hzero, hzero, hzero⟩
        pcAligned := (aligned_iff _).2
          ⟨(truncX_getLsbD_low _ _ (by decide)).trans h0, (truncX_getLsbD_low _ _ (by decide)).trans h1⟩
        trapAligned := ⟨rfl, rfl⟩
        memWf := rfl
        memExists := fun _ hc => by cases hc
        storedSorted := .nil
        storedExists := fun _ ha => by cases ha
        recordMode := fun htrap => by cases htrap }
  exact ⟨hreset Params.full rfl, hreset⟩

/-- Settles O22: the definition of the state after reset. -/
theorem resetValues : Obligations.ResetValues := fun p => ⟨rfl, rfl, (State.resetWith p).readX_zero, rfl⟩

end Sys2Proof.Machine
end
